-- ==== Sys2Proof/Word.lean ====
section
/-!
DEFINITION. The words of the b32codec block (spec/00_scope.md R6, R7, R11; spec/30_encoding.md R90, R91).
Every value of the block is unsigned; counters that the spec calls naturals are plain `Nat`.
-/

namespace Sys2Proof

/-- A byte or a character code, `u8` (R90, R30). -/
abbrev Byte := BitVec 8

/-- The index of a symbol, `u5`, 0..31 (R90). -/
abbrev Sym := BitVec 5

/-- A bit accumulator, `u12` (R7 `ACC_W`, R21, R23). -/
abbrev Acc := BitVec 12

/-- A bit count, `u4` (R7 `BITS_W`, R22, R24). -/
abbrev BitCount := BitVec 4

/-- A command word, 12 bits (R91, R7 `CMD_W`). -/
abbrev CmdWord := BitVec 12

end Sys2Proof
end

