-- ==== Sys2Proof/Syntax.lean ====
section
/-!
DEFINITION. The commands of `B32CMD` and the fields of a command word (spec/30_encoding.md R91, R94; spec/opcode_table.json).
The macros ENCODE and DECODE (R105, R106) are sequences of these commands, not commands.
-/

namespace Sys2Proof

/-- The two units a command can address: bit 10 of the word (R91). -/
inductive UnitSel where
  | enc
  | dec
deriving DecidableEq, Repr

/-- The four fields of the one command format (R91), as raw bits; not every combination is a command (R98). -/
structure Fields where
  /-- Bit 11; must be 0. -/
  z : BitVec 1
  /-- Bit 10: 0 = ENC, 1 = DEC. -/
  unit : BitVec 1
  /-- Bits 9:8: 1 = START, 2 = PUSH, 3 = FLUSH or END; 0 is reserved. -/
  fn : BitVec 2
  /-- Bits 7:0: the operand of PUSH; must be 0x00 otherwise. -/
  data : Byte
deriving DecidableEq, Repr

/-- The six commands, one constructor per row of spec/opcode_table.json (R94). -/
inductive Instr where
  /-- `ENC.START` (R121). -/
  | encStart
  /-- `ENC.PUSH b` (R122); `b` is any byte. -/
  | encPush (b : Byte)
  /-- `ENC.FLUSH` (R128). -/
  | encFlush
  /-- `DEC.START` (R155). -/
  | decStart
  /-- `DEC.PUSH c` (R158); `c` is any character code, before normalisation. -/
  | decPush (c : Byte)
  /-- `DEC.END` (R165). -/
  | decEnd
deriving DecidableEq, Repr

/-- The unit a command addresses (R95 step 3). -/
def Instr.unit : Instr → UnitSel
  | .encStart => .enc
  | .encPush _ => .enc
  | .encFlush => .enc
  | .decStart => .dec
  | .decPush _ => .dec
  | .decEnd => .dec

end Sys2Proof
end

