-- ==== Sys2Proof/WellFormed.lean ====
section
/-!
DEFINITION. When the four fields of a command word make a command (spec/30_encoding.md R91, R98).
The operand of an `Instr` is a whole byte and every byte is legal (R92), so the checks are about the raw fields.
-/

namespace Sys2Proof

/-- Bit 11 must be 0 (R91). -/
def Fields.zOk (f : Fields) : Bool := f.z == 0#1

/-- `fn = 0` is reserved (R91, R98). -/
def Fields.fnOk (f : Fields) : Bool := f.fn != 0#2

/-- `data` must be 0x00 unless the function is PUSH (R91, R98). -/
def Fields.dataOk (f : Fields) : Bool := f.fn == 2#2 || f.data == 0x00#8

/-- The fields make one of the 516 words that are commands (R98). -/
def Fields.wellFormed (f : Fields) : Bool := f.zOk && f.fnOk && f.dataOk

end Sys2Proof
end

