-- ==== Sys2Proof/Decode.lean ====
section
/-!
DEFINITION. Decoding and encoding of the 12-bit command word (spec/30_encoding.md R91 to R99).
Decoding is total on all 4096 words and is the same in every state (R99); a reserved word is refused by name (R98).
-/

namespace Sys2Proof

/-- Why a word is reserved: the three classes of R98, the first that applies. -/
inductive ReservedClass where
  /-- `cmd[11] = 1` (opcodes 0x8 to 0xF). -/
  | bit11Set
  /-- `fn = 0` (opcodes 0x0 and 0x4). -/
  | fnZero
  /-- A non-zero `data` on a command that has no operand (opcodes 0x1, 0x3, 0x5, 0x7). -/
  | dataNotZero
deriving DecidableEq, Repr

/-- What a word decodes to: one of the six commands, or a reserved word. -/
inductive Decoded where
  | instr (i : Instr)
  | reserved (why : ReservedClass)
deriving DecidableEq, Repr

/-- The operand `data = cmd[7:0]`, as it stands (R92). -/
def operand (w : CmdWord) : Byte := w.extractLsb' 0 8

/-- The fields of a word (R91). -/
def splitWord (w : CmdWord) : Fields :=
  { z := w.extractLsb' 11 1, unit := w.extractLsb' 10 1, fn := w.extractLsb' 8 2, data := operand w }

/-- The word `{z, unit, fn, data}` (R91), the first field highest. -/
def joinWord (f : Fields) : CmdWord := f.z ++ f.unit ++ f.fn ++ f.data

/-- Which class of R98 a reserved word is in. -/
def reservedClass (w : CmdWord) : ReservedClass :=
  if (splitWord w).zOk = false then .bit11Set
  else if (splitWord w).fnOk = false then .fnZero
  else .dataNotZero

/-- The six match/mask patterns of R94; a word that matches none is reserved (R98). -/
def decode (w : CmdWord) : Decoded :=
  if w &&& 0xFFF#12 = 0x100#12 then .instr .encStart
  else if w &&& 0xF00#12 = 0x200#12 then .instr (.encPush (operand w))
  else if w &&& 0xFFF#12 = 0x300#12 then .instr .encFlush
  else if w &&& 0xFFF#12 = 0x500#12 then .instr .decStart
  else if w &&& 0xF00#12 = 0x600#12 then .instr (.decPush (operand w))
  else if w &&& 0xFFF#12 = 0x700#12 then .instr .decEnd
  else .reserved (reservedClass w)

/-- The fields of a command's word, from the table of R91. -/
def instrFields : Instr → Fields
  | .encStart => { z := 0, unit := 0, fn := 1, data := 0x00 }
  | .encPush b => { z := 0, unit := 0, fn := 2, data := b }
  | .encFlush => { z := 0, unit := 0, fn := 3, data := 0x00 }
  | .decStart => { z := 0, unit := 1, fn := 1, data := 0x00 }
  | .decPush c => { z := 0, unit := 1, fn := 2, data := c }
  | .decEnd => { z := 0, unit := 1, fn := 3, data := 0x00 }

/-- A command is well formed when its fields are; every `Instr` is (R92: any operand byte is legal). -/
def instrWellFormed (i : Instr) : Bool := (instrFields i).wellFormed

/-- The word of a command (R91). -/
def encode (i : Instr) : CmdWord := joinWord (instrFields i)

/-- The command word that the number `w` is: the port carries 12 bits, so a number that does not fit is no command word
(log entry 12). -/
def wordOfNat (w : Nat) : Option CmdWord := if w < 4096 then some (BitVec.ofNat 12 w) else none

/-- The command that the decoder reads from a word numbered as spec/opcode_table.json numbers it. The table's rows have
12 bits and one word; the bits above them must be 0 (log entry 12). -/
def decodeTableWord (_nbits w : Nat) : Option Instr :=
  match wordOfNat w with
  | none => none
  | some c =>
    match decode c with
    | .instr i => some i
    | .reserved _ => none

end Sys2Proof
end

