-- ==== Sys2Proof/Config.lean ====
section
/-!
DEFINITION. What an implementation fixes: the two OPEN parameters `MAXBY` and `MAXCH` (spec/00_scope.md R8, decision D13).
DESIGN CHOICE (log entry 1): the parameters are carried by the machine's state as a constant, so that every statement
about every state holds for every implementation.
-/

namespace Sys2Proof

/-- The length limits of one implementation (R8). `none` is "unbounded". -/
structure Limits where
  /-- `MAXBY`: the largest number of bytes one encode call may push. -/
  maxBy : Option Nat
  /-- `MAXCH`: the largest number of characters one decode call may push. -/
  maxCh : Option Nat
deriving DecidableEq, Repr

/-- No limits: exact for every call that D0 defines (R8). -/
def Limits.unbounded : Limits := { maxBy := none, maxCh := none }

end Sys2Proof
end

