-- ==== Sys2Proof/Machine/State.lean ====
section
/-!
DEFINITION. The state of the block (spec/10_state.md, table T1 in R55) and its value after reset (R55, R240).
`ALPHA` and `REV` are read-only tables and no state (R56, R77): Machine/Tables.lean.
-/

namespace Sys2Proof.Machine

/-- `U.PHASE` (R40): no call since reset, a call open, the last call complete. Code 3 is never written (V7, log entry 4). -/
inductive Phase where
  | idle
  | run
  | done
deriving DecidableEq, Repr

/-- `U.FCAUSE` (R49). Code 3 is never written (V7, log entry 4). -/
inductive FCause where
  /-- No fault. -/
  | none
  /-- A PUSH, FLUSH or END while the phase is not RUN (R206). -/
  | seq
  /-- A PUSH beyond `MAXBY` or `MAXCH` (R207). -/
  | ovf
deriving DecidableEq, Repr

/-- `D.STATUS` (R45). Codes 5, 6 and 7 are never written (V7, log entry 4). -/
inductive Verdict where
  /-- No verdict since reset or since the last `DEC.START`. -/
  | none
  /-- Success. -/
  | ok
  /-- InvalidCharacter (R201). -/
  | invChar
  /-- InvalidLength (R202). -/
  | invLen
  /-- InvalidPrefix (R203). -/
  | invPfx
deriving DecidableEq, Repr

/-- An output buffer: (index, element) pairs with strictly rising indices. An unlisted element has no value: nothing has
written it since reset (R55 "unspecified", R68; log entry 3). -/
abbrev Memory := List Host.Cell

/-- The registers and the buffer of unit ENC (T1, R55). -/
structure EncUnit where
  /-- `E.PHASE` (R40). -/
  phase : Phase
  /-- `E.ACC` (R21). -/
  acc : Acc
  /-- `E.BITS` (R22). -/
  bits : BitCount
  /-- `E.ICNT` (R28). -/
  icnt : Nat
  /-- `E.OLEN` (R28, R47). -/
  olen : Nat
  /-- `E.FAULT` (R48). -/
  fault : Bool
  /-- `E.FCAUSE` (R49). -/
  fcause : FCause
  /-- `EOUT` (R60). -/
  eout : Memory
deriving DecidableEq, Repr

/-- The registers and the buffer of unit DEC (T1, R55). -/
structure DecUnit where
  /-- `D.PHASE` (R40). -/
  phase : Phase
  /-- `D.ACC` (R23). -/
  acc : Acc
  /-- `D.BITS` (R24). -/
  bits : BitCount
  /-- `D.CNT` (R29). -/
  cnt : Nat
  /-- `D.WIDX` (R29). -/
  widx : Nat
  /-- `D.BADCHAR` (R36). -/
  badchar : Bool
  /-- `D.PFXOK` (R37). -/
  pfxok : Bool
  /-- `D.ERRCHAR` (R38). -/
  errchar : Byte
  /-- `D.STATUS` (R45). -/
  status : Verdict
  /-- `D.OLEN` (R46). -/
  olen : Nat
  /-- `D.FAULT` (R48). -/
  fault : Bool
  /-- `D.FCAUSE` (R49). -/
  fcause : FCause
  /-- `DOUT` (R60). -/
  dout : Memory
deriving DecidableEq, Repr

/-- What the host can do to the block between two steps: issue a command word (R108) or assert reset (R240). Reading is a
function of the state (`readPort`, `State.observe`), since a read has no side effect (R68). -/
inductive HostAct where
  | word (w : CmdWord)
  | reset
deriving DecidableEq, Repr

/-- The whole machine: `ILLCMD`, the two units, and the model's own two fields, which the spec calls parameters of the
step relation (R56): the limits (log entry 1) and the host's acts that are issued and not yet accepted (log entry 2). -/
structure State where
  /-- `ILLCMD` (R50). -/
  illcmd : Bool
  /-- Unit ENC. -/
  enc : EncUnit
  /-- Unit DEC. -/
  dec : DecUnit
  /-- `MAXBY` and `MAXCH` (R8); constant. -/
  limits : Limits
  /-- The host's acts, the next one first. -/
  port : List HostAct
deriving DecidableEq, Repr

/-- Why the machine stops. Neither can happen in a state that meets `State.Inv` (Safety.lean), so in no state a run
reaches; a usage fault of the spec is no such stop but a next state with sticky registers (R204, R205; log entry 10). -/
inductive Fault where
  /-- Raised by `emitSym` on a write to `EOUT[index]` with `index >= CAP_E`, an element that does not exist (R60, R70).
  Safe (log entry 5). -/
  | eoutIndex (index : Nat)
  /-- Raised by `emitByte` on a write to `DOUT[index]` with `index >= CAP_D`, an element that does not exist (R60, R70).
  Safe (log entry 5). -/
  | doutIndex (index : Nat)
deriving DecidableEq, Repr

/-- Why the model has no meaning for an instruction. -/
inductive Refusal where
  /-- Raised by an arm of `exec` whose instruction has no meaning yet; no arm does. Safe. -/
  | notModelled (mnemonic : String)
deriving DecidableEq, Repr

/-- Unit ENC after reset: the "after reset" column of T1 (R55). -/
def EncUnit.reset : EncUnit :=
  { phase := .idle, acc := 0, bits := 0, icnt := 0, olen := 0, fault := false, fcause := .none, eout := [] }

/-- Unit DEC after reset: the "after reset" column of T1 (R55). -/
def DecUnit.reset : DecUnit :=
  { phase := .idle, acc := 0, bits := 0, cnt := 0, widx := 0, badchar := false, pfxok := false, errchar := 0x00
    status := .none, olen := 0, fault := false, fcause := .none, dout := [] }

/-- The block after reset, for an implementation with the given limits (R55, R240), the host having issued nothing. -/
def State.resetWith (lim : Limits) : State :=
  { illcmd := false, enc := .reset, dec := .reset, limits := lim, port := [] }

/-- The block after reset. DESIGN CHOICE: unbounded limits (log entry 1) and nothing issued (log entry 2). -/
def State.reset : State := State.resetWith .unbounded

end Sys2Proof.Machine
end

