-- ==== Sys2Proof/Machine/Flags.lean ====
section
/-!
DEFINITION. The decoder's flags and its verdict (spec/10_state.md R36 to R38, R45, R46; spec/41_decoder.md R158, R165).
The encoder has no flags (R39).
-/

namespace Sys2Proof.Machine

/-- The sentinel `'S'` (R6, R30). -/
def sentinel : Byte := 0x53

/-- The shortest length that can be accepted (R6 `MIN_OK_LEN`). -/
def minOkLen : Nat := 6

/-- `D.PFXOK` after a push: written on the first character of the call only (R37, R158). -/
def pfxokAfter (cnt : Nat) (n : Byte) (old : Bool) : Bool := if cnt = 0 then n == sentinel else old

/-- `D.ERRCHAR` after a character that is not in the alphabet: written only when `D.BADCHAR` goes from 0 to 1 (R38). -/
def errcharAfter (badchar : Bool) (n old : Byte) : Byte := if badchar then old else n

/-- The verdict that `DEC.END` gives, in the order of D0's validations (R165, R210). -/
def verdict (badchar : Bool) (cnt : Nat) (pfxok : Bool) : Verdict :=
  if badchar = true then .invChar
  else if cnt < minOkLen then .invLen
  else if pfxok = false then .invPfx
  else .ok

/-- `D.OLEN` as `DEC.END` writes it: `floor(D.CNT * 5 / 8)` on OK, 0 on an error (R46, R165). -/
def publishedLen (v : Verdict) (cnt : Nat) : Nat :=
  match v with
  | .ok => cnt * 5 / 8
  | .none => 0
  | .invChar => 0
  | .invLen => 0
  | .invPfx => 0

/-- The code of `U.PHASE` (R40). -/
def phaseCode : Phase → BitVec 2
  | .idle => 0
  | .run => 1
  | .done => 2

/-- The code of `U.FCAUSE` (R49). -/
def causeCode : FCause → BitVec 2
  | .none => 0
  | .seq => 1
  | .ovf => 2

/-- The code of `D.STATUS` (R45). -/
def verdictCode : Verdict → BitVec 3
  | .none => 0
  | .ok => 1
  | .invChar => 2
  | .invLen => 3
  | .invPfx => 4

end Sys2Proof.Machine
end

