-- ==== Sys2Proof/Machine/Tables.lean ====
section
/-!
DEFINITION. The two read-only look-up tables `ALPHA` and `REV` (spec/10_state.md R31, R33; spec/20_memory.md R60).
The order of the alphabet and the ASCII codes are the spec's own general knowledge (G1, G2; log entry 7).
-/

namespace Sys2Proof.Machine

/-- The 32 entries of `ALPHA`, index 0 first: `0123456789ABCDEFGHJKMNPQRSTVWXYZ` (R31). -/
def alphaTable : List Byte :=
  [0x30, 0x31, 0x32, 0x33, 0x34, 0x35, 0x36, 0x37,
   0x38, 0x39, 0x41, 0x42, 0x43, 0x44, 0x45, 0x46,
   0x47, 0x48, 0x4A, 0x4B, 0x4D, 0x4E, 0x50, 0x51,
   0x52, 0x53, 0x54, 0x56, 0x57, 0x58, 0x59, 0x5A]

/-- `MemRead(ALPHA:i, 1)` (R60): the table has an entry for every `u5`. -/
def alpha (i : Sym) : Byte := alphaTable.getD i.toNat 0x00

/-- An entry of `REV` (R33). -/
structure RevEntry where
  /-- The code is an entry of `ALPHA`. -/
  valid : Bool
  /-- Its index there; 0 when it is none. -/
  idx : Sym
deriving DecidableEq, Repr

/-- The entry of `REV` for the code `c`, searching the given rest of `ALPHA`, whose first entry has index `i`. -/
def revFrom (c : Byte) : List Byte → Nat → RevEntry
  | [], _ => { valid := false, idx := 0 }
  | a :: rest, i => if a = c then { valid := true, idx := BitVec.ofNat 5 i } else revFrom c rest (i + 1)

/-- `MemRead(REV:c, 1)`: `(1, i)` when `ALPHA[i] = c`, and `(0, 0)` for every other code (R33). -/
def rev (c : Byte) : RevEntry := revFrom c alphaTable 0

/-- The entry as the six bits `{valid, idx[4:0]}` (R90). -/
def revBits (e : RevEntry) : BitVec 6 := BitVec.ofBool e.valid ++ e.idx

end Sys2Proof.Machine
end

