-- ==== Sys2Proof/Machine/Operands.lean ====
section
/-!
DEFINITION. The combinational functions on operands and accumulators: normalisation and look-up (spec/41_decoder.md R152,
R154) and the shifts and masks of the two datapaths (spec/40_encoder.md R122, R128; spec/41_decoder.md R158).
Outside the ranges of spec/00_scope.md R13, which no run leaves, an accumulator is narrowed to its 12 bits and a shift
amount below 0 is 0 (DEDUCED, log entry 6).
-/

namespace Sys2Proof.Machine

/-- `'a'..'z'` to `'A'..'Z'`, every other code unchanged: the first step of `norm` (R152, decision D8). -/
def foldCase (c : Byte) : Byte := if 0x61#8 ≤ c ∧ c ≤ 0x7A#8 then c - 0x20#8 else c

/-- `norm(c)` (R152): fold the case, then `O` to `0` and `I`, `L` to `1`. -/
def normalise (c : Byte) : Byte :=
  if foldCase c = 0x4F#8 then 0x30#8
  else if foldCase c = 0x49#8 ∨ foldCase c = 0x4C#8 then 0x31#8
  else foldCase c

/-- `lookup(n)` of a normalised code (R154). -/
def lookup (n : Byte) : RevEntry := rev n

/-- `(E.ACC << 8) | b` in the `u12` local `a` (R122). -/
def shiftInByte (acc : Acc) (b : Byte) : Acc := (acc <<< 8) ||| b.setWidth 12

/-- `(D.ACC << 5) | i` in the `u12` local `a` (R158). -/
def shiftInSym (acc : Acc) (i : Sym) : Acc := (acc <<< 5) ||| i.setWidth 12

/-- `(a >> (n - 5)) & 0b11111`: the top 5 of the `n` live bits (R122). -/
def topSym (a : Acc) (n : Nat) : Sym := (a >>> (n - 5)).setWidth 5

/-- `(a >> (k - 8)) & 0xFF`: the top 8 of the `k` live bits (R158). -/
def topByte (a : Acc) (k : Nat) : Byte := (a >>> (k - 8)).setWidth 8

/-- `a & ((1 << n) - 1)`: keep only the `n` live bits (R122, R158). -/
def keepLow (a : Acc) (n : Nat) : Acc := a &&& BitVec.ofNat 12 ((1 <<< n) - 1)

/-- `(E.ACC << (5 - E.BITS)) & 0b11111`: the left-over bits, then zeros (R128). -/
def padSym (acc : Acc) (bits : Nat) : Sym := (acc <<< (5 - bits)).setWidth 5

end Sys2Proof.Machine
end

