-- ==== Sys2Proof/Machine/Ops.lean ====
section
/-!
DEFINITION. The named operations over the buffers, the fault registers and the command port: buffer access (spec/20_memory.md
R60, R65 to R68), the two emit operations (R124, R161), raising a usage fault (spec/60_exceptions.md R204, R205), the tests
before execution (spec/30_encoding.md R95), reset (spec/70_reset_and_hazards.md R240) and what the host reads (R51).
-/

namespace Sys2Proof.Machine

/-- The element at index `a`; none when nothing has written it since reset (R55, R68). -/
def Memory.read : Memory → Nat → Option Byte
  | [], _ => none
  | (k, x) :: m, a => if k = a then some x else Memory.read m a

/-- Write the element at index `a`, keeping the indices rising. -/
def Memory.write : Memory → Nat → Byte → Memory
  | [], a, v => [(a, v)]
  | (k, x) :: m, a, v =>
    if a < k then (a, v) :: (k, x) :: m
    else if a = k then (a, v) :: m
    else (k, x) :: Memory.write m a v

/-- The canonical form: strictly rising indices. (No entry can equal an unlisted element, which has no value.) -/
def Memory.wf : Memory → Bool
  | [] => true
  | [_] => true
  | (a, _) :: (b, y) :: m => decide (a < b) && Memory.wf ((b, y) :: m)

/-- Every listed index is an element of a buffer of the given capacity. -/
def Memory.within (cap : Option Nat) (m : Memory) : Bool :=
  match cap with
  | none => true
  | some c => m.all fun cell => decide (cell.1 < c)

/-- `CAP_E = ceil(8 * MAXBY / 5)` (R8); none is unbounded. -/
def capE (lim : Limits) : Option Nat := lim.maxBy.map fun n => (8 * n + 4) / 5

/-- `CAP_D = floor(5 * MAXCH / 8)` (R8); none is unbounded. -/
def capD (lim : Limits) : Option Nat := lim.maxCh.map fun n => 5 * n / 8

/-- Index `a` is an element of a buffer of capacity `cap` (R60). -/
def hasIndex (cap : Option Nat) (a : Nat) : Bool :=
  match cap with
  | none => true
  | some c => decide (a < c)

/-- `emit_sym(s)` (R124): read `ALPHA[s]`, write it at `EOUT[E.OLEN]`, count it. A write outside the buffer faults
(log entry 5; never in a state a run reaches, R70). -/
def emitSym (cap : Option Nat) (sym : Sym) (e : EncUnit) : Except Fault EncUnit :=
  if hasIndex cap e.olen then
    .ok { e with eout := Memory.write e.eout e.olen (alpha sym), olen := e.olen + 1 }
  else .error (.eoutIndex e.olen)

/-- `emit_byte(y)` (R161): write `y` at `DOUT[D.WIDX]`, count it. A write outside the buffer faults (log entry 5; never in
a state a run reaches, R70). -/
def emitByte (cap : Option Nat) (y : Byte) (d : DecUnit) : Except Fault DecUnit :=
  if hasIndex cap d.widx then
    .ok { d with dout := Memory.write d.dout d.widx y, widx := d.widx + 1 }
  else .error (.doutIndex d.widx)

/-- `while n >= 5` of R122. The accumulator and the count end in `E.ACC` and `E.BITS`. `fuel` bounds the number of turns;
`n` turns are always enough. -/
def symLoop (cap : Option Nat) : Nat → Acc → Nat → EncUnit → Except Fault EncUnit
  | 0, a, n, e => .ok { e with acc := a, bits := BitVec.ofNat 4 n }
  | fuel + 1, a, n, e =>
    if n < 5 then .ok { e with acc := a, bits := BitVec.ofNat 4 n }
    else
      match emitSym cap (topSym a n) e with
      | .error f => .error f
      | .ok e' => symLoop cap fuel (keepLow a (n - 5)) (n - 5) e'

/-- `while k >= 8` of R158. The accumulator and the count end in `D.ACC` and `D.BITS`. `fuel` bounds the number of turns;
`k` turns are always enough. -/
def byteLoop (cap : Option Nat) : Nat → Acc → Nat → DecUnit → Except Fault DecUnit
  | 0, a, k, d => .ok { d with acc := a, bits := BitVec.ofNat 4 k }
  | fuel + 1, a, k, d =>
    if k < 8 then .ok { d with acc := a, bits := BitVec.ofNat 4 k }
    else
      match emitByte cap (topByte a k) d with
      | .error f => .error f
      | .ok d' => byteLoop cap fuel (keepLow a (k - 8)) (k - 8) d'

/-- `U.FAULT` of the addressed unit (R48). -/
def unitFault (u : UnitSel) (s : State) : Bool :=
  match u with
  | .enc => s.enc.fault
  | .dec => s.dec.fault

/-- `U.FCAUSE` of the addressed unit (R49). -/
def unitCause (u : UnitSel) (s : State) : FCause :=
  match u with
  | .enc => s.enc.fcause
  | .dec => s.dec.fcause

/-- `U.PHASE` of the addressed unit (R40). -/
def unitPhase (u : UnitSel) (s : State) : Phase :=
  match u with
  | .enc => s.enc.phase
  | .dec => s.dec.phase

/-- `raise IllegalCommand` (R204): `ILLCMD <- 1`, nothing else changes. -/
def raiseIllegal (s : State) : State := { s with illcmd := true }

/-- `raise UnitFault(U, cause)` (R205): `U.FAULT <- 1`, `U.FCAUSE <- cause`, nothing else changes. -/
def raiseUnitFault (u : UnitSel) (c : FCause) (s : State) : State :=
  match u with
  | .enc => { s with enc := { s.enc with fault := true, fcause := c } }
  | .dec => { s with dec := { s.dec with fault := true, fcause := c } }

/-- The count is at the limit; never when the limit is unbounded (R95 step 5, R207; log entry 8). -/
def atLimit (limit : Option Nat) (count : Nat) : Bool := limit == some count

/-- What the tests of R95 make of a command, in their order. -/
inductive Admission where
  /-- `ILLCMD = 1` or `U.FAULT = 1`: the state is unchanged (steps 1 and 3). -/
  | ignored
  /-- `raise UnitFault(U, cause)` (steps 4 and 5). -/
  | raises (c : FCause)
  /-- The command executes by its own rule (step 6). -/
  | executes
deriving DecidableEq, Repr

/-- Steps 1, 3, 4 and 5 of R95 for a command of unit `u`; `needsRun`: it is a PUSH, FLUSH or END; `full`: it is a PUSH and
the count is at its limit. -/
def admission (u : UnitSel) (needsRun full : Bool) (s : State) : Admission :=
  if s.illcmd = true then .ignored
  else if unitFault u s = true then .ignored
  else if needsRun = true ∧ unitPhase u s ≠ .run then .raises .seq
  else if full = true then .raises .ovf
  else .executes

/-- A command of unit ENC whose own rule is `body` (R95 steps 1 and 3 to 6). -/
def encCommand (needsRun full : Bool) (body : EncUnit → Except Fault EncUnit) (s : State) :
    Host.Outcome State Fault Refusal :=
  match admission .enc needsRun full s with
  | .ignored => .next s
  | .raises c => .next (raiseUnitFault .enc c s)
  | .executes =>
    match body s.enc with
    | .error f => .fault f
    | .ok e => .next { s with enc := e }

/-- A command of unit DEC whose own rule is `body` (R95 steps 1 and 3 to 6). -/
def decCommand (needsRun full : Bool) (body : DecUnit → Except Fault DecUnit) (s : State) :
    Host.Outcome State Fault Refusal :=
  match admission .dec needsRun full s with
  | .ignored => .next s
  | .raises c => .next (raiseUnitFault .dec c s)
  | .executes =>
    match body s.dec with
    | .error f => .fault f
    | .ok d => .next { s with dec := d }

/-- Hardware reset (R240, R241): the "after reset" column of T1 for both units and `ILLCMD`. The implementation's limits and
the acts the host has still to make are no state of the block. -/
def hardReset (s : State) : State := { State.resetWith s.limits with port := s.port }

/-- What the next act of the host asks of the step. -/
inductive Offer where
  /-- The step ends in this state with no command executed. -/
  | settled (s : State)
  /-- The step executes this command in this state. -/
  | run (i : Instr) (s : State)
deriving DecidableEq, Repr

/-- Steps 1 and 2 of R95 for an accepted word: a set `ILLCMD` hides everything, then a reserved word is illegal. -/
def acceptWord (w : CmdWord) (s : State) : Offer :=
  if s.illcmd = true then .settled s
  else
    match decode w with
    | .reserved _ => .settled (raiseIllegal s)
    | .instr i => .run i s

/-- Take the host's next act from the port. With none issued the block does nothing (R241). -/
def nextOffer (s : State) : Offer :=
  match s.port with
  | [] => .settled s
  | .reset :: rest => .settled (hardReset { s with port := rest })
  | .word w :: rest => acceptWord w { s with port := rest }

/-- The host issues the word numbered `w` as its next act. -/
def issueWord (w : Nat) (s : State) : State :=
  match wordOfNat w with
  | none => s
  | some c => { s with port := .word c :: s.port }

/-- The buffer that the read port selects: `rd_sel` (R68). -/
inductive BufSel where
  | eout
  | dout
deriving DecidableEq, Repr

/-- The window of `DOUT` is open (R67). -/
def doutWindowOpen (d : DecUnit) : Bool := d.phase == .done && d.status == .ok && d.fault == false

/-- The number of elements in the window of a buffer (R66, R67). -/
def windowLen (sel : BufSel) (s : State) : Nat :=
  match sel with
  | .eout => s.enc.olen
  | .dout => if doutWindowOpen s.dec then s.dec.olen else 0

/-- A host read (R66 to R68): the element when the index is in the window, none otherwise. -/
def readPort (sel : BufSel) (idx : Nat) (s : State) : Option Byte :=
  if idx < windowLen sel s then
    match sel with
    | .eout => Memory.read s.enc.eout idx
    | .dout => Memory.read s.dec.dout idx
  else none

/-- The read port at the pins, `(rd_valid, rd_data)` (R68). No statement rests on the 0x00 outside a window (log entry 11). -/
def readPins (sel : BufSel) (idx : Nat) (s : State) : Bool × Byte :=
  match readPort sel idx s with
  | some x => (true, x)
  | none => (false, 0x00)

/-- The elements of a window, in order. -/
def window (sel : BufSel) (s : State) : List Byte :=
  (List.range (windowLen sel s)).filterMap fun idx => readPort sel idx s

/-- Everything the host can read, as register codes and window contents (R51). -/
structure Obs where
  illcmd : Bool
  ePhase : BitVec 2
  eOlen : Nat
  eFault : Bool
  eFcause : BitVec 2
  dPhase : BitVec 2
  dStatus : BitVec 3
  dErrchar : Byte
  dOlen : Nat
  dFault : Bool
  dFcause : BitVec 2
  eWindow : List Byte
  dWindow : List Byte
deriving DecidableEq, Repr

/-- The observation of a state (R51); all else is hidden (R54). -/
def State.observe (s : State) : Obs :=
  { illcmd := s.illcmd
    ePhase := phaseCode s.enc.phase
    eOlen := s.enc.olen
    eFault := s.enc.fault
    eFcause := causeCode s.enc.fcause
    dPhase := phaseCode s.dec.phase
    dStatus := verdictCode s.dec.status
    dErrchar := s.dec.errchar
    dOlen := s.dec.olen
    dFault := s.dec.fault
    dFcause := causeCode s.dec.fcause
    eWindow := window .eout s
    dWindow := window .dout s }

/-- An encode call is complete (R217). -/
def encodeComplete (s : State) : Bool := s.enc.phase == .done && !s.enc.fault && !s.illcmd

/-- A decode call is complete (R217). -/
def decodeComplete (s : State) : Bool := s.dec.phase == .done && !s.dec.fault && !s.illcmd

end Sys2Proof.Machine
end

