-- ==== Sys2Proof/Machine/Decoder.lean ====
section
/-!
DEFINITION. The decoder's three commands (spec/41_decoder.md): `DEC.START` (R155), `DEC.PUSH` (R158), `DEC.END` (R165).
-/

namespace Sys2Proof.Machine

/-- R155's pseudocode; `DOUT` is not written. -/
def decOpen (d : DecUnit) : DecUnit :=
  { d with
    acc := 0, bits := 0, cnt := 0, widx := 0, badchar := false, pfxok := false, errchar := 0x00
    status := .none, olen := 0, phase := .run }

/-- R158's datapath, for a valid character while all were valid: shift the index in, write out a whole byte. -/
def decShift (cap : Option Nat) (i : Sym) (d : DecUnit) : Except Fault DecUnit :=
  byteLoop cap (d.bits.toNat + 5) (shiftInSym d.acc i) (d.bits.toNat + 5) d

/-- R158's three branches on the look-up and `D.BADCHAR`, for the normalised code `n`. -/
def decRecord (cap : Option Nat) (n : Byte) (d : DecUnit) : Except Fault DecUnit :=
  if (lookup n).valid = false then .ok { d with errchar := errcharAfter d.badchar n d.errchar, badchar := true }
  else if d.badchar = false then decShift cap (lookup n).idx d
  else .ok d

/-- R158's pseudocode: normalise, record the prefix check, look up, run the branch, count the character. -/
def decTakeIn (cap : Option Nat) (c : Byte) (d : DecUnit) : Except Fault DecUnit :=
  match decRecord cap (normalise c) { d with pfxok := pfxokAfter d.cnt (normalise c) d.pfxok } with
  | .error f => .error f
  | .ok d' => .ok { d' with cnt := d'.cnt + 1 }

/-- R165's pseudocode: give the verdict, publish the length, drop the left-over bits, close the call. -/
def decClose (d : DecUnit) : DecUnit :=
  { d with
    status := verdict d.badchar d.cnt d.pfxok
    olen := publishedLen (verdict d.badchar d.cnt d.pfxok) d.cnt
    acc := 0, bits := 0, phase := .done }

/-- `DEC.START` (R155): accepted in every phase. -/
def execDecStart (s : State) : Host.Outcome State Fault Refusal :=
  decCommand false false (fun d => .ok (decOpen d)) s

/-- `DEC.PUSH c` (R158): SEQ outside RUN (R206), OVF at `MAXCH` (R207). -/
def execDecPush (c : Byte) (s : State) : Host.Outcome State Fault Refusal :=
  decCommand true (atLimit s.limits.maxCh s.dec.cnt) (decTakeIn (capD s.limits) c) s

/-- `DEC.END` (R165): SEQ outside RUN (R206). -/
def execDecEnd (s : State) : Host.Outcome State Fault Refusal :=
  decCommand true false (fun d => .ok (decClose d)) s

end Sys2Proof.Machine
end

