-- ==== Sys2Proof/Machine/Encoder.lean ====
section
/-!
DEFINITION. The encoder's three commands (spec/40_encoder.md): `ENC.START` (R121), `ENC.PUSH` (R122), `ENC.FLUSH` (R128).
-/

namespace Sys2Proof.Machine

/-- R121's pseudocode; `EOUT` is not written. -/
def encOpen (e : EncUnit) : EncUnit := { e with acc := 0, bits := 0, icnt := 0, olen := 0, phase := .run }

/-- R122's pseudocode: shift the byte in, write out every whole symbol, count the byte. -/
def encTakeIn (cap : Option Nat) (b : Byte) (e : EncUnit) : Except Fault EncUnit :=
  match symLoop cap (e.bits.toNat + 8) (shiftInByte e.acc b) (e.bits.toNat + 8) e with
  | .error f => .error f
  | .ok e' => .ok { e' with icnt := e'.icnt + 1 }

/-- R128's pseudocode: write the last, partial symbol if there is one, and close the call. -/
def encClose (cap : Option Nat) (e : EncUnit) : Except Fault EncUnit :=
  if 0 < e.bits.toNat then
    match emitSym cap (padSym e.acc e.bits.toNat) e with
    | .error f => .error f
    | .ok e' => .ok { e' with acc := 0, bits := 0, phase := .done }
  else .ok { e with acc := 0, bits := 0, phase := .done }

/-- `ENC.START` (R121): accepted in every phase. -/
def execEncStart (s : State) : Host.Outcome State Fault Refusal :=
  encCommand false false (fun e => .ok (encOpen e)) s

/-- `ENC.PUSH b` (R122): SEQ outside RUN (R206), OVF at `MAXBY` (R207). -/
def execEncPush (b : Byte) (s : State) : Host.Outcome State Fault Refusal :=
  encCommand true (atLimit s.limits.maxBy s.enc.icnt) (encTakeIn (capE s.limits) b) s

/-- `ENC.FLUSH` (R128): SEQ outside RUN (R206). -/
def execEncFlush (s : State) : Host.Outcome State Fault Refusal :=
  encCommand true false (encClose (capE s.limits)) s

end Sys2Proof.Machine
end

