-- ==== Sys2Proof/Machine/Dispatch.lean ====
section
/-!
DEFINITION. One arm per command (spec/30_encoding.md R94).
-/

namespace Sys2Proof.Machine

/-- The effect of one decoded command (R95 steps 1 and 3 to 6). -/
def exec (i : Instr) (s : State) : Host.Outcome State Fault Refusal :=
  match i with
  | .encStart => Sys2Proof.Machine.execEncStart s
  | .encPush b => Sys2Proof.Machine.execEncPush b s
  | .encFlush => Sys2Proof.Machine.execEncFlush s
  | .decStart => Sys2Proof.Machine.execDecStart s
  | .decPush c => Sys2Proof.Machine.execDecPush c s
  | .decEnd => Sys2Proof.Machine.execDecEnd s

end Sys2Proof.Machine
end

