-- ==== Sys2Proof/Machine/Step.lean ====
section
/-!
DEFINITION. One step of the machine: the host's next act, one accepted command word being one atomic step
(spec/00_scope.md R9, spec/20_memory.md R72, spec/30_encoding.md R95).
-/

namespace Sys2Proof.Machine

/-- Take the host's next act; a word that is a command runs it in the state from which that act is taken away. -/
def step (s : State) : Host.Outcome State Fault Refusal :=
  match nextOffer s with
  | .settled s' => .next s'
  | .run i s' => exec i s'

/-- The state in which the host's next act is the command word numbered `w`, so that the next step accepts it (log entry 2).
A word has one length, so the number of bits is not needed; a number over 12 bits is no word (log entry 12). -/
def State.withFetchWord (s : State) (_nbits w : Nat) : State := issueWord w s

end Sys2Proof.Machine
end

