-- ==== Sys2Proof/Machine/Macros.lean ====
section
/-!
DEFINITION. The two macros ENCODE and DECODE as command sequences (spec/30_encoding.md R105, R106), and running a sequence
of commands in order (spec/20_memory.md R72).
-/

namespace Sys2Proof.Machine

/-- `ENCODE [b0, ..., b(n-1)]` (R105). -/
def encodeCall (bytes : List Byte) : List Instr := Instr.encStart :: (bytes.map Instr.encPush ++ [Instr.encFlush])

/-- `DECODE "c0...c(n-1)"` (R106); the host does not normalise. -/
def decodeCall (text : List Byte) : List Instr := Instr.decStart :: (text.map Instr.decPush ++ [Instr.decEnd])

/-- Run commands one after the other; a stop ends the run. -/
def execAll : List Instr → State → Host.Outcome State Fault Refusal
  | [], s => .next s
  | i :: is, s =>
    match exec i s with
    | .next t => execAll is t
    | .fault f => .fault f
    | .refused r => .refused r

end Sys2Proof.Machine
end

