-- ==== Sys2Proof/Safety.lean ====
section
/-!
DEFINITION. What holds at every command boundary (spec/10_state.md R21 to R29, R36 to R49; spec/20_memory.md R70), the two
relations "this unit has taken in exactly these elements" (R126, R162), and the functions that whole calls compute: by bit
strings (R130, R169), and as D0's algorithm with its unmasked accumulator (R25, R120, R150, R173).
-/

namespace Sys2Proof.Machine

/-- The count has not passed the limit (R28, R29). -/
def withinLimit (limit : Option Nat) (count : Nat) : Bool :=
  match limit with
  | none => true
  | some n => decide (count ≤ n)

/-- Unit ENC at a command boundary. -/
structure EncInv (lim : Limits) (e : EncUnit) : Prop where
  /-- R22. -/
  bits_le : e.bits.toNat ≤ 4
  /-- R21: the bits above the live ones are 0. -/
  acc_lt : e.acc.toNat < 2 ^ e.bits.toNat
  /-- R28. -/
  icnt_le : withinLimit lim.maxBy e.icnt = true
  /-- R40, R55: nothing has been done since reset. -/
  idle : e.phase = .idle → e.acc = 0 ∧ e.bits = 0 ∧ e.icnt = 0 ∧ e.olen = 0
  /-- R126 (i). -/
  run : e.phase = .run → e.bits.toNat + 5 * e.olen = 8 * e.icnt
  /-- R128, R129: `E.OLEN = ceil(8 * E.ICNT / 5)`. -/
  done : e.phase = .done → e.acc = 0 ∧ e.bits = 0 ∧ e.olen = (8 * e.icnt + 4) / 5
  /-- The buffer is in canonical form. -/
  eout_wf : Memory.wf e.eout = true
  /-- R70: no element past the buffer's end was written. -/
  eout_within : Memory.within (capE lim) e.eout = true
  /-- R66, R68: every element of the window has been written. -/
  eout_listed : ∀ k, k < e.olen → (Memory.read e.eout k).isSome = true
  /-- R132: every element that has been written is an entry of `ALPHA`. -/
  eout_alpha : ∀ cell ∈ e.eout, cell.2 ∈ alphaTable
  /-- R49: the cause stands exactly while the fault does. -/
  fault_iff : e.fault = false ↔ e.fcause = .none
  /-- R206: a SEQ fault froze the unit outside RUN. -/
  seq : e.fcause = .seq → e.phase ≠ .run
  /-- R207: an OVF fault froze the unit in RUN at its limit. -/
  ovf : e.fcause = .ovf → e.phase = .run ∧ lim.maxBy = some e.icnt

/-- Unit DEC at a command boundary. -/
structure DecInv (lim : Limits) (d : DecUnit) : Prop where
  /-- R24. -/
  bits_le : d.bits.toNat ≤ 7
  /-- R23: the bits above the live ones are 0. -/
  acc_lt : d.acc.toNat < 2 ^ d.bits.toNat
  /-- R29. -/
  cnt_le : withinLimit lim.maxCh d.cnt = true
  /-- R70: `D.WIDX <= floor(5 * D.CNT / 8)`. -/
  widx_le : d.widx ≤ 5 * d.cnt / 8
  /-- R40, R55: nothing has been done since reset. -/
  idle : d.phase = .idle → d.acc = 0 ∧ d.bits = 0 ∧ d.cnt = 0
  /-- R162 (i). -/
  run : d.phase = .run → d.badchar = false → d.bits.toNat + 8 * d.widx = 5 * d.cnt
  /-- R45, R46: no verdict and no length but in DONE. -/
  no_verdict : d.phase ≠ .done → d.status = .none ∧ d.olen = 0
  /-- R165: the verdict and the published length follow from the flags and the count, which stand. -/
  done : d.phase = .done → d.acc = 0 ∧ d.bits = 0 ∧ d.status = verdict d.badchar d.cnt d.pfxok ∧
    d.olen = publishedLen d.status d.cnt
  /-- R168: with no bad character every whole byte was written. -/
  done_widx : d.phase = .done → d.badchar = false → d.widx = 5 * d.cnt / 8
  /-- R36, R37: a flag is set by a pushed character only. -/
  no_char : d.cnt = 0 → d.badchar = false ∧ d.pfxok = false
  /-- R38: no bad character, no recorded character. -/
  errchar_zero : d.badchar = false → d.errchar = 0
  /-- R38, R201: the recorded character is in its normalised form and no entry of `ALPHA`. -/
  errchar_bad : d.badchar = true → normalise d.errchar = d.errchar ∧ (lookup d.errchar).valid = false
  /-- R172: the sentinel's five bits are the only live ones after the first character. -/
  sentinel_acc : d.phase = .run → d.pfxok = true → d.badchar = false → d.cnt = 1 → d.acc = 25
  /-- R172: the sentinel's five bits are the top of the first byte. -/
  sentinel_byte : d.pfxok = true → d.badchar = false → 2 ≤ d.cnt →
    (Memory.read d.dout 0).any (fun x => x &&& 0xF8#8 == 0xC8#8) = true
  /-- The buffer is in canonical form. -/
  dout_wf : Memory.wf d.dout = true
  /-- R70: no byte past the buffer's end was written. -/
  dout_within : Memory.within (capD lim) d.dout = true
  /-- R67, R68: every byte below the write index has been written. -/
  dout_listed : ∀ k, k < d.widx → (Memory.read d.dout k).isSome = true
  /-- R49: the cause stands exactly while the fault does. -/
  fault_iff : d.fault = false ↔ d.fcause = .none
  /-- R206: a SEQ fault froze the unit outside RUN. -/
  seq : d.fcause = .seq → d.phase ≠ .run
  /-- R207: an OVF fault froze the unit in RUN at its limit. -/
  ovf : d.fcause = .ovf → d.phase = .run ∧ lim.maxCh = some d.cnt

/-- The block at a command boundary. -/
structure State.Inv (s : State) : Prop where
  enc : EncInv s.limits s.enc
  dec : DecInv s.limits s.dec

/-- The command is a START (R91 `fn = 1`). -/
def isStart : Instr → Bool
  | .encStart => true
  | .encPush _ => false
  | .encFlush => false
  | .decStart => true
  | .decPush _ => false
  | .decEnd => false

/-- The command is a PUSH (R91 `fn = 2`). -/
def isPush : Instr → Bool
  | .encStart => false
  | .encPush _ => true
  | .encFlush => false
  | .decStart => false
  | .decPush _ => true
  | .decEnd => false

/-- The command closes a call: FLUSH or END (R91 `fn = 3`). -/
def isClose : Instr → Bool
  | .encStart => false
  | .encPush _ => false
  | .encFlush => true
  | .decStart => false
  | .decPush _ => false
  | .decEnd => true

/-- The command is a PUSH and its unit's count is at the limit (R95 step 5). -/
def pushIsFull (i : Instr) (s : State) : Prop :=
  match i with
  | .encStart => False
  | .encPush _ => s.limits.maxBy = some s.enc.icnt
  | .encFlush => False
  | .decStart => False
  | .decPush _ => s.limits.maxCh = some s.dec.cnt
  | .decEnd => False

/-- `t` is the state in which the command's own rule leaves its unit (R95 step 6). -/
def ExecutedBy (i : Instr) (s t : State) : Prop :=
  match i with
  | .encStart => t = { s with enc := encOpen s.enc }
  | .encPush b => ∃ e, encTakeIn (capE s.limits) b s.enc = .ok e ∧ t = { s with enc := e }
  | .encFlush => ∃ e, encClose (capE s.limits) s.enc = .ok e ∧ t = { s with enc := e }
  | .decStart => t = { s with dec := decOpen s.dec }
  | .decPush c => ∃ d, decTakeIn (capD s.limits) c s.dec = .ok d ∧ t = { s with dec := d }
  | .decEnd => t = { s with dec := decClose s.dec }

/-- The next state of an outcome, if it is one. -/
def nextOf {σ φ ρ : Type} : Host.Outcome σ φ ρ → Option σ
  | .next s => some s
  | .fault _ => none
  | .refused _ => none

/-- `bits8(B)` (R11): the bits of a byte list, each byte most significant bit first. -/
def bits8 (bytes : List Byte) : List Bool :=
  bytes.flatMap fun b => [b.getLsbD 7, b.getLsbD 6, b.getLsbD 5, b.getLsbD 4, b.getLsbD 3, b.getLsbD 2, b.getLsbD 1, b.getLsbD 0]

/-- The bits of an index list, each index from bit 4 down to bit 0 (R63, R162). -/
def bits5 (syms : List Sym) : List Bool :=
  syms.flatMap fun i => [i.getLsbD 4, i.getLsbD 3, i.getLsbD 2, i.getLsbD 1, i.getLsbD 0]

/-- The number whose bits are the list's, first bit highest (R126, R162). -/
def bitsValue (bits : List Bool) : Nat := bits.foldl (fun v b => 2 * v + b.toNat) 0

/-- Group `k` of `width` bits, counted from the start of the bit string (R63). -/
def bitGroup (bits : List Bool) (width k : Nat) : List Bool := (bits.drop (width * k)).take width

/-- The zero bits that make a byte list of length `n` a whole number of symbols (R130). -/
def padLen (n : Nat) : Nat := (5 - 8 * n % 5) % 5

/-- `encode(B)` as R130 gives it. -/
def encodeOf (bytes : List Byte) : List Byte :=
  let w := bits8 bytes ++ List.replicate (padLen bytes.length) false
  (List.range (w.length / 5)).map fun k => alpha (BitVec.ofNat 5 (bitsValue (bitGroup w 5 k)))

/-- The indices of a text's normalised characters (R162, R169). -/
def indicesOf (text : List Byte) : List Sym := text.map fun c => (lookup (normalise c)).idx

/-- The bytes of a text as R169 gives them: the whole 8-bit groups of the index bits. -/
def bytesOf (text : List Byte) : List Byte :=
  (List.range (5 * text.length / 8)).map fun j => BitVec.ofNat 8 (bitsValue (bitGroup (bits5 (indicesOf text)) 8 j))

/-- The first normalised character of a text that is no entry of `ALPHA` (R169). -/
def firstBad (text : List Byte) : Option Byte := (text.map normalise).find? fun n => !(lookup n).valid

/-- The verdict on a text as R169 gives it. -/
def verdictOf (text : List Byte) : Verdict :=
  if (firstBad text).isSome then .invChar
  else if text.length ≤ 5 then .invLen
  else if (text.map normalise).head? = some sentinel then .ok
  else .invPfx

/-- Unit ENC has taken in exactly these bytes since `ENC.START` (R126). -/
structure EncTook (bytes : List Byte) (e : EncUnit) : Prop where
  phase : e.phase = .run
  icnt : e.icnt = bytes.length
  olen : e.olen = 8 * bytes.length / 5
  bits : e.bits.toNat = 8 * bytes.length % 5
  symbols : ∀ k, k < e.olen →
    Memory.read e.eout k = some (alpha (BitVec.ofNat 5 (bitsValue (bitGroup (bits8 bytes) 5 k))))
  acc : e.acc.toNat = bitsValue ((bits8 bytes).drop (5 * e.olen))

/-- Unit DEC has taken in exactly these characters since `DEC.START`, all of them valid (R162). -/
structure DecTook (text : List Byte) (d : DecUnit) : Prop where
  phase : d.phase = .run
  badchar : d.badchar = false
  errchar : d.errchar = 0
  status : d.status = .none
  cnt : d.cnt = text.length
  widx : d.widx = 5 * text.length / 8
  bits : d.bits.toNat = 5 * text.length % 8
  bytes : ∀ j, j < d.widx →
    Memory.read d.dout j = some (BitVec.ofNat 8 (bitsValue (bitGroup (bits5 (indicesOf text)) 8 j)))
  acc : d.acc.toNat = bitsValue ((bits5 (indicesOf text)).drop (8 * d.widx))
  pfxok : d.pfxok = true ↔ (text.map normalise).head? = some sentinel

/-- D0's encoder loop on an integer accumulator that is never masked (R25, R120): the symbols extracted and the count left.
`fuel` bounds the number of turns. -/
def d0Symbols : Nat → Nat → Nat → List Byte × Nat
  | 0, _, n => ([], n)
  | fuel + 1, acc, n =>
    if n < 5 then ([], n)
    else
      let rest := d0Symbols fuel acc (n - 5)
      (alpha (BitVec.ofNat 5 ((acc >>> (n - 5)) % 32)) :: rest.1, rest.2)

/-- D0's encoder after some bytes: the integer accumulator, the bit count, the output. -/
structure D0Enc where
  acc : Nat
  count : Nat
  out : List Byte
deriving DecidableEq, Repr

/-- One byte of D0's encoder (R120): shift left by 8, or in, count 8, extract while 5 or more bits are there. -/
def d0EncByte (st : D0Enc) (b : Byte) : D0Enc :=
  let acc := st.acc <<< 8 ||| b.toNat
  let r := d0Symbols (st.count + 8) acc (st.count + 8)
  { acc := acc, count := r.2, out := st.out ++ r.1 }

/-- D0's `encode(bytes)`, step by step (R120). -/
def d0Encode (bytes : List Byte) : List Byte :=
  let st := bytes.foldl d0EncByte { acc := 0, count := 0, out := [] }
  if st.count = 0 then st.out
  else st.out ++ [alpha (BitVec.ofNat 5 ((st.acc <<< (5 - st.count)) % 32))]

/-- D0's decoder after some indices: the integer accumulator, the bit count, the output. -/
structure D0Dec where
  acc : Nat
  count : Nat
  out : List Byte
deriving DecidableEq, Repr

/-- One index of D0's decoder (R150, R158): shift left by 5, or in, count 5, extract a byte when 8 bits are there; the
accumulator is never masked. -/
def d0DecSym (st : D0Dec) (i : Sym) : D0Dec :=
  let acc := st.acc <<< 5 ||| i.toNat
  if 8 ≤ st.count + 5 then
    { acc := acc, count := st.count + 5 - 8, out := st.out ++ [BitVec.ofNat 8 ((acc >>> (st.count + 5 - 8)) % 256)] }
  else { acc := acc, count := st.count + 5, out := st.out }

/-- What D0's `decode(text)` answers (R45: its tagged union). -/
inductive D0Result where
  | ok (bytes : List Byte)
  | invChar (offending : Byte)
  | invLen
  | invPfx
deriving DecidableEq, Repr

/-- D0's `decode(text)` in its three stages (R150, R173): normalise the whole text, then validate in order, then run the
accumulator over every character. -/
def d0Decode (text : List Byte) : D0Result :=
  let normal := text.map normalise
  match normal.find? fun n => !(lookup n).valid with
  | some n => .invChar n
  | none =>
    if normal.length ≤ 5 then .invLen
    else if normal.head? ≠ some sentinel then .invPfx
    else .ok ((normal.map fun n => (lookup n).idx).foldl d0DecSym { acc := 0, count := 0, out := [] }).out

/-- The result of a completed decode call, as D0's tagged union (R217, R166). -/
def decodeResult (s : State) : Option D0Result :=
  if decodeComplete s = true then
    match s.dec.status with
    | .none => none
    | .ok => some (.ok (window .dout s))
    | .invChar => some (.invChar s.dec.errchar)
    | .invLen => some .invLen
    | .invPfx => some .invPfx
  else none

end Sys2Proof.Machine
end

