-- ==== Sys2Proof/Certificates/Slice0/Obligations.lean ====
section
/-!
DEFINITION. The statements for the provers. Each docstring names the rule of spec/ it formalises. Rules that the spec marks
`[derived: ...]` or `[from general knowledge]` are its own inferences; a statement on one of them says so and has basis
'derived'. Decisions of the spec (D1 to D30, 92_eei_decisions.md) are numbered rules and are cited as such.
Premises: `s.Inv` is the invariant of command boundaries, itself stated in `ResetStateMeetsTheInvariant` and
`EveryStepKeepsTheInvariant`; it rules out only states that no run reaches.
-/

open Sys2Proof Sys2Proof.Machine

/-! ## Encoding -/

/-- Every command is well formed and is what its word decodes to (30_encoding.md R91, R92, R94). -/
def Obligations.EveryCommandDecodesFromItsWord : Prop :=
  ∀ i : Instr, instrWellFormed i = true ∧ decode (encode i) = .instr i

/-- A word that decodes to a command is that command's one word (R91, R94, R99). -/
def Obligations.EveryDecodedWordIsItsCommandsWord : Prop :=
  ∀ (w : CmdWord) (i : Instr), decode w = .instr i → encode i = w

/-- R94: each command by match and mask on the 12-bit word, its operand the low byte; the patterns are disjoint (a word
decodes to one thing), and a word that matches none is reserved. -/
def Obligations.DecodeFollowsMatchAndMask : Prop :=
  ∀ w : CmdWord,
    (decode w = .instr .encStart ↔ w &&& 0xFFF#12 = 0x100#12) ∧
    (∀ b, decode w = .instr (.encPush b) ↔ w &&& 0xF00#12 = 0x200#12 ∧ b = w.extractLsb' 0 8) ∧
    (decode w = .instr .encFlush ↔ w &&& 0xFFF#12 = 0x300#12) ∧
    (decode w = .instr .decStart ↔ w &&& 0xFFF#12 = 0x500#12) ∧
    (∀ c, decode w = .instr (.decPush c) ↔ w &&& 0xF00#12 = 0x600#12 ∧ c = w.extractLsb' 0 8) ∧
    (decode w = .instr .decEnd ↔ w &&& 0xFFF#12 = 0x700#12) ∧
    ((∃ r, decode w = .reserved r) ↔
      w &&& 0xFFF#12 ≠ 0x100#12 ∧ w &&& 0xF00#12 ≠ 0x200#12 ∧ w &&& 0xFFF#12 ≠ 0x300#12 ∧
      w &&& 0xFFF#12 ≠ 0x500#12 ∧ w &&& 0xF00#12 ≠ 0x600#12 ∧ w &&& 0xFFF#12 ≠ 0x700#12)

/-- R98: the reserved words are those with bit 11 set, those with `fn = 0`, and those with opcode 1, 3, 5 or 7 and non-zero
data; there are 3580; each raises IllegalCommand (R95 step 2). -/
def Obligations.ReservedWordsAreTheThreeClasses : Prop :=
  (∀ w : CmdWord, (∃ r, decode w = .reserved r) ↔
    w.getLsbD 11 = true ∨ w.extractLsb' 8 2 = 0#2 ∨
    ((w.extractLsb' 8 4 = 1#4 ∨ w.extractLsb' 8 4 = 3#4 ∨ w.extractLsb' 8 4 = 5#4 ∨ w.extractLsb' 8 4 = 7#4) ∧
      w.extractLsb' 0 8 ≠ 0x00#8)) ∧
  ((List.range 4096).countP fun n =>
    match decode (BitVec.ofNat 12 n) with
    | .reserved _ => true
    | .instr _ => false) = 3580 ∧
  (∀ (s : State) (w : CmdWord) (rest : List HostAct), s.port = .word w :: rest → s.illcmd = false →
    (∃ r, decode w = .reserved r) → step s = .next { s with illcmd := true, port := rest })

/-- Words written out from R91 and R94, the vectors V-C1 to V-C10 of 95_test_vectors.md. -/
def Obligations.WrittenOutWordsDecode : Prop :=
  decode 0b000100000000#12 = .instr .encStart ∧
  decode 0b001011111111#12 = .instr (.encPush 0xFF) ∧
  decode 0b001100000000#12 = .instr .encFlush ∧
  decode 0b010100000000#12 = .instr .decStart ∧
  decode 0b011001010011#12 = .instr (.decPush 0x53) ∧
  decode 0b011100000000#12 = .instr .decEnd ∧
  decode 0x000#12 = .reserved .fnZero ∧
  decode 0x4AB#12 = .reserved .fnZero ∧
  decode 0x780#12 = .reserved .dataNotZero ∧
  decode 0xA53#12 = .reserved .bit11Set

/-- R32, which the spec derives from the alphabet order of R31 (general knowledge G1, log entry 7): the entries of `ALPHA` are
distinct; no `I`, `L`, `O`, `U` and no lower-case letter is one; `S` is entry 25, `0` entry 0, `1` entry 1. -/
def Obligations.AlphabetEntriesAreDistinct : Prop :=
  (∀ i j : Sym, alpha i = alpha j → i = j) ∧
  (∀ i : Sym, alpha i ≠ 0x49#8 ∧ alpha i ≠ 0x4C#8 ∧ alpha i ≠ 0x4F#8 ∧ alpha i ≠ 0x55#8 ∧ alpha i < 0x61#8) ∧
  alpha 25 = 0x53#8 ∧ alpha 0 = 0x30#8 ∧ alpha 1 = 0x31#8

/-- R33: `REV[c]` is `(1, i)` when `ALPHA[i] = c` and `(0, 0)` for the 224 codes that are no entry; the valid codes are the
listed ranges (on the alphabet order of R31, log entry 7). R34: the tables are inverse. -/
def Obligations.ReverseTableInvertsTheAlphabet : Prop :=
  (∀ i : Sym, rev (alpha i) = { valid := true, idx := i }) ∧
  (∀ c : Byte, (rev c).valid = true → alpha (rev c).idx = c) ∧
  (∀ c : Byte, (rev c).valid = false → rev c = { valid := false, idx := 0 }) ∧
  ((List.range 256).countP fun n => (rev (BitVec.ofNat 8 n)).valid) = 32 ∧
  (∀ c : Byte, (rev c).valid = true ↔
    (0x30 ≤ c.toNat ∧ c.toNat ≤ 0x39) ∨ (0x41 ≤ c.toNat ∧ c.toNat ≤ 0x48) ∨ c.toNat = 0x4A ∨ c.toNat = 0x4B ∨
    c.toNat = 0x4D ∨ c.toNat = 0x4E ∨ (0x50 ≤ c.toNat ∧ c.toNat ≤ 0x54) ∨ (0x56 ≤ c.toNat ∧ c.toNat ≤ 0x5A))

/-- R152: `norm` by its pseudocode on numbers, the 29 codes it changes, and that `DEC.PUSH` applies it to its operand before
anything else: a code and its normal form are the same operand. -/
def Obligations.NormFoldsCaseAndConfusables : Prop :=
  (∀ c : Byte, (normalise c).toNat =
    let u := if 0x61 ≤ c.toNat ∧ c.toNat ≤ 0x7A then c.toNat - 0x20 else c.toNat
    if u = 0x4F then 0x30 else if u = 0x49 ∨ u = 0x4C then 0x31 else u) ∧
  (∀ c : Byte, normalise c ≠ c ↔
    c = 0x49#8 ∨ c = 0x4C#8 ∨ c = 0x4F#8 ∨ (0x61 ≤ c.toNat ∧ c.toNat ≤ 0x7A)) ∧
  ((List.range 256).countP fun n => normalise (BitVec.ofNat 8 n) != BitVec.ofNat 8 n) = 29 ∧
  (∀ (s : State) (c : Byte), exec (.decPush c) s = exec (.decPush (normalise c)) s)

/-- R153, which the spec derives: `norm` is idempotent, fixes the alphabet, gives the sentinel for `S` and `s` only, and gives
an entry of the alphabet for exactly 60 codes. -/
def Obligations.NormIsIdempotentAndFixesTheAlphabet : Prop :=
  (∀ c : Byte, normalise (normalise c) = normalise c) ∧
  (∀ i : Sym, normalise (alpha i) = alpha i) ∧
  (∀ c : Byte, normalise c = 0x53#8 ↔ c = 0x53#8 ∨ c = 0x73#8) ∧
  ((List.range 256).countP fun n => (lookup (normalise (BitVec.ofNat 8 n))).valid) = 60

/-- The codes of the phase (R40), the verdict (R45) and the fault cause (R49) as the host reads them (R51). -/
def Obligations.HostReadsTheNumberedCodes : Prop :=
  ∀ s : State,
    (s.observe.ePhase = 0 ↔ s.enc.phase = .idle) ∧ (s.observe.ePhase = 1 ↔ s.enc.phase = .run) ∧
    (s.observe.ePhase = 2 ↔ s.enc.phase = .done) ∧ s.observe.ePhase ≠ 3 ∧
    (s.observe.dPhase = 0 ↔ s.dec.phase = .idle) ∧ (s.observe.dPhase = 1 ↔ s.dec.phase = .run) ∧
    (s.observe.dPhase = 2 ↔ s.dec.phase = .done) ∧ s.observe.dPhase ≠ 3 ∧
    (s.observe.dStatus = 0 ↔ s.dec.status = .none) ∧ (s.observe.dStatus = 1 ↔ s.dec.status = .ok) ∧
    (s.observe.dStatus = 2 ↔ s.dec.status = .invChar) ∧ (s.observe.dStatus = 3 ↔ s.dec.status = .invLen) ∧
    (s.observe.dStatus = 4 ↔ s.dec.status = .invPfx) ∧
    (s.observe.eFcause = 0 ↔ s.enc.fcause = .none) ∧ (s.observe.eFcause = 1 ↔ s.enc.fcause = .seq) ∧
    (s.observe.eFcause = 2 ↔ s.enc.fcause = .ovf) ∧
    (s.observe.dFcause = 0 ↔ s.dec.fcause = .none) ∧ (s.observe.dFcause = 1 ↔ s.dec.fcause = .seq) ∧
    (s.observe.dFcause = 2 ↔ s.dec.fcause = .ovf)

/-! ## The step -/

/-- A step takes the host's next act: nothing issued, nothing changes (R241); a command word runs the command it decodes to
in the state without that act (R72, R95). The port is the model's own field (log entry 2). -/
def Obligations.StepTakesTheHostsNextAct : Prop :=
  ∀ s : State,
    (s.port = [] → step s = .next s) ∧
    (∀ (w : CmdWord) (rest : List HostAct) (i : Instr), s.port = .word w :: rest → decode w = .instr i →
      step s = exec i { s with port := rest })

/-- The word that the table's row gives, issued next, is the command the next step runs (log entries 2 and 12). -/
def Obligations.IssuedTableWordRunsNext : Prop :=
  ∀ (s : State) (nbits w : Nat) (i : Instr), decodeTableWord nbits w = some i →
    step (s.withFetchWord nbits w) = exec i s

/-- R95: the step is total on every word and makes the six tests in this order. -/
def Obligations.StepMakesTheTestsInOrder : Prop :=
  ∀ (s : State) (w : CmdWord) (rest : List HostAct), s.Inv → s.port = .word w :: rest →
    (s.illcmd = true → step s = .next { s with port := rest }) ∧
    (s.illcmd = false → (∃ r, decode w = .reserved r) → step s = .next { s with illcmd := true, port := rest }) ∧
    (∀ i : Instr, s.illcmd = false → decode w = .instr i →
      (i.unit = if w.getLsbD 10 then .dec else .enc) ∧
      (unitFault i.unit s = true → step s = .next { s with port := rest }) ∧
      (unitFault i.unit s = false → isStart i = false → unitPhase i.unit s ≠ .run →
        step s = .next (raiseUnitFault i.unit .seq { s with port := rest })) ∧
      (unitFault i.unit s = false → unitPhase i.unit s = .run → pushIsFull i s →
        step s = .next (raiseUnitFault i.unit .ovf { s with port := rest })) ∧
      (unitFault i.unit s = false → (isStart i = true ∨ unitPhase i.unit s = .run) → ¬pushIsFull i s →
        ∃ t, step s = .next t ∧ ExecutedBy i { s with port := rest } t))

/-- R72: words issued together run one after the other, each seeing every effect of the one before, and leave the port at
the acts that follow them. -/
def Obligations.IssuedWordsRunInOrder : Prop :=
  ∀ (is : List Instr) (s t : State) (rest : List HostAct), execAll is s = .next t →
    Host.Core.run Sys2Proof.core is.length { s with port := (is.map fun i => HostAct.word (encode i)) ++ rest } =
      .next { t with port := rest }

/-! ## Reset and the invariant -/

/-- The "after reset" column of table T1 (10_state.md R55; 70_reset_and_hazards.md R240, R241), from every state and at the
start; both windows are empty. The limits and the acts to come are no state of the block (log entries 1 and 2). -/
def Obligations.ResetGivesTableT1 : Prop :=
  ∀ (s : State) (rest : List HostAct), s.port = .reset :: rest →
    ∃ t, step s = .next t ∧ t.illcmd = false ∧
      t.enc.phase = .idle ∧ t.enc.acc = 0 ∧ t.enc.bits = 0 ∧ t.enc.icnt = 0 ∧ t.enc.olen = 0 ∧
      t.enc.fault = false ∧ t.enc.fcause = .none ∧
      t.dec.phase = .idle ∧ t.dec.acc = 0 ∧ t.dec.bits = 0 ∧ t.dec.cnt = 0 ∧ t.dec.widx = 0 ∧
      t.dec.badchar = false ∧ t.dec.pfxok = false ∧ t.dec.errchar = 0x00#8 ∧ t.dec.status = .none ∧ t.dec.olen = 0 ∧
      t.dec.fault = false ∧ t.dec.fcause = .none ∧
      (∀ sel k, readPort sel k t = none) ∧
      t.limits = s.limits ∧ t.port = rest ∧ t = { State.resetWith s.limits with port := rest }

/-- The invariant of command boundaries holds after reset, whatever the limits (R21 to R29, R55). -/
def Obligations.ResetStateMeetsTheInvariant : Prop :=
  (∀ lim : Limits, (State.resetWith lim).Inv) ∧ State.reset.Inv

/-- Every step keeps the invariant of command boundaries: live bits, counts and buffers agree, the buffers stay in canonical
form and inside their capacity, the verdict follows from the flags, a cause stands exactly while its fault does
(R21 to R24, R28, R29, R36 to R38, R45, R46, R49, R70, R126 (i), R132, R162 (i)). -/
def Obligations.EveryStepKeepsTheInvariant : Prop :=
  ∀ s t : State, s.Inv → step s = .next t → t.Inv

/-- From a command boundary no step stops: every word, known or reserved, gives a next state (R95 "total", R253 "Every
command ends"). -/
def Obligations.NoStepStops : Prop :=
  ∀ s : State, s.Inv → ∃ t, step s = .next t

/-- R70, which the spec derives: no command writes past a buffer's end; the write indices stay inside the capacities. -/
def Obligations.NoCommandWritesPastABuffersEnd : Prop :=
  ∀ (s : State) (i : Instr), s.Inv → ∃ t, exec i s = .next t ∧
    t.enc.olen ≤ (8 * t.enc.icnt + 4) / 5 ∧ t.dec.widx ≤ 5 * t.dec.cnt / 8 ∧
    (∀ n, s.limits.maxBy = some n → (8 * t.enc.icnt + 4) / 5 ≤ (8 * n + 4) / 5 ∧
      ∀ cell ∈ t.enc.eout, cell.1 < (8 * n + 4) / 5) ∧
    (∀ n, s.limits.maxCh = some n → 5 * t.dec.cnt / 8 ≤ 5 * n / 8 ∧ ∀ cell ∈ t.dec.dout, cell.1 < 5 * n / 8)

/-! ## The encoder's commands -/

/-- R121, the whole rule of `ENC.START`: its word, its effect in every phase with the window emptied and nothing else
changed, and that a frozen unit or block ignores it. -/
def Obligations.EncStartOpensACall : Prop :=
  encode .encStart = 0x100#12 ∧
  (∀ w : CmdWord, w.extractLsb' 8 4 = 1#4 → w.extractLsb' 0 8 ≠ 0x00#8 → ∃ r, decode w = .reserved r) ∧
  ∀ s : State,
    (s.illcmd = false → s.enc.fault = false →
      exec .encStart s =
        .next { s with enc := { s.enc with acc := 0, bits := 0, icnt := 0, olen := 0, phase := .run } } ∧
      ∀ k, readPort .eout k { s with enc := { s.enc with acc := 0, bits := 0, icnt := 0, olen := 0, phase := .run } } =
        none) ∧
    (s.illcmd = true ∨ s.enc.fault = true → exec .encStart s = .next s)

/-- R122, the whole rule of `ENC.PUSH b`. With `n = E.BITS + 8` live bits after the shift-in and `v` their value, the command
writes one symbol when `n < 10` and two otherwise, each the top five of the bits still live, and keeps the rest; no other
element and no other register changes. Outside RUN it raises SEQ, at the limit OVF, and takes nothing in. -/
def Obligations.EncPushTakesAByteIn : Prop :=
  ∀ (s : State) (b : Byte),
    encode (.encPush b) = 0x200#12 ||| b.setWidth 12 ∧
    (s.Inv → s.illcmd = false → s.enc.fault = false → s.enc.phase = .run → s.limits.maxBy ≠ some s.enc.icnt →
      let n := s.enc.bits.toNat + 8
      let v := s.enc.acc.toNat * 256 + b.toNat
      let m := if n < 10 then 1 else 2
      ∃ mem : Memory,
        exec (.encPush b) s = .next { s with enc := { s.enc with
          acc := BitVec.ofNat 12 (v % 2 ^ (n - 5 * m)), bits := BitVec.ofNat 4 (n - 5 * m)
          icnt := s.enc.icnt + 1, olen := s.enc.olen + m, eout := mem } } ∧
        (∀ j, j < m → Memory.read mem (s.enc.olen + j) =
          some (alpha (BitVec.ofNat 5 (v / 2 ^ (n - 5 * (j + 1)) % 32)))) ∧
        (∀ a, a < s.enc.olen ∨ s.enc.olen + m ≤ a → Memory.read mem a = Memory.read s.enc.eout a)) ∧
    (s.illcmd = false → s.enc.fault = false → s.enc.phase ≠ .run →
      exec (.encPush b) s = .next { s with enc := { s.enc with fault := true, fcause := .seq } }) ∧
    (s.illcmd = false → s.enc.fault = false → s.enc.phase = .run → s.limits.maxBy = some s.enc.icnt →
      exec (.encPush b) s = .next { s with enc := { s.enc with fault := true, fcause := .ovf } }) ∧
    (s.illcmd = true ∨ s.enc.fault = true → exec (.encPush b) s = .next s)

/-- R123, which the spec derives: the table of symbols written and bits left by `E.BITS`; five bytes from 0 bits give eight
symbols and 0 bits again. -/
def Obligations.EncPushSymbolCounts : Prop :=
  (∀ (s : State) (b : Byte), s.Inv → s.illcmd = false → s.enc.fault = false → s.enc.phase = .run →
    s.limits.maxBy ≠ some s.enc.icnt →
    ∃ t, exec (.encPush b) s = .next t ∧
      (s.enc.bits = 0 → t.enc.olen = s.enc.olen + 1 ∧ t.enc.bits = 3) ∧
      (s.enc.bits = 1 → t.enc.olen = s.enc.olen + 1 ∧ t.enc.bits = 4) ∧
      (s.enc.bits = 2 → t.enc.olen = s.enc.olen + 2 ∧ t.enc.bits = 0) ∧
      (s.enc.bits = 3 → t.enc.olen = s.enc.olen + 2 ∧ t.enc.bits = 1) ∧
      (s.enc.bits = 4 → t.enc.olen = s.enc.olen + 2 ∧ t.enc.bits = 2)) ∧
  (∀ (s : State) (b0 b1 b2 b3 b4 : Byte), s.Inv → s.illcmd = false → s.enc.fault = false → s.enc.phase = .run →
    withinLimit s.limits.maxBy (s.enc.icnt + 5) = true → s.enc.bits = 0 →
    ∃ t, execAll [.encPush b0, .encPush b1, .encPush b2, .encPush b3, .encPush b4] s = .next t ∧
      t.enc.olen = s.enc.olen + 8 ∧ t.enc.bits = 0)

/-- R128, the whole rule of `ENC.FLUSH`: with live bits it writes one symbol, those bits and then zeros; without it writes
nothing; the call is closed. Outside RUN (so also a second time) it raises SEQ. -/
def Obligations.EncFlushClosesTheCall : Prop :=
  encode .encFlush = 0x300#12 ∧
  (∀ w : CmdWord, w.extractLsb' 8 4 = 3#4 → w.extractLsb' 0 8 ≠ 0x00#8 → ∃ r, decode w = .reserved r) ∧
  ∀ s : State,
    (s.illcmd = false → s.enc.fault = false → s.enc.phase = .run → s.enc.bits = 0 →
      exec .encFlush s = .next { s with enc := { s.enc with acc := 0, bits := 0, phase := .done } }) ∧
    (s.Inv → s.illcmd = false → s.enc.fault = false → s.enc.phase = .run → s.enc.bits ≠ 0 →
      ∃ mem : Memory,
        exec .encFlush s = .next { s with enc := { s.enc with
          acc := 0, bits := 0, phase := .done, olen := s.enc.olen + 1, eout := mem } } ∧
        Memory.read mem s.enc.olen =
          some (alpha (BitVec.ofNat 5 (s.enc.acc.toNat * 2 ^ (5 - s.enc.bits.toNat)))) ∧
        (∀ a, a ≠ s.enc.olen → Memory.read mem a = Memory.read s.enc.eout a)) ∧
    (s.illcmd = false → s.enc.fault = false → s.enc.phase ≠ .run →
      exec .encFlush s = .next { s with enc := { s.enc with fault := true, fcause := .seq } }) ∧
    (s.illcmd = true ∨ s.enc.fault = true → exec .encFlush s = .next s)

/-- R131 and R208: whether and how `ENC.PUSH` faults, and how many symbols and bits it leaves, depends on no byte's value. -/
def Obligations.EncoderFaultsDependOnNoByte : Prop :=
  ∀ (s t : State) (b b' : Byte), exec (.encPush b) s = .next t →
    ∃ t', exec (.encPush b') s = .next t' ∧
      t'.enc.fault = t.enc.fault ∧ t'.enc.fcause = t.enc.fcause ∧ t'.enc.phase = t.enc.phase ∧
      t'.enc.bits = t.enc.bits ∧ t'.enc.icnt = t.enc.icnt ∧ t'.enc.olen = t.enc.olen

/-! ## The decoder's commands -/

/-- R155, the whole rule of `DEC.START`: its word, the ten registers it writes in every phase, the window closed, nothing else
changed, and that a frozen unit or block ignores it. -/
def Obligations.DecStartOpensACall : Prop :=
  encode .decStart = 0x500#12 ∧
  (∀ w : CmdWord, w.extractLsb' 8 4 = 5#4 → w.extractLsb' 0 8 ≠ 0x00#8 → ∃ r, decode w = .reserved r) ∧
  ∀ s : State,
    (s.illcmd = false → s.dec.fault = false →
      ∃ t, exec .decStart s = .next t ∧
        t = { s with dec := { s.dec with
          acc := 0, bits := 0, cnt := 0, widx := 0, badchar := false, pfxok := false, errchar := 0x00#8
          status := .none, olen := 0, phase := .run } } ∧
        ∀ k, readPort .dout k t = none) ∧
    (s.illcmd = true ∨ s.dec.fault = true → exec .decStart s = .next s)

/-- R158, the whole rule of `DEC.PUSH c`. `n` is the normalised code. An invalid code sets `D.BADCHAR`, records itself if it is
the first, and runs no datapath; a valid code after a bad one only counts; a valid code while all were valid shifts its index
in below the live bits (value `v`, count `k`) and, when `k >= 8`, writes the top eight as a byte. `D.PFXOK` is written by the
first character only. Outside RUN the command raises SEQ, at the limit OVF, and takes nothing in. -/
def Obligations.DecPushTakesACharacterIn : Prop :=
  ∀ (s : State) (c : Byte),
    encode (.decPush c) = 0x600#12 ||| c.setWidth 12 ∧
    (s.illcmd = false → s.dec.fault = false → s.dec.phase = .run → s.limits.maxCh ≠ some s.dec.cnt →
      let n := normalise c
      let pfx := if s.dec.cnt = 0 then decide (n = 0x53#8) else s.dec.pfxok
      ((rev n).valid = false →
        exec (.decPush c) s = .next { s with dec := { s.dec with
          pfxok := pfx, badchar := true, errchar := if s.dec.badchar then s.dec.errchar else n
          cnt := s.dec.cnt + 1 } }) ∧
      ((rev n).valid = true → s.dec.badchar = true →
        exec (.decPush c) s = .next { s with dec := { s.dec with pfxok := pfx, cnt := s.dec.cnt + 1 } }) ∧
      (s.Inv → (rev n).valid = true → s.dec.badchar = false →
        let k := s.dec.bits.toNat + 5
        let v := s.dec.acc.toNat * 32 + (rev n).idx.toNat
        let m := if k < 8 then 0 else 1
        ∃ mem : Memory,
          exec (.decPush c) s = .next { s with dec := { s.dec with
            acc := BitVec.ofNat 12 (v % 2 ^ (k - 8 * m)), bits := BitVec.ofNat 4 (k - 8 * m)
            pfxok := pfx, cnt := s.dec.cnt + 1, widx := s.dec.widx + m, dout := mem } } ∧
          (m = 1 → Memory.read mem s.dec.widx = some (BitVec.ofNat 8 (v / 2 ^ (k - 8) % 256))) ∧
          (∀ a, a < s.dec.widx ∨ s.dec.widx + m ≤ a → Memory.read mem a = Memory.read s.dec.dout a))) ∧
    (s.illcmd = false → s.dec.fault = false → s.dec.phase ≠ .run →
      exec (.decPush c) s = .next { s with dec := { s.dec with fault := true, fcause := .seq } }) ∧
    (s.illcmd = false → s.dec.fault = false → s.dec.phase = .run → s.limits.maxCh = some s.dec.cnt →
      exec (.decPush c) s = .next { s with dec := { s.dec with fault := true, fcause := .ovf } }) ∧
    (s.illcmd = true ∨ s.dec.fault = true → exec (.decPush c) s = .next s)

/-- R159, which the spec derives: the table of bytes written and bits left by `D.BITS`; eight valid characters from 0 bits give
five bytes and 0 bits again. -/
def Obligations.DecPushByteCounts : Prop :=
  (∀ (s : State) (c : Byte), s.Inv → s.illcmd = false → s.dec.fault = false → s.dec.phase = .run →
    s.limits.maxCh ≠ some s.dec.cnt → s.dec.badchar = false → (lookup (normalise c)).valid = true →
    ∃ t, exec (.decPush c) s = .next t ∧
      (s.dec.bits = 0 → t.dec.widx = s.dec.widx ∧ t.dec.bits = 5) ∧
      (s.dec.bits = 1 → t.dec.widx = s.dec.widx ∧ t.dec.bits = 6) ∧
      (s.dec.bits = 2 → t.dec.widx = s.dec.widx ∧ t.dec.bits = 7) ∧
      (s.dec.bits = 3 → t.dec.widx = s.dec.widx + 1 ∧ t.dec.bits = 0) ∧
      (s.dec.bits = 4 → t.dec.widx = s.dec.widx + 1 ∧ t.dec.bits = 1) ∧
      (s.dec.bits = 5 → t.dec.widx = s.dec.widx + 1 ∧ t.dec.bits = 2) ∧
      (s.dec.bits = 6 → t.dec.widx = s.dec.widx + 1 ∧ t.dec.bits = 3) ∧
      (s.dec.bits = 7 → t.dec.widx = s.dec.widx + 1 ∧ t.dec.bits = 4)) ∧
  (∀ (s : State) (text : List Byte), s.Inv → s.illcmd = false → s.dec.fault = false → s.dec.phase = .run →
    withinLimit s.limits.maxCh (s.dec.cnt + 8) = true → s.dec.badchar = false → s.dec.bits = 0 →
    text.length = 8 → (∀ c ∈ text, (lookup (normalise c)).valid = true) →
    ∃ t, execAll (text.map Instr.decPush) s = .next t ∧ t.dec.widx = s.dec.widx + 5 ∧ t.dec.bits = 0)

/-- R160: once `D.BADCHAR = 1` every further `DEC.PUSH` of the call, whatever its character, only counts; the verdict will be
INVCHAR with the recorded character, and the window stays closed. -/
def Obligations.AfterABadCharacterOnlyTheCountMoves : Prop :=
  ∀ s : State, s.Inv → s.illcmd = false → s.dec.fault = false → s.dec.phase = .run → s.dec.badchar = true →
    (∀ c : Byte, s.limits.maxCh ≠ some s.dec.cnt →
      exec (.decPush c) s = .next { s with dec := { s.dec with cnt := s.dec.cnt + 1 } }) ∧
    (∀ text : List Byte, withinLimit s.limits.maxCh (s.dec.cnt + text.length) = true →
      ∃ t, execAll (text.map Instr.decPush ++ [.decEnd]) s = .next t ∧
        t.dec.status = .invChar ∧ t.dec.errchar = s.dec.errchar ∧ t.dec.cnt = s.dec.cnt + text.length ∧
        ∀ k, readPort .dout k t = none)

/-- R165, the whole rule of `DEC.END`: the verdict in D0's order, the published length, the left-over bits dropped whatever
they are; the counts, the flags and the recorded character stand. Outside RUN it raises SEQ. -/
def Obligations.DecEndGivesTheVerdict : Prop :=
  encode .decEnd = 0x700#12 ∧
  (∀ w : CmdWord, w.extractLsb' 8 4 = 7#4 → w.extractLsb' 0 8 ≠ 0x00#8 → ∃ r, decode w = .reserved r) ∧
  ∀ s : State,
    (s.illcmd = false → s.dec.fault = false → s.dec.phase = .run →
      exec .decEnd s = .next { s with dec := { s.dec with
        status := if s.dec.badchar then .invChar else if s.dec.cnt ≤ 5 then .invLen
          else if s.dec.pfxok then .ok else .invPfx
        olen := if s.dec.badchar = false ∧ 5 < s.dec.cnt ∧ s.dec.pfxok = true then s.dec.cnt * 5 / 8 else 0
        acc := 0, bits := 0, phase := .done } }) ∧
    (s.Inv → s.dec.phase = .run → s.dec.badchar = false → s.dec.cnt * 5 / 8 = s.dec.widx) ∧
    (s.illcmd = false → s.dec.fault = false → s.dec.phase ≠ .run →
      exec .decEnd s = .next { s with dec := { s.dec with fault := true, fcause := .seq } }) ∧
    (s.illcmd = true ∨ s.dec.fault = true → exec .decEnd s = .next s)

/-- R168, which the spec derives: when `DEC.END` gives OK the published length is the number of bytes written, and every one of
them is then readable as it was written. -/
def Obligations.PublishedLengthIsTheBytesWritten : Prop :=
  ∀ s t : State, s.Inv → s.illcmd = false → s.dec.fault = false → exec .decEnd s = .next t → t.dec.status = .ok →
    s.dec.phase = .run →
    t.dec.olen = s.dec.widx ∧ s.dec.widx = 5 * s.dec.cnt / 8 ∧
    ∀ k, k < s.dec.widx → ∃ x, Memory.read s.dec.dout k = some x ∧ readPort .dout k t = some x

/-! ## Usage faults, phases, isolation -/

/-- R204: a reserved word sets `ILLCMD` and changes nothing else; from then on every word leaves the state unchanged. -/
def Obligations.IllegalCommandFreezesTheBlock : Prop :=
  (∀ (s : State) (w : CmdWord) (rest : List HostAct), s.port = .word w :: rest → s.illcmd = false →
    (∃ r, decode w = .reserved r) → step s = .next { s with illcmd := true, port := rest }) ∧
  (∀ (s : State) (words : List CmdWord) (rest : List HostAct), s.illcmd = true →
    Host.Core.run Sys2Proof.core words.length { s with port := words.map HostAct.word ++ rest } =
      .next { s with port := rest })

/-- R205: a usage fault of a unit sets `U.FAULT` and `U.FCAUSE` and changes nothing else; a faulted unit ignores every command,
START included; the other unit works on as if there were no fault. -/
def Obligations.UnitFaultFreezesItsUnitAlone : Prop :=
  ∀ (i : Instr) (s : State),
    (unitFault i.unit s = true → exec i s = .next s) ∧
    (∀ t, exec i s = .next t → unitFault i.unit s = false → unitFault i.unit t = true →
      (i.unit = .enc → t = { s with enc := { s.enc with fault := true, fcause := t.enc.fcause } }) ∧
      (i.unit = .dec → t = { s with dec := { s.dec with fault := true, fcause := t.dec.fcause } }) ∧
      (unitCause i.unit t = .seq ∨ unitCause i.unit t = .ovf)) ∧
    (∀ (u : UnitSel) (c : FCause) (t : State), i.unit ≠ u → exec i s = .next t →
      exec i (raiseUnitFault u c s) = .next (raiseUnitFault u c t))

/-- R206: a PUSH, FLUSH or END outside an open call raises SEQ, and nothing else changes. -/
def Obligations.CommandOutsideACallRaisesSeq : Prop :=
  ∀ (s : State) (i : Instr), isStart i = false → s.illcmd = false → unitFault i.unit s = false →
    unitPhase i.unit s = .idle ∨ unitPhase i.unit s = .done →
    (i.unit = .enc → exec i s = .next { s with enc := { s.enc with fault := true, fcause := .seq } }) ∧
    (i.unit = .dec → exec i s = .next { s with dec := { s.dec with fault := true, fcause := .seq } })

/-- R207: one element more than the limit raises OVF, and nothing else changes; with an unbounded limit it cannot occur. -/
def Obligations.PushBeyondTheLimitRaisesOvf : Prop :=
  (∀ (s : State) (b : Byte), s.illcmd = false → s.enc.fault = false → s.enc.phase = .run →
    s.limits.maxBy = some s.enc.icnt →
    exec (.encPush b) s = .next { s with enc := { s.enc with fault := true, fcause := .ovf } }) ∧
  (∀ (s : State) (c : Byte), s.illcmd = false → s.dec.fault = false → s.dec.phase = .run →
    s.limits.maxCh = some s.dec.cnt →
    exec (.decPush c) s = .next { s with dec := { s.dec with fault := true, fcause := .ovf } }) ∧
  (∀ (s t : State) (i : Instr), exec i s = .next t →
    (s.limits.maxBy = none → t.enc.fcause = .ovf → s.enc.fcause = .ovf) ∧
    (s.limits.maxCh = none → t.dec.fcause = .ovf → s.dec.fcause = .ovf))

/-- R41, the whole phase table, and that it applies only while neither `ILLCMD` nor `U.FAULT` is set. -/
def Obligations.PhasesFollowTheTransitionTable : Prop :=
  ∀ (s : State) (i : Instr), s.Inv →
    (s.illcmd = true ∨ unitFault i.unit s = true → exec i s = .next s) ∧
    (s.illcmd = false → unitFault i.unit s = false →
      ∃ t, exec i s = .next t ∧
        (isStart i = true → unitPhase i.unit t = .run ∧ unitFault i.unit t = false) ∧
        (isPush i = true → unitPhase i.unit s = .run → unitPhase i.unit t = .run ∧
          (pushIsFull i s → unitFault i.unit t = true ∧ unitCause i.unit t = .ovf) ∧
          (¬pushIsFull i s → unitFault i.unit t = false)) ∧
        (isClose i = true → unitPhase i.unit s = .run → unitPhase i.unit t = .done ∧ unitFault i.unit t = false) ∧
        (isStart i = false → unitPhase i.unit s ≠ .run →
          unitPhase i.unit t = unitPhase i.unit s ∧ unitFault i.unit t = true ∧ unitCause i.unit t = .seq))

/-- R215: only reset clears `ILLCMD`, `U.FAULT` and `U.FCAUSE`, and reset clears all of them; a second usage fault while the
first stands is not recorded: while `ILLCMD` stands no word changes anything, and a standing cause stays. -/
def Obligations.OnlyResetClearsAUsageFault : Prop :=
  ∀ s t : State, step s = .next t →
    (s.illcmd = true → (∀ rest, s.port ≠ .reset :: rest) → t = { s with port := t.port } ∧ t.illcmd = true) ∧
    (∀ u, unitFault u s = true → (∀ rest, s.port ≠ .reset :: rest) →
      unitFault u t = true ∧ unitCause u t = unitCause u s) ∧
    (∀ rest, s.port = .reset :: rest →
      t.illcmd = false ∧ ∀ u, unitFault u t = false ∧ unitCause u t = .none)

/-- R26: a command reads and writes only its own unit (and reads `ILLCMD` and the limits): the other unit, `ILLCMD`, the
limits and the port are unchanged, and the result is the same whatever they hold besides. -/
def Obligations.CommandsTouchOnlyTheirOwnUnit : Prop :=
  ∀ (i : Instr) (s t : State), exec i s = .next t →
    (i.unit = .enc → t = { s with enc := t.enc } ∧
      ∀ s' : State, s'.illcmd = s.illcmd → s'.limits = s.limits → s'.enc = s.enc →
        exec i s' = .next { s' with enc := t.enc }) ∧
    (i.unit = .dec → t = { s with dec := t.dec } ∧
      ∀ s' : State, s'.illcmd = s.illcmd → s'.limits = s.limits → s'.dec = s.dec →
        exec i s' = .next { s' with dec := t.dec })

/-- R73: commands of the two units may be interleaved in any way, and each unit ends as if it had been given its own
commands alone. -/
def Obligations.InterleavedCallsAreIndependent : Prop :=
  ∀ (is : List Instr) (s t : State), execAll is s = .next t →
    (∃ te, execAll (is.filter fun i => decide (i.unit = .enc)) s = .next te ∧ te.enc = t.enc) ∧
    (∃ td, execAll (is.filter fun i => decide (i.unit = .dec)) s = .next td ∧ td.dec = t.dec)

/-- R56 and R242, on rules the spec derives: after a START a call's result depends on the words of that call alone: from two
states with the same limits and no fault standing, the same commands leave the same registers and the same window. -/
def Obligations.ACallForgetsWhatCameBefore : Prop :=
  ∀ (s₁ s₂ : State) (is : List Instr), s₁.Inv → s₂.Inv → s₁.limits = s₂.limits →
    s₁.illcmd = false → s₂.illcmd = false →
    ((∀ i ∈ is, i.unit = .enc) → s₁.enc.fault = false → s₂.enc.fault = false →
      ∃ t₁ t₂, execAll (.encStart :: is) s₁ = .next t₁ ∧ execAll (.encStart :: is) s₂ = .next t₂ ∧
        t₁.enc = { t₂.enc with eout := t₁.enc.eout } ∧ ∀ k, readPort .eout k t₁ = readPort .eout k t₂) ∧
    ((∀ i ∈ is, i.unit = .dec) → s₁.dec.fault = false → s₂.dec.fault = false →
      ∃ t₁ t₂, execAll (.decStart :: is) s₁ = .next t₁ ∧ execAll (.decStart :: is) s₂ = .next t₂ ∧
        t₁.dec = { t₂.dec with dout := t₁.dec.dout } ∧ ∀ k, readPort .dout k t₁ = readPort .dout k t₂)

/-- The commands that the rules of the registers and buffers name as their writers, one clause per register: 10_state.md R21 to
R24, R28, R29, R36 to R38, R40, R45, R46, R48 to R50 and 20_memory.md R60. A command that changes the register is one of them,
and meets the condition that the rule adds: `D.BADCHAR` is set and never cleared by a push, `D.PFXOK` is written by the first
push, `D.ERRCHAR` by the push that sets `D.BADCHAR`, a fault is set and never cleared, its cause is written with it. No command
writes `ILLCMD`. -/
def Obligations.OnlyTheNamedCommandsWriteEachRegister : Prop :=
  ∀ (i : Instr) (s t : State), exec i s = .next t →
    t.illcmd = s.illcmd ∧
    -- unit ENC
    (t.enc.acc ≠ s.enc.acc → i = .encStart ∨ (∃ b, i = .encPush b) ∨ i = .encFlush) ∧
    (t.enc.bits ≠ s.enc.bits → i = .encStart ∨ (∃ b, i = .encPush b) ∨ i = .encFlush) ∧
    (t.enc.icnt ≠ s.enc.icnt → i = .encStart ∨ ∃ b, i = .encPush b) ∧
    (t.enc.olen ≠ s.enc.olen → i = .encStart ∨ (∃ b, i = .encPush b) ∨ i = .encFlush) ∧
    (t.enc.phase ≠ s.enc.phase → i = .encStart ∨ i = .encFlush) ∧
    (t.enc.eout ≠ s.enc.eout → (∃ b, i = .encPush b) ∨ i = .encFlush) ∧
    (t.enc.fault ≠ s.enc.fault → ((∃ b, i = .encPush b) ∨ i = .encFlush) ∧ t.enc.fault = true) ∧
    (t.enc.fcause ≠ s.enc.fcause →
      ((∃ b, i = .encPush b) ∨ i = .encFlush) ∧ s.enc.fault = false ∧ t.enc.fault = true) ∧
    -- unit DEC
    (t.dec.acc ≠ s.dec.acc → i = .decStart ∨ (∃ c, i = .decPush c) ∨ i = .decEnd) ∧
    (t.dec.bits ≠ s.dec.bits → i = .decStart ∨ (∃ c, i = .decPush c) ∨ i = .decEnd) ∧
    (t.dec.cnt ≠ s.dec.cnt → i = .decStart ∨ ∃ c, i = .decPush c) ∧
    (t.dec.widx ≠ s.dec.widx → i = .decStart ∨ ∃ c, i = .decPush c) ∧
    (t.dec.badchar ≠ s.dec.badchar → i = .decStart ∨ (∃ c, i = .decPush c) ∧ t.dec.badchar = true) ∧
    (t.dec.pfxok ≠ s.dec.pfxok → i = .decStart ∨ (∃ c, i = .decPush c) ∧ s.dec.cnt = 0) ∧
    (t.dec.errchar ≠ s.dec.errchar →
      i = .decStart ∨ (∃ c, i = .decPush c) ∧ s.dec.badchar = false ∧ t.dec.badchar = true) ∧
    (t.dec.status ≠ s.dec.status → i = .decStart ∨ i = .decEnd) ∧
    (t.dec.olen ≠ s.dec.olen → i = .decStart ∨ i = .decEnd) ∧
    (t.dec.phase ≠ s.dec.phase → i = .decStart ∨ i = .decEnd) ∧
    (t.dec.dout ≠ s.dec.dout → ∃ c, i = .decPush c) ∧
    (t.dec.fault ≠ s.dec.fault → ((∃ c, i = .decPush c) ∨ i = .decEnd) ∧ t.dec.fault = true) ∧
    (t.dec.fcause ≠ s.dec.fcause →
      ((∃ c, i = .decPush c) ∨ i = .decEnd) ∧ s.dec.fault = false ∧ t.dec.fault = true)

/-- R66, R68 and R132 (which the spec derives): at a command boundary the host reads an entry of the alphabet at every index
below `E.OLEN`, in any phase, and no value at or beyond it. R67: it reads a byte of `DOUT` exactly in DONE with verdict OK and
no fault, below `D.OLEN`, and no value otherwise: no partial result. -/
def Obligations.HostReadsOnlyInsideTheWindows : Prop :=
  ∀ (s : State) (k : Nat), s.Inv →
    (k < s.enc.olen → ∃ c ∈ alphaTable, Memory.read s.enc.eout k = some c ∧ readPort .eout k s = some c) ∧
    (s.enc.olen ≤ k → readPort .eout k s = none) ∧
    (s.dec.phase = .done → s.dec.status = .ok → s.dec.fault = false → k < s.dec.olen →
      ∃ x, Memory.read s.dec.dout k = some x ∧ readPort .dout k s = some x) ∧
    (s.dec.phase ≠ .done ∨ s.dec.status ≠ .ok ∨ s.dec.fault = true ∨ s.dec.olen ≤ k → readPort .dout k s = none)

/-- R75, which the spec derives: a published element never changes until its unit's START or reset. For `DOUT` the unit must
not have faulted since, because a usage fault of DEC closes the window (R67; log entry 13). -/
def Obligations.PublishedElementsAreStable : Prop :=
  ∀ (s t : State) (i : Instr) (k : Nat) (x : Byte), s.Inv → exec i s = .next t →
    (i ≠ .encStart → readPort .eout k s = some x → readPort .eout k t = some x) ∧
    (i ≠ .decStart → readPort .dout k s = some x → t.dec.fault = false → readPort .dout k t = some x)

/-- R13 (a) to (c), on live bits as R21 and R23 keep them: the shift-in loses no bit and equals the sum, and the shift amounts
stay below the register width. -/
def Obligations.ShiftInLosesNoBit : Prop :=
  ∀ (s : State) (b : Byte) (i : Sym), s.Inv →
    ((shiftInByte s.enc.acc b).toNat = s.enc.acc.toNat * 2 ^ 8 + b.toNat ∧
      s.enc.acc.toNat * 2 ^ 8 + b.toNat < 2 ^ (s.enc.bits.toNat + 8) ∧ s.enc.bits.toNat + 8 ≤ 12) ∧
    ((shiftInSym s.dec.acc i).toNat = s.dec.acc.toNat * 2 ^ 5 + i.toNat ∧
      s.dec.acc.toNat * 2 ^ 5 + i.toNat < 2 ^ (s.dec.bits.toNat + 5) ∧ s.dec.bits.toNat + 5 ≤ 12)

/-! ## Whole calls -/

/-- R126, which the spec derives: after `ENC.START` the unit has taken in no byte, and every `ENC.PUSH` adds its byte to what the
counts, the symbols and the accumulator stand for. -/
def Obligations.EncoderHoldsTheBytesTakenIn : Prop :=
  (∀ s : State, s.illcmd = false → s.enc.fault = false →
    ∃ t, exec .encStart s = .next t ∧ EncTook [] t.enc) ∧
  (∀ (s : State) (bytes : List Byte) (b : Byte), EncTook bytes s.enc → s.illcmd = false → s.enc.fault = false →
    withinLimit s.limits.maxBy (bytes.length + 1) = true →
    ∃ t, exec (.encPush b) s = .next t ∧ EncTook (bytes ++ [b]) t.enc)

/-- R129 and R130, which the spec derives: the macro ENCODE ends in DONE with `ceil(8n/5)` symbols, and they are `encode(B)`; the
decoder is as before. -/
def Obligations.EncodeCallGivesTheEncodedString : Prop :=
  ∀ (s : State) (bytes : List Byte), s.illcmd = false → s.enc.fault = false →
    withinLimit s.limits.maxBy bytes.length = true →
    ∃ t, execAll (encodeCall bytes) s = .next t ∧ encodeComplete t = true ∧
      t.enc.olen = (8 * bytes.length + 4) / 5 ∧ window .eout t = encodeOf bytes ∧ t.dec = s.dec

/-- R25 and R120: the macro ENCODE gives what D0's algorithm gives on an integer accumulator that is never masked. -/
def Obligations.EncodeCallIsD0sUnmaskedAlgorithm : Prop :=
  ∀ (s : State) (bytes : List Byte), s.illcmd = false → s.enc.fault = false →
    withinLimit s.limits.maxBy bytes.length = true →
    ∃ t, execAll (encodeCall bytes) s = .next t ∧ encodeComplete t = true ∧ window .eout t = d0Encode bytes

/-- R162, which the spec derives: after `DEC.START` the unit has taken in no character, and every `DEC.PUSH` of a valid character
adds it to what the counts, the bytes, the accumulator and `D.PFXOK` stand for. -/
def Obligations.DecoderHoldsTheCharactersTakenIn : Prop :=
  (∀ s : State, s.illcmd = false → s.dec.fault = false →
    ∃ t, exec .decStart s = .next t ∧ DecTook [] t.dec) ∧
  (∀ (s : State) (text : List Byte) (c : Byte), DecTook text s.dec → s.illcmd = false → s.dec.fault = false →
    withinLimit s.limits.maxCh (text.length + 1) = true → (lookup (normalise c)).valid = true →
    ∃ t, exec (.decPush c) s = .next t ∧ DecTook (text ++ [c]) t.dec)

/-- R169, which the spec derives: the macro DECODE ends in DONE with the verdict, the offending character, the length and the
bytes that the rule gives; the encoder is as before. -/
def Obligations.DecodeCallGivesVerdictAndBytes : Prop :=
  ∀ (s : State) (text : List Byte), s.illcmd = false → s.dec.fault = false →
    withinLimit s.limits.maxCh text.length = true →
    ∃ t, execAll (decodeCall text) s = .next t ∧ decodeComplete t = true ∧ t.dec.status = verdictOf text ∧
      (verdictOf text = .invChar → firstBad text = some t.dec.errchar) ∧
      (verdictOf text = .ok → t.dec.olen = 5 * text.length / 8 ∧ window .dout t = bytesOf text) ∧
      (verdictOf text ≠ .ok → t.dec.olen = 0 ∧ window .dout t = []) ∧ t.enc = s.enc

/-- R173 and R150: the one pass of the block gives the verdict and the bytes of D0's three stages (normalise all, validate in
order, decode with an accumulator that is never masked), for every text. -/
def Obligations.OnePassDecodesAsD0sThreeStages : Prop :=
  ∀ (s : State) (text : List Byte), s.illcmd = false → s.dec.fault = false →
    withinLimit s.limits.maxCh text.length = true →
    ∃ t, execAll (decodeCall text) s = .next t ∧ decodeResult t = some (d0Decode text)

/-- R201 to R203 and R210: the cause of each error verdict of a decode call, in priority order, what it records, and the codes
that are no character of the alphabet. -/
def Obligations.ErrorVerdictsHaveTheirCauses : Prop :=
  (∀ (s t : State) (text : List Byte), s.illcmd = false → s.dec.fault = false →
    withinLimit s.limits.maxCh text.length = true → execAll (decodeCall text) s = .next t →
    (t.dec.status = .invChar ↔ ∃ c ∈ text, (lookup (normalise c)).valid = false) ∧
    (t.dec.status = .invChar → ∃ pre c post, text = pre ++ c :: post ∧
      (∀ x ∈ pre, (lookup (normalise x)).valid = true) ∧ (lookup (normalise c)).valid = false ∧ t.dec.errchar = normalise c) ∧
    (t.dec.status = .invLen ↔ (∀ c ∈ text, (lookup (normalise c)).valid = true) ∧ text.length ≤ 5) ∧
    (t.dec.status = .invPfx ↔ (∀ c ∈ text, (lookup (normalise c)).valid = true) ∧ 6 ≤ text.length ∧
      (text.map normalise).head? ≠ some 0x53#8) ∧
    (t.dec.status ≠ .ok → t.dec.olen = 0)) ∧
  (∀ c : Byte, (lookup (normalise c)).valid = false ↔
    c.toNat ≤ 0x2F ∨ (0x3A ≤ c.toNat ∧ c.toNat ≤ 0x40) ∨ (0x5B ≤ c.toNat ∧ c.toNat ≤ 0x60) ∨ 0x7B ≤ c.toNat ∨
    c.toNat = 0x55 ∨ c.toNat = 0x75)

/-- R170, which the spec derives: two texts with the same normal form are decoded alike in every state: same outcome, so the same
verdict, recorded character and bytes. -/
def Obligations.ConfusableTextsDecodeAlike : Prop :=
  ∀ (s : State) (text text' : List Byte), text.map normalise = text'.map normalise →
    execAll (decodeCall text) s = execAll (decodeCall text') s

/-- R171, which the spec derives: pushing the characters of `encode(B)` through the decoder reproduces `B` byte for byte in the
hidden buffer; the zero padding bits stay in the accumulator. -/
def Obligations.DecodingTheEncodedStringReproducesTheBytes : Prop :=
  ∀ (s : State) (bytes : List Byte), s.illcmd = false → s.dec.fault = false →
    withinLimit s.limits.maxCh (encodeOf bytes).length = true →
    ∃ t, execAll (.decStart :: (encodeOf bytes).map Instr.decPush) s = .next t ∧
      t.dec.badchar = false ∧ t.dec.widx = bytes.length ∧
      (∀ (j : Nat) (h : j < bytes.length), Memory.read t.dec.dout j = some bytes[j]) ∧
      t.dec.acc = 0 ∧ t.dec.bits.toNat = padLen bytes.length

/-- R134, which the spec derives: the verdict on an encoded string is OK exactly when there are at least four bytes and the first
is in 0xC8..0xCF, and the bytes are then the encoded ones; otherwise it is INVLEN or INVPFX. -/
def Obligations.EncodeThenDecodeSucceedsOnlyWithTheSentinel : Prop :=
  ∀ (s : State) (bytes : List Byte), s.illcmd = false → s.dec.fault = false →
    withinLimit s.limits.maxCh (encodeOf bytes).length = true →
    ∃ t, execAll (decodeCall (encodeOf bytes)) s = .next t ∧
      (t.dec.status = .ok ↔ 4 ≤ bytes.length ∧ ∃ b, bytes.head? = some b ∧ 0xC8 ≤ b.toNat ∧ b.toNat ≤ 0xCF) ∧
      (t.dec.status = .ok → window .dout t = bytes) ∧
      (t.dec.status ≠ .ok → (t.dec.status = .invLen ∨ t.dec.status = .invPfx) ∧ window .dout t = [])

/-- R172, which the spec derives (on the alphabet order of R31, log entry 7): the first byte of every accepted string is 0b11001 and
the top three bits of the second character's index, a value in 0xC8..0xCF. -/
def Obligations.FirstByteOfAnAcceptedString : Prop :=
  ∀ (s t : State) (text : List Byte), s.illcmd = false → s.dec.fault = false →
    withinLimit s.limits.maxCh text.length = true → execAll (decodeCall text) s = .next t → t.dec.status = .ok →
    ∃ c, text[1]? = some c ∧
      readPort .dout 0 t = some (BitVec.ofNat 8 (0xC8 + (lookup (normalise c)).idx.toNat / 4))
end

