-- ==== Sys2Proof/Laws/Bits.lean ====
section
/-!
SUPPORT. The shifts and masks of the two datapaths as arithmetic on naturals (spec/00_scope.md R13).
-/

namespace Sys2Proof.Machine

theorem keepLow_toNat (a : Acc) (n : Nat) : (keepLow a n).toNat = a.toNat % 2 ^ n := by
  have ha := a.isLt
  have h2 : 1 <<< n - 1 = 2 ^ n - 1 := by rw [Nat.one_shiftLeft]
  unfold keepLow
  rw [BitVec.toNat_and, BitVec.toNat_ofNat, h2]
  by_cases hn : n ≤ 12
  · have : 2 ^ n ≤ 2 ^ 12 := Nat.pow_le_pow_right (by decide) hn
    rw [Nat.mod_eq_of_lt (by omega), Nat.and_two_pow_sub_one_eq_mod]
  · have h12 : 2 ^ 12 ∣ 2 ^ n := Nat.pow_dvd_pow 2 (by omega)
    obtain ⟨c, hc⟩ := h12
    have hcpos : 0 < c := by
      rcases Nat.eq_zero_or_pos c with rfl | h
      · have := Nat.two_pow_pos n
        omega
      · exact h
    have : (2 ^ n - 1) % 2 ^ 12 = 2 ^ 12 - 1 := by
      rw [hc]
      obtain ⟨k, rfl⟩ : ∃ k, c = k + 1 := ⟨c - 1, by omega⟩
      omega
    rw [this, Nat.and_two_pow_sub_one_eq_mod, Nat.mod_eq_of_lt ha,
      Nat.mod_eq_of_lt (Nat.lt_of_lt_of_le ha (Nat.le_of_dvd (Nat.two_pow_pos n) ⟨c, hc⟩))]

theorem keepLow_lt (a : Acc) (n : Nat) : (keepLow a n).toNat < 2 ^ n := by
  rw [keepLow_toNat]
  exact Nat.mod_lt _ (Nat.two_pow_pos n)

/-- The byte goes below the live bits; nothing is lost while at most 4 bits are live (R13 (a)). -/
theorem shiftInByte_toNat (acc : Acc) (b : Byte) (h : acc.toNat < 16) :
    (shiftInByte acc b).toNat = acc.toNat * 256 + b.toNat := by
  have hb := b.isLt
  unfold shiftInByte
  rw [BitVec.toNat_or, BitVec.toNat_shiftLeft, BitVec.toNat_setWidth, Nat.shiftLeft_eq,
    Nat.mod_eq_of_lt (show acc.toNat * 2 ^ 8 < 2 ^ 12 by omega), Nat.mod_eq_of_lt (show b.toNat < 2 ^ 12 by omega),
    ← Nat.shiftLeft_eq, ← Nat.shiftLeft_add_eq_or_of_lt hb, Nat.shiftLeft_eq]

/-- The index goes below the live bits; nothing is lost while at most 7 bits are live (R13 (a)). -/
theorem shiftInSym_toNat (acc : Acc) (i : Sym) (h : acc.toNat < 128) :
    (shiftInSym acc i).toNat = acc.toNat * 32 + i.toNat := by
  have hi := i.isLt
  unfold shiftInSym
  rw [BitVec.toNat_or, BitVec.toNat_shiftLeft, BitVec.toNat_setWidth, Nat.shiftLeft_eq,
    Nat.mod_eq_of_lt (show acc.toNat * 2 ^ 5 < 2 ^ 12 by omega), Nat.mod_eq_of_lt (show i.toNat < 2 ^ 12 by omega),
    ← Nat.shiftLeft_eq, ← Nat.shiftLeft_add_eq_or_of_lt hi, Nat.shiftLeft_eq]

theorem topSym_toNat (a : Acc) (n : Nat) : (topSym a n).toNat = a.toNat / 2 ^ (n - 5) % 32 := by
  simp [topSym, BitVec.toNat_setWidth, BitVec.toNat_ushiftRight, Nat.shiftRight_eq_div_pow]

theorem topByte_toNat (a : Acc) (k : Nat) : (topByte a k).toNat = a.toNat / 2 ^ (k - 8) % 256 := by
  simp [topByte, BitVec.toNat_setWidth, BitVec.toNat_ushiftRight, Nat.shiftRight_eq_div_pow]

theorem padSym_toNat (acc : Acc) (bits : Nat) : (padSym acc bits).toNat = acc.toNat * 2 ^ (5 - bits) % 32 := by
  simp [padSym, BitVec.toNat_setWidth, BitVec.toNat_shiftLeft, Nat.shiftLeft_eq]

/-! ## The same as numbers of the right width -/

theorem keepLow_eq_ofNat (a : Acc) (n : Nat) : keepLow a n = BitVec.ofNat 12 (a.toNat % 2 ^ n) := by
  apply BitVec.eq_of_toNat_eq
  rw [keepLow_toNat, BitVec.toNat_ofNat]
  exact (Nat.mod_eq_of_lt (Nat.lt_of_le_of_lt (Nat.mod_le _ _) a.isLt)).symm

theorem topSym_eq_ofNat (a : Acc) (n : Nat) : topSym a n = BitVec.ofNat 5 (a.toNat / 2 ^ (n - 5) % 32) := by
  apply BitVec.eq_of_toNat_eq
  rw [topSym_toNat, BitVec.toNat_ofNat, Nat.mod_mod]

theorem topByte_eq_ofNat (a : Acc) (k : Nat) : topByte a k = BitVec.ofNat 8 (a.toNat / 2 ^ (k - 8) % 256) := by
  apply BitVec.eq_of_toNat_eq
  rw [topByte_toNat, BitVec.toNat_ofNat, Nat.mod_mod]

theorem padSym_eq_ofNat (acc : Acc) (bits : Nat) :
    padSym acc bits = BitVec.ofNat 5 (acc.toNat * 2 ^ (5 - bits)) := by
  apply BitVec.eq_of_toNat_eq
  rw [padSym_toNat, BitVec.toNat_ofNat]

/-- Masking the consumed bits changes no symbol (spec/10_state.md R25). -/
theorem topSym_keepLow (a : Acc) {n : Nat} (h : 5 ≤ n) : topSym (keepLow a n) n = topSym a n := by
  apply BitVec.eq_of_toNat_eq
  rw [topSym_toNat, topSym_toNat, keepLow_toNat]
  have hn : 2 ^ n = 2 ^ (n - 5) * 32 := by
    rw [show 32 = 2 ^ 5 from rfl, ← Nat.pow_add, Nat.sub_add_cancel h]
  rw [hn, Nat.mod_mul_right_div_self, Nat.mod_mod]

theorem keepLow_keepLow (a : Acc) {m n : Nat} (h : m ≤ n) : keepLow (keepLow a n) m = keepLow a m := by
  apply BitVec.eq_of_toNat_eq
  rw [keepLow_toNat, keepLow_toNat, keepLow_toNat]
  exact Nat.mod_mod_of_dvd _ (Nat.pow_dvd_pow 2 h)

end Sys2Proof.Machine
end

