-- ==== Sys2Proof/Laws/Memory.lean ====
section
/-!
SUPPORT. What a write to a buffer does: the element written, the elements left alone, the canonical form, the capacity.
-/

namespace Sys2Proof.Machine

@[simp] theorem Memory.read_nil (a : Nat) : Memory.read [] a = none := rfl

theorem Memory.read_write (m : Memory) (a b : Nat) (v : Byte) :
    Memory.read (Memory.write m a v) b = if a = b then some v else Memory.read m b := by
  induction m with
  | nil => simp [Memory.write, Memory.read]
  | cons cell m ih =>
    obtain ⟨k, x⟩ := cell
    simp only [Memory.write]
    split
    · simp [Memory.read]
    · split
      · subst_vars
        by_cases h : k = b <;> simp [Memory.read, h]
      · by_cases hk : k = b
        · have : a ≠ b := by omega
          simp [Memory.read, hk, this]
        · simp [Memory.read, hk, ih]

@[simp] theorem Memory.read_write_same (m : Memory) (a : Nat) (v : Byte) :
    Memory.read (Memory.write m a v) a = some v := by simp [Memory.read_write]

theorem Memory.read_write_other (m : Memory) (a b : Nat) (v : Byte) (h : a ≠ b) :
    Memory.read (Memory.write m a v) b = Memory.read m b := by simp [Memory.read_write, h]

/-- Every cell after a write is the written one or an old one. -/
theorem Memory.mem_write {m : Memory} {a : Nat} {v : Byte} {cell : Host.Cell}
    (h : cell ∈ Memory.write m a v) : cell = (a, v) ∨ cell ∈ m := by
  induction m with
  | nil => simpa [Memory.write] using h
  | cons c m ih =>
    obtain ⟨k, x⟩ := c
    simp only [Memory.write] at h
    split at h
    · simpa using h
    · split at h
      · rcases List.mem_cons.1 h with h | h
        · exact .inl h
        · exact .inr (List.mem_cons_of_mem _ h)
      · rcases List.mem_cons.1 h with h | h
        · exact .inr (h ▸ List.mem_cons_self)
        · exact (ih h).imp id (List.mem_cons_of_mem _)

/-- The canonical form of a list with a first cell: it lies below every later one. -/
theorem Memory.wf_cons {k : Nat} {x : Byte} {m : Memory} :
    Memory.wf ((k, x) :: m) = true ↔ (∀ cell ∈ m, k < cell.1) ∧ Memory.wf m = true := by
  induction m generalizing k x with
  | nil => simp [Memory.wf]
  | cons c m ih =>
    obtain ⟨j, y⟩ := c
    simp only [Memory.wf, Bool.and_eq_true, decide_eq_true_eq, List.mem_cons, forall_eq_or_imp]
    constructor
    · rintro ⟨hkj, hm⟩
      exact ⟨⟨hkj, fun cell hc => Nat.lt_trans hkj ((ih.1 hm).1 cell hc)⟩, hm⟩
    · rintro ⟨⟨hkj, -⟩, hm⟩
      exact ⟨hkj, hm⟩

/-- Every memory operation keeps the canonical form. -/
theorem Memory.wf_write (m : Memory) (a : Nat) (v : Byte) (h : Memory.wf m = true) :
    Memory.wf (Memory.write m a v) = true := by
  induction m with
  | nil => rfl
  | cons c m ih =>
    obtain ⟨k, x⟩ := c
    obtain ⟨hk, hm⟩ := Memory.wf_cons.1 h
    simp only [Memory.write]
    split
    · next hak =>
      refine Memory.wf_cons.2 ⟨fun cell hc => ?_, h⟩
      rcases List.mem_cons.1 hc with rfl | hc
      · exact hak
      · exact Nat.lt_trans hak (hk cell hc)
    · split
      · next hak => exact Memory.wf_cons.2 ⟨hak ▸ hk, hm⟩
      · refine Memory.wf_cons.2 ⟨fun cell hc => ?_, ih hm⟩
        rcases Memory.mem_write hc with rfl | hc
        · show k < a
          omega
        · exact hk cell hc

/-- A write inside the capacity keeps every listed index inside it. -/
theorem Memory.within_write (cap : Option Nat) (m : Memory) (a : Nat) (v : Byte)
    (hm : Memory.within cap m = true) (ha : hasIndex cap a = true) :
    Memory.within cap (Memory.write m a v) = true := by
  cases cap with
  | none => rfl
  | some c =>
    simp only [Memory.within, hasIndex, List.all_eq_true, decide_eq_true_eq] at *
    intro cell hc
    rcases Memory.mem_write hc with rfl | hc
    · exact ha
    · exact hm cell hc

theorem Memory.all_write {P : Byte → Prop} {m : Memory} {a : Nat} {v : Byte}
    (hm : ∀ cell ∈ m, P cell.2) (hv : P v) : ∀ cell ∈ Memory.write m a v, P cell.2 := by
  intro cell hc
  rcases Memory.mem_write hc with rfl | hc
  · exact hv
  · exact hm cell hc

/-- The memory after reset is in canonical form. -/
theorem State.reset_memory_wf (lim : Limits) :
    Memory.wf (State.resetWith lim).enc.eout = true ∧ Memory.wf (State.resetWith lim).dec.dout = true :=
  ⟨rfl, rfl⟩

end Sys2Proof.Machine
end

