-- ==== Sys2Proof/Laws/State.lean ====
section
/-!
SUPPORT. The small lemmas of the updates of State: which field each of them sets and which it leaves alone.
-/

namespace Sys2Proof.Machine

section RaiseIllegal
variable (s : State)
@[simp] theorem raiseIllegal_illcmd : (raiseIllegal s).illcmd = true := rfl
@[simp] theorem raiseIllegal_enc : (raiseIllegal s).enc = s.enc := rfl
@[simp] theorem raiseIllegal_dec : (raiseIllegal s).dec = s.dec := rfl
@[simp] theorem raiseIllegal_limits : (raiseIllegal s).limits = s.limits := rfl
@[simp] theorem raiseIllegal_port : (raiseIllegal s).port = s.port := rfl
end RaiseIllegal

section RaiseUnitFault
variable (u : UnitSel) (c : FCause) (s : State)
@[simp] theorem raiseUnitFault_illcmd : (raiseUnitFault u c s).illcmd = s.illcmd := by cases u <;> rfl
@[simp] theorem raiseUnitFault_limits : (raiseUnitFault u c s).limits = s.limits := by cases u <;> rfl
@[simp] theorem raiseUnitFault_port : (raiseUnitFault u c s).port = s.port := by cases u <;> rfl
@[simp] theorem raiseUnitFault_enc_dec : (raiseUnitFault .enc c s).dec = s.dec := rfl
@[simp] theorem raiseUnitFault_dec_enc : (raiseUnitFault .dec c s).enc = s.enc := rfl
@[simp] theorem raiseUnitFault_enc_enc :
    (raiseUnitFault .enc c s).enc = { s.enc with fault := true, fcause := c } := rfl
@[simp] theorem raiseUnitFault_dec_dec :
    (raiseUnitFault .dec c s).dec = { s.dec with fault := true, fcause := c } := rfl
@[simp] theorem raiseUnitFault_fault : unitFault u (raiseUnitFault u c s) = true := by cases u <;> rfl
@[simp] theorem raiseUnitFault_cause : unitCause u (raiseUnitFault u c s) = c := by cases u <;> rfl
@[simp] theorem raiseUnitFault_phase : unitPhase u (raiseUnitFault u c s) = unitPhase u s := by cases u <;> rfl
end RaiseUnitFault

section HardReset
variable (s : State)
@[simp] theorem hardReset_illcmd : (hardReset s).illcmd = false := rfl
@[simp] theorem hardReset_enc : (hardReset s).enc = EncUnit.reset := rfl
@[simp] theorem hardReset_dec : (hardReset s).dec = DecUnit.reset := rfl
@[simp] theorem hardReset_limits : (hardReset s).limits = s.limits := rfl
@[simp] theorem hardReset_port : (hardReset s).port = s.port := rfl
end HardReset

section EncOpen
variable (e : EncUnit)
@[simp] theorem encOpen_phase : (encOpen e).phase = .run := rfl
@[simp] theorem encOpen_acc : (encOpen e).acc = 0 := rfl
@[simp] theorem encOpen_bits : (encOpen e).bits = 0 := rfl
@[simp] theorem encOpen_icnt : (encOpen e).icnt = 0 := rfl
@[simp] theorem encOpen_olen : (encOpen e).olen = 0 := rfl
@[simp] theorem encOpen_fault : (encOpen e).fault = e.fault := rfl
@[simp] theorem encOpen_fcause : (encOpen e).fcause = e.fcause := rfl
@[simp] theorem encOpen_eout : (encOpen e).eout = e.eout := rfl
end EncOpen

section DecOpen
variable (d : DecUnit)
@[simp] theorem decOpen_phase : (decOpen d).phase = .run := rfl
@[simp] theorem decOpen_acc : (decOpen d).acc = 0 := rfl
@[simp] theorem decOpen_bits : (decOpen d).bits = 0 := rfl
@[simp] theorem decOpen_cnt : (decOpen d).cnt = 0 := rfl
@[simp] theorem decOpen_widx : (decOpen d).widx = 0 := rfl
@[simp] theorem decOpen_badchar : (decOpen d).badchar = false := rfl
@[simp] theorem decOpen_pfxok : (decOpen d).pfxok = false := rfl
@[simp] theorem decOpen_errchar : (decOpen d).errchar = 0 := rfl
@[simp] theorem decOpen_status : (decOpen d).status = .none := rfl
@[simp] theorem decOpen_olen : (decOpen d).olen = 0 := rfl
@[simp] theorem decOpen_fault : (decOpen d).fault = d.fault := rfl
@[simp] theorem decOpen_fcause : (decOpen d).fcause = d.fcause := rfl
@[simp] theorem decOpen_dout : (decOpen d).dout = d.dout := rfl
end DecOpen

section DecClose
variable (d : DecUnit)
@[simp] theorem decClose_phase : (decClose d).phase = .done := rfl
@[simp] theorem decClose_acc : (decClose d).acc = 0 := rfl
@[simp] theorem decClose_bits : (decClose d).bits = 0 := rfl
@[simp] theorem decClose_cnt : (decClose d).cnt = d.cnt := rfl
@[simp] theorem decClose_widx : (decClose d).widx = d.widx := rfl
@[simp] theorem decClose_badchar : (decClose d).badchar = d.badchar := rfl
@[simp] theorem decClose_pfxok : (decClose d).pfxok = d.pfxok := rfl
@[simp] theorem decClose_errchar : (decClose d).errchar = d.errchar := rfl
@[simp] theorem decClose_status : (decClose d).status = verdict d.badchar d.cnt d.pfxok := rfl
@[simp] theorem decClose_olen : (decClose d).olen = publishedLen (verdict d.badchar d.cnt d.pfxok) d.cnt := rfl
@[simp] theorem decClose_fault : (decClose d).fault = d.fault := rfl
@[simp] theorem decClose_fcause : (decClose d).fcause = d.fcause := rfl
@[simp] theorem decClose_dout : (decClose d).dout = d.dout := rfl
end DecClose

@[simp] theorem unitFault_enc (s : State) : unitFault .enc s = s.enc.fault := rfl
@[simp] theorem unitFault_dec (s : State) : unitFault .dec s = s.dec.fault := rfl
@[simp] theorem unitPhase_enc (s : State) : unitPhase .enc s = s.enc.phase := rfl
@[simp] theorem unitPhase_dec (s : State) : unitPhase .dec s = s.dec.phase := rfl
@[simp] theorem unitCause_enc (s : State) : unitCause .enc s = s.enc.fcause := rfl
@[simp] theorem unitCause_dec (s : State) : unitCause .dec s = s.dec.fcause := rfl

end Sys2Proof.Machine
end

