-- ==== Sys2Proof/Laws/Ops.lean ====
section
/-!
SUPPORT. Everything the shared operations can do: the tests before execution (spec/30_encoding.md R95), the two emit
operations (R124, R161), the two loops (R122, R158), and the units' own rules in closed form.
-/

namespace Sys2Proof.Machine

/-! ## The tests of R95 -/

theorem admission_ignored_of_illcmd {u : UnitSel} {r f : Bool} {s : State} (h : s.illcmd = true) :
    admission u r f s = .ignored := by simp [admission, h]

theorem admission_ignored_of_fault {u : UnitSel} {r f : Bool} {s : State} (h : unitFault u s = true) :
    admission u r f s = .ignored := by simp [admission, h]

theorem admission_seq {u : UnitSel} {f : Bool} {s : State} (hi : s.illcmd = false) (hf : unitFault u s = false)
    (hp : unitPhase u s ≠ .run) : admission u true f s = .raises .seq := by simp [admission, hi, hf, hp]

theorem admission_ovf {u : UnitSel} {s : State} (hi : s.illcmd = false) (hf : unitFault u s = false)
    (hp : unitPhase u s = .run) : admission u true true s = .raises .ovf := by simp [admission, hi, hf, hp]

theorem admission_executes {u : UnitSel} {s : State} (hi : s.illcmd = false) (hf : unitFault u s = false)
    (hp : unitPhase u s = .run) : admission u true false s = .executes := by simp [admission, hi, hf, hp]

theorem admission_start {u : UnitSel} {s : State} (hi : s.illcmd = false) (hf : unitFault u s = false) :
    admission u false false s = .executes := by simp [admission, hi, hf]

/-- Why a command is admitted, raises or is ignored, read backwards. -/
theorem admission_cases (u : UnitSel) (r f : Bool) (s : State) :
    (admission u r f s = .ignored ∧ (s.illcmd = true ∨ unitFault u s = true)) ∨
    (admission u r f s = .raises .seq ∧ s.illcmd = false ∧ unitFault u s = false ∧ r = true ∧ unitPhase u s ≠ .run) ∨
    (admission u r f s = .raises .ovf ∧ s.illcmd = false ∧ unitFault u s = false ∧
      (r = true → unitPhase u s = .run) ∧ f = true) ∨
    (admission u r f s = .executes ∧ s.illcmd = false ∧ unitFault u s = false ∧
      (r = true → unitPhase u s = .run) ∧ f = false) := by
  unfold admission
  split
  · simp_all
  split
  · simp_all
  split
  · simp_all
  split <;> simp_all

theorem atLimit_eq_true {limit : Option Nat} {n : Nat} : atLimit limit n = true ↔ limit = some n := by
  simp [atLimit]

theorem atLimit_eq_false {limit : Option Nat} {n : Nat} : atLimit limit n = false ↔ limit ≠ some n := by
  simp [atLimit]

theorem encCommand_ignored {r f : Bool} {body : EncUnit → Except Fault EncUnit} {s : State}
    (h : s.illcmd = true ∨ s.enc.fault = true) : encCommand r f body s = .next s := by
  have : admission .enc r f s = .ignored := h.elim admission_ignored_of_illcmd fun hf => admission_ignored_of_fault hf
  simp [encCommand, this]

theorem decCommand_ignored {r f : Bool} {body : DecUnit → Except Fault DecUnit} {s : State}
    (h : s.illcmd = true ∨ s.dec.fault = true) : decCommand r f body s = .next s := by
  have : admission .dec r f s = .ignored := h.elim admission_ignored_of_illcmd fun hf => admission_ignored_of_fault hf
  simp [decCommand, this]

/-- If an encoder command answers a next state, then it is ignored, it raises, or its own rule gave the new unit. -/
theorem encCommand_next {r f : Bool} {body : EncUnit → Except Fault EncUnit} {s t : State}
    (h : encCommand r f body s = .next t) :
    (t = s ∧ (s.illcmd = true ∨ s.enc.fault = true)) ∨
    (s.illcmd = false ∧ s.enc.fault = false ∧ r = true ∧ s.enc.phase ≠ .run ∧ t = raiseUnitFault .enc .seq s) ∨
    (s.illcmd = false ∧ s.enc.fault = false ∧ (r = true → s.enc.phase = .run) ∧ f = true ∧
      t = raiseUnitFault .enc .ovf s) ∨
    (s.illcmd = false ∧ s.enc.fault = false ∧ (r = true → s.enc.phase = .run) ∧ f = false ∧
      ∃ e, body s.enc = .ok e ∧ t = { s with enc := e }) := by
  unfold encCommand at h
  rcases admission_cases .enc r f s with ⟨ha, hc⟩ | ⟨ha, hc⟩ | ⟨ha, hc⟩ | ⟨ha, hc⟩ <;> simp only [ha] at h
  · cases h
    exact .inl ⟨rfl, hc⟩
  · cases h
    exact .inr (.inl ⟨hc.1, hc.2.1, hc.2.2.1, hc.2.2.2, rfl⟩)
  · cases h
    exact .inr (.inr (.inl ⟨hc.1, hc.2.1, hc.2.2.1, hc.2.2.2, rfl⟩))
  · split at h
    · cases h
    · next e he =>
      cases h
      exact .inr (.inr (.inr ⟨hc.1, hc.2.1, hc.2.2.1, hc.2.2.2, e, he, rfl⟩))

/-- If a decoder command answers a next state, then it is ignored, it raises, or its own rule gave the new unit. -/
theorem decCommand_next {r f : Bool} {body : DecUnit → Except Fault DecUnit} {s t : State}
    (h : decCommand r f body s = .next t) :
    (t = s ∧ (s.illcmd = true ∨ s.dec.fault = true)) ∨
    (s.illcmd = false ∧ s.dec.fault = false ∧ r = true ∧ s.dec.phase ≠ .run ∧ t = raiseUnitFault .dec .seq s) ∨
    (s.illcmd = false ∧ s.dec.fault = false ∧ (r = true → s.dec.phase = .run) ∧ f = true ∧
      t = raiseUnitFault .dec .ovf s) ∨
    (s.illcmd = false ∧ s.dec.fault = false ∧ (r = true → s.dec.phase = .run) ∧ f = false ∧
      ∃ d, body s.dec = .ok d ∧ t = { s with dec := d }) := by
  unfold decCommand at h
  rcases admission_cases .dec r f s with ⟨ha, hc⟩ | ⟨ha, hc⟩ | ⟨ha, hc⟩ | ⟨ha, hc⟩ <;> simp only [ha] at h
  · cases h
    exact .inl ⟨rfl, hc⟩
  · cases h
    exact .inr (.inl ⟨hc.1, hc.2.1, hc.2.2.1, hc.2.2.2, rfl⟩)
  · cases h
    exact .inr (.inr (.inl ⟨hc.1, hc.2.1, hc.2.2.1, hc.2.2.2, rfl⟩))
  · split at h
    · cases h
    · next d hd =>
      cases h
      exact .inr (.inr (.inr ⟨hc.1, hc.2.1, hc.2.2.1, hc.2.2.2, d, hd, rfl⟩))

/-- A command is the same whatever acts the host has still to make. -/
theorem encCommand_port (r f : Bool) (body : EncUnit → Except Fault EncUnit) (s t : State) (p : List HostAct)
    (h : encCommand r f body s = .next t) :
    encCommand r f body { s with port := p } = .next { t with port := p } := by
  have ha : admission .enc r f { s with port := p } = admission .enc r f s := rfl
  unfold encCommand at h ⊢
  rw [ha]
  split at h
  · cases h; rfl
  · cases h; rfl
  · split at h
    · cases h
    · next he => cases h; simp [he]

theorem decCommand_port (r f : Bool) (body : DecUnit → Except Fault DecUnit) (s t : State) (p : List HostAct)
    (h : decCommand r f body s = .next t) :
    decCommand r f body { s with port := p } = .next { t with port := p } := by
  have ha : admission .dec r f { s with port := p } = admission .dec r f s := rfl
  unfold decCommand at h ⊢
  rw [ha]
  split at h
  · cases h; rfl
  · cases h; rfl
  · split at h
    · cases h
    · next hd => cases h; simp [hd]

/-! ## The emit operations -/

theorem emitSym_ok {cap : Option Nat} {e : EncUnit} (sym : Sym) (h : hasIndex cap e.olen = true) :
    emitSym cap sym e =
      .ok { e with eout := Memory.write e.eout e.olen (alpha sym), olen := e.olen + 1 } := by
  simp [emitSym, h]

theorem emitByte_ok {cap : Option Nat} {d : DecUnit} (y : Byte) (h : hasIndex cap d.widx = true) :
    emitByte cap y d = .ok { d with dout := Memory.write d.dout d.widx y, widx := d.widx + 1 } := by
  simp [emitByte, h]

theorem emitSym_next {cap : Option Nat} {e e' : EncUnit} {sym : Sym} (h : emitSym cap sym e = .ok e') :
    hasIndex cap e.olen = true ∧
      e' = { e with eout := Memory.write e.eout e.olen (alpha sym), olen := e.olen + 1 } := by
  unfold emitSym at h
  split at h
  · next hi => cases h; exact ⟨hi, rfl⟩
  · cases h

theorem emitByte_next {cap : Option Nat} {d d' : DecUnit} {y : Byte} (h : emitByte cap y d = .ok d') :
    hasIndex cap d.widx = true ∧
      d' = { d with dout := Memory.write d.dout d.widx y, widx := d.widx + 1 } := by
  unfold emitByte at h
  split at h
  · next hi => cases h; exact ⟨hi, rfl⟩
  · cases h

theorem hasIndex_mono {cap : Option Nat} {a b : Nat} (h : hasIndex cap b = true) (hab : a ≤ b) :
    hasIndex cap a = true := by
  cases cap with
  | none => rfl
  | some c =>
    simp only [hasIndex, decide_eq_true_eq] at *
    omega

/-! ## The loops, turn by turn -/

theorem symLoop_stop (cap : Option Nat) (fuel : Nat) (a : Acc) {n : Nat} (e : EncUnit) (h : n < 5) :
    symLoop cap fuel a n e = .ok { e with acc := a, bits := BitVec.ofNat 4 n } := by
  cases fuel <;> simp [symLoop, h]

theorem symLoop_turn (cap : Option Nat) (fuel : Nat) (a : Acc) {n : Nat} (e : EncUnit) (h : 5 ≤ n)
    (hi : hasIndex cap e.olen = true) :
    symLoop cap (fuel + 1) a n e =
      symLoop cap fuel (keepLow a (n - 5)) (n - 5)
        { e with eout := Memory.write e.eout e.olen (alpha (topSym a n)), olen := e.olen + 1 } := by
  have : ¬n < 5 := by omega
  simp [symLoop, this, emitSym_ok _ hi]

theorem byteLoop_stop (cap : Option Nat) (fuel : Nat) (a : Acc) {k : Nat} (d : DecUnit) (h : k < 8) :
    byteLoop cap fuel a k d = .ok { d with acc := a, bits := BitVec.ofNat 4 k } := by
  cases fuel <;> simp [byteLoop, h]

theorem byteLoop_turn (cap : Option Nat) (fuel : Nat) (a : Acc) {k : Nat} (d : DecUnit) (h : 8 ≤ k)
    (hi : hasIndex cap d.widx = true) :
    byteLoop cap (fuel + 1) a k d =
      byteLoop cap fuel (keepLow a (k - 8)) (k - 8)
        { d with dout := Memory.write d.dout d.widx (topByte a k), widx := d.widx + 1 } := by
  have : ¬k < 8 := by omega
  simp [byteLoop, this, emitByte_ok _ hi]

/-! ## The units' own rules in closed form -/

/-- `ENC.PUSH` with 0 or 1 live bits writes one symbol (R123). -/
theorem encTakeIn_one (cap : Option Nat) (b : Byte) (e : EncUnit) (hb : e.bits.toNat ≤ 1)
    (hi : hasIndex cap e.olen = true) :
    encTakeIn cap b e = .ok { e with
      acc := keepLow (shiftInByte e.acc b) (e.bits.toNat + 3)
      bits := BitVec.ofNat 4 (e.bits.toNat + 3)
      icnt := e.icnt + 1
      olen := e.olen + 1
      eout := Memory.write e.eout e.olen (alpha (topSym (shiftInByte e.acc b) (e.bits.toNat + 8))) } := by
  unfold encTakeIn
  rw [symLoop_turn cap (e.bits.toNat + 7) _ _ (by omega) hi, symLoop_stop _ _ _ _ (by omega)]
  rfl

/-- `ENC.PUSH` with 2 to 4 live bits writes two symbols (R123). -/
theorem encTakeIn_two (cap : Option Nat) (b : Byte) (e : EncUnit) (hlo : 2 ≤ e.bits.toNat) (hhi : e.bits.toNat ≤ 4)
    (hi : hasIndex cap (e.olen + 1) = true) :
    encTakeIn cap b e = .ok { e with
      acc := keepLow (shiftInByte e.acc b) (e.bits.toNat - 2)
      bits := BitVec.ofNat 4 (e.bits.toNat - 2)
      icnt := e.icnt + 1
      olen := e.olen + 2
      eout := Memory.write
        (Memory.write e.eout e.olen (alpha (topSym (shiftInByte e.acc b) (e.bits.toNat + 8)))) (e.olen + 1)
        (alpha (topSym (shiftInByte e.acc b) (e.bits.toNat + 3))) } := by
  have h1 : e.bits.toNat + 8 - 5 = e.bits.toNat + 3 := by omega
  have h2 : e.bits.toNat + 3 - 5 = e.bits.toNat - 2 := by omega
  unfold encTakeIn
  rw [symLoop_turn cap (e.bits.toNat + 7) _ _ (by omega) (hasIndex_mono hi (by omega)), h1,
    symLoop_turn cap (e.bits.toNat + 6) _ _ (by omega) (by exact hi), h2, symLoop_stop _ _ _ _ (by omega),
    topSym_keepLow _ (by omega), keepLow_keepLow _ (by omega)]

/-- `ENC.FLUSH` with no live bits writes nothing (R128). -/
theorem encClose_none (cap : Option Nat) (e : EncUnit) (hb : e.bits.toNat = 0) :
    encClose cap e = .ok { e with acc := 0, bits := 0, phase := .done } := by
  simp [encClose, hb]

/-- `ENC.FLUSH` with live bits writes one padded symbol (R128). -/
theorem encClose_some (cap : Option Nat) (e : EncUnit) (hb : 0 < e.bits.toNat) (hi : hasIndex cap e.olen = true) :
    encClose cap e = .ok { e with
      acc := 0, bits := 0, phase := .done
      olen := e.olen + 1
      eout := Memory.write e.eout e.olen (alpha (padSym e.acc e.bits.toNat)) } := by
  simp [encClose, hb, emitSym_ok _ hi]

/-- `DEC.PUSH` of a valid character with 0 to 2 live bits writes no byte (R159). -/
theorem decShift_none (cap : Option Nat) (i : Sym) (d : DecUnit) (hb : d.bits.toNat ≤ 2) :
    decShift cap i d = .ok { d with
      acc := shiftInSym d.acc i, bits := BitVec.ofNat 4 (d.bits.toNat + 5) } := by
  unfold decShift
  rw [byteLoop_stop _ _ _ _ (by omega)]

/-- `DEC.PUSH` of a valid character with 3 to 7 live bits writes one byte (R159). -/
theorem decShift_one (cap : Option Nat) (i : Sym) (d : DecUnit) (hlo : 3 ≤ d.bits.toNat) (hhi : d.bits.toNat ≤ 7)
    (hi : hasIndex cap d.widx = true) :
    decShift cap i d = .ok { d with
      acc := keepLow (shiftInSym d.acc i) (d.bits.toNat - 3)
      bits := BitVec.ofNat 4 (d.bits.toNat - 3)
      widx := d.widx + 1
      dout := Memory.write d.dout d.widx (topByte (shiftInSym d.acc i) (d.bits.toNat + 5)) } := by
  have h1 : d.bits.toNat + 5 - 8 = d.bits.toNat - 3 := by omega
  unfold decShift
  rw [byteLoop_turn cap (d.bits.toNat + 4) _ _ (by omega) hi, h1, byteLoop_stop _ _ _ _ (by omega)]

/-- A character outside the alphabet only sets flags and counts (R158). -/
theorem decTakeIn_invalid (cap : Option Nat) (c : Byte) (d : DecUnit) (h : (lookup (normalise c)).valid = false) :
    decTakeIn cap c d = .ok { d with
      pfxok := pfxokAfter d.cnt (normalise c) d.pfxok
      errchar := errcharAfter d.badchar (normalise c) d.errchar
      badchar := true
      cnt := d.cnt + 1 } := by
  simp [decTakeIn, decRecord, h]

/-- After a bad character a valid one only counts (R160). -/
theorem decTakeIn_frozen (cap : Option Nat) (c : Byte) (d : DecUnit) (h : (lookup (normalise c)).valid = true)
    (hb : d.badchar = true) :
    decTakeIn cap c d = .ok { d with pfxok := pfxokAfter d.cnt (normalise c) d.pfxok, cnt := d.cnt + 1 } := by
  simp [decTakeIn, decRecord, h, hb]

/-- A valid character while all were valid runs the datapath and counts (R158). -/
theorem decTakeIn_valid {cap : Option Nat} {c : Byte} {d d' : DecUnit} (h : (lookup (normalise c)).valid = true)
    (hb : d.badchar = false)
    (hs : decShift cap (lookup (normalise c)).idx { d with pfxok := pfxokAfter d.cnt (normalise c) d.pfxok } = .ok d') :
    decTakeIn cap c d = .ok { d' with cnt := d'.cnt + 1 } := by
  unfold decTakeIn decRecord
  rw [if_neg (by simp [h]), if_pos hb, hs]

end Sys2Proof.Machine
end

