-- ==== Sys2Proof/Laws/Exec.lean ====
section
/-!
SUPPORT. Everything a command and a step can do: each command's outcome by the tests of spec/30_encoding.md R95, the frame of a
command (spec/10_state.md R26), and the cases of a step.
-/

namespace Sys2Proof.Machine

/-! ## Outcomes by the tests of R95 -/

theorem exec_ignored {i : Instr} {s : State} (h : s.illcmd = true ∨ unitFault i.unit s = true) : exec i s = .next s := by
  cases i with
  | encStart => unfold exec execEncStart; exact encCommand_ignored h
  | encPush b => unfold exec execEncPush; exact encCommand_ignored h
  | encFlush => unfold exec execEncFlush; exact encCommand_ignored h
  | decStart => unfold exec execDecStart; exact decCommand_ignored h
  | decPush c => unfold exec execDecPush; exact decCommand_ignored h
  | decEnd => unfold exec execDecEnd; exact decCommand_ignored h

theorem encCommand_seq {f : Bool} {body : EncUnit → Except Fault EncUnit} {s : State} (hi : s.illcmd = false)
    (hf : s.enc.fault = false) (hp : s.enc.phase ≠ .run) :
    encCommand true f body s = .next (raiseUnitFault .enc .seq s) := by
  simp only [encCommand]
  rw [admission_seq (u := .enc) hi hf hp]

theorem decCommand_seq {f : Bool} {body : DecUnit → Except Fault DecUnit} {s : State} (hi : s.illcmd = false)
    (hf : s.dec.fault = false) (hp : s.dec.phase ≠ .run) :
    decCommand true f body s = .next (raiseUnitFault .dec .seq s) := by
  simp only [decCommand]
  rw [admission_seq (u := .dec) hi hf hp]

theorem exec_seq {i : Instr} {s : State} (hi : s.illcmd = false) (hf : unitFault i.unit s = false)
    (hs : isStart i = false) (hp : unitPhase i.unit s ≠ .run) : exec i s = .next (raiseUnitFault i.unit .seq s) := by
  cases i with
  | encStart => cases hs
  | encPush b => exact encCommand_seq hi hf hp
  | encFlush => exact encCommand_seq hi hf hp
  | decStart => cases hs
  | decPush c => exact decCommand_seq hi hf hp
  | decEnd => unfold exec execDecEnd; exact decCommand_seq hi hf hp

theorem exec_ovf {i : Instr} {s : State} (hi : s.illcmd = false) (hf : unitFault i.unit s = false)
    (hp : unitPhase i.unit s = .run) (hfull : pushIsFull i s) : exec i s = .next (raiseUnitFault i.unit .ovf s) := by
  cases i with
  | encPush b =>
    simp only [exec, execEncPush, encCommand]
    rw [atLimit_eq_true.2 hfull, admission_ovf (u := .enc) hi hf hp]
    rfl
  | decPush c =>
    simp only [exec, execDecPush, decCommand]
    rw [atLimit_eq_true.2 hfull, admission_ovf (u := .dec) hi hf hp]
    rfl
  | encStart => exact hfull.elim
  | encFlush => exact hfull.elim
  | decStart => exact hfull.elim
  | decEnd => exact hfull.elim

theorem exec_encStart {s : State} (hi : s.illcmd = false) (hf : s.enc.fault = false) :
    exec .encStart s = .next { s with enc := encOpen s.enc } := by
  simp only [exec, execEncStart, encCommand]
  rw [admission_start (u := .enc) hi hf]

theorem exec_encPush {s : State} {b : Byte} {e : EncUnit} (hi : s.illcmd = false) (hf : s.enc.fault = false)
    (hp : s.enc.phase = .run) (hl : s.limits.maxBy ≠ some s.enc.icnt) (he : encTakeIn (capE s.limits) b s.enc = .ok e) :
    exec (.encPush b) s = .next { s with enc := e } := by
  simp only [exec, execEncPush, encCommand]
  rw [atLimit_eq_false.2 hl, admission_executes (u := .enc) hi hf hp]
  simp only [he]

theorem exec_encFlush {s : State} {e : EncUnit} (hi : s.illcmd = false) (hf : s.enc.fault = false)
    (hp : s.enc.phase = .run) (he : encClose (capE s.limits) s.enc = .ok e) :
    exec .encFlush s = .next { s with enc := e } := by
  simp only [exec, execEncFlush, encCommand]
  rw [admission_executes (u := .enc) hi hf hp]
  simp only [he]

theorem exec_decStart {s : State} (hi : s.illcmd = false) (hf : s.dec.fault = false) :
    exec .decStart s = .next { s with dec := decOpen s.dec } := by
  simp only [exec, execDecStart, decCommand]
  rw [admission_start (u := .dec) hi hf]

theorem exec_decPush {s : State} {c : Byte} {d : DecUnit} (hi : s.illcmd = false) (hf : s.dec.fault = false)
    (hp : s.dec.phase = .run) (hl : s.limits.maxCh ≠ some s.dec.cnt) (hd : decTakeIn (capD s.limits) c s.dec = .ok d) :
    exec (.decPush c) s = .next { s with dec := d } := by
  simp only [exec, execDecPush, decCommand]
  rw [atLimit_eq_false.2 hl, admission_executes (u := .dec) hi hf hp]
  simp only [hd]

theorem exec_decEnd {s : State} (hi : s.illcmd = false) (hf : s.dec.fault = false) (hp : s.dec.phase = .run) :
    exec .decEnd s = .next { s with dec := decClose s.dec } := by
  simp only [exec, execDecEnd, decCommand]
  rw [admission_executes (u := .dec) hi hf hp]

/-- If a command answers a next state, then it was ignored, it raised SEQ or OVF, or its own rule ran. -/
theorem exec_next {i : Instr} {s t : State} (h : exec i s = .next t) :
    (t = s ∧ (s.illcmd = true ∨ unitFault i.unit s = true)) ∨
    (s.illcmd = false ∧ unitFault i.unit s = false ∧ isStart i = false ∧ unitPhase i.unit s ≠ .run ∧
      t = raiseUnitFault i.unit .seq s) ∨
    (s.illcmd = false ∧ unitFault i.unit s = false ∧ unitPhase i.unit s = .run ∧ pushIsFull i s ∧
      t = raiseUnitFault i.unit .ovf s) ∨
    (s.illcmd = false ∧ unitFault i.unit s = false ∧ (isStart i = false → unitPhase i.unit s = .run) ∧
      ¬pushIsFull i s ∧ ExecutedBy i s t) := by
  cases i with
  | encStart =>
    unfold exec execEncStart at h
    rcases encCommand_next h with h | ⟨-, -, h, -⟩ | ⟨-, -, -, h, -⟩ | ⟨h1, h2, -, -, e, he, h3⟩
    · exact .inl h
    · cases h
    · cases h
    · cases he
      exact .inr (.inr (.inr ⟨h1, h2, fun hs => Bool.noConfusion hs, id, h3⟩))
  | encPush b =>
    unfold exec execEncPush at h
    rcases encCommand_next h with h | ⟨h1, h2, -, h3, h4⟩ | ⟨h1, h2, h3, h4, h5⟩ | ⟨h1, h2, h3, h4, e, he, h5⟩
    · exact .inl h
    · exact .inr (.inl ⟨h1, h2, rfl, h3, h4⟩)
    · exact .inr (.inr (.inl ⟨h1, h2, h3 rfl, atLimit_eq_true.1 h4, h5⟩))
    · exact .inr (.inr (.inr ⟨h1, h2, fun _ => h3 rfl, atLimit_eq_false.1 h4, e, he, h5⟩))
  | encFlush =>
    unfold exec execEncFlush at h
    rcases encCommand_next h with h | ⟨h1, h2, -, h3, h4⟩ | ⟨-, -, -, h, -⟩ | ⟨h1, h2, h3, -, e, he, h5⟩
    · exact .inl h
    · exact .inr (.inl ⟨h1, h2, rfl, h3, h4⟩)
    · cases h
    · exact .inr (.inr (.inr ⟨h1, h2, fun _ => h3 rfl, id, e, he, h5⟩))
  | decStart =>
    unfold exec execDecStart at h
    rcases decCommand_next h with h | ⟨-, -, h, -⟩ | ⟨-, -, -, h, -⟩ | ⟨h1, h2, -, -, d, hd, h3⟩
    · exact .inl h
    · cases h
    · cases h
    · cases hd
      exact .inr (.inr (.inr ⟨h1, h2, fun hs => Bool.noConfusion hs, id, h3⟩))
  | decPush c =>
    unfold exec execDecPush at h
    rcases decCommand_next h with h | ⟨h1, h2, -, h3, h4⟩ | ⟨h1, h2, h3, h4, h5⟩ | ⟨h1, h2, h3, h4, d, hd, h5⟩
    · exact .inl h
    · exact .inr (.inl ⟨h1, h2, rfl, h3, h4⟩)
    · exact .inr (.inr (.inl ⟨h1, h2, h3 rfl, atLimit_eq_true.1 h4, h5⟩))
    · exact .inr (.inr (.inr ⟨h1, h2, fun _ => h3 rfl, atLimit_eq_false.1 h4, d, hd, h5⟩))
  | decEnd =>
    unfold exec execDecEnd at h
    rcases decCommand_next h with h | ⟨h1, h2, -, h3, h4⟩ | ⟨-, -, -, h, -⟩ | ⟨h1, h2, h3, -, d, hd, h5⟩
    · exact .inl h
    · exact .inr (.inl ⟨h1, h2, rfl, h3, h4⟩)
    · cases h
    · cases hd
      exact .inr (.inr (.inr ⟨h1, h2, fun _ => h3 rfl, id, h5⟩))

/-! ## What a command leaves alone -/

/-- `ILLCMD`, the limits and the port are not written by a command. -/
theorem exec_frame {i : Instr} {s t : State} (h : exec i s = .next t) :
    t.illcmd = s.illcmd ∧ t.limits = s.limits ∧ t.port = s.port := by
  rcases exec_next h with ⟨rfl, -⟩ | ⟨-, -, -, -, rfl⟩ | ⟨-, -, -, -, rfl⟩ | ⟨-, -, -, -, hx⟩
  · exact ⟨rfl, rfl, rfl⟩
  · simp
  · simp
  · cases i with
    | encStart => obtain rfl := hx; exact ⟨rfl, rfl, rfl⟩
    | encPush b => obtain ⟨e, -, rfl⟩ := hx; exact ⟨rfl, rfl, rfl⟩
    | encFlush => obtain ⟨e, -, rfl⟩ := hx; exact ⟨rfl, rfl, rfl⟩
    | decStart => obtain rfl := hx; exact ⟨rfl, rfl, rfl⟩
    | decPush c => obtain ⟨d, -, rfl⟩ := hx; exact ⟨rfl, rfl, rfl⟩
    | decEnd => obtain rfl := hx; exact ⟨rfl, rfl, rfl⟩

/-- A command's outcome does not depend on the acts that the host has still to make. -/
theorem exec_port {i : Instr} {s t : State} (p : List HostAct) (h : exec i s = .next t) :
    exec i { s with port := p } = .next { t with port := p } := by
  cases i with
  | encStart => unfold exec execEncStart at h ⊢; exact encCommand_port _ _ _ _ _ p h
  | encPush b => unfold exec execEncPush at h ⊢; exact encCommand_port _ _ _ _ _ p h
  | encFlush => unfold exec execEncFlush at h ⊢; exact encCommand_port _ _ _ _ _ p h
  | decStart => unfold exec execDecStart at h ⊢; exact decCommand_port _ _ _ _ _ p h
  | decPush c => unfold exec execDecPush at h ⊢; exact decCommand_port _ _ _ _ _ p h
  | decEnd => unfold exec execDecEnd at h ⊢; exact decCommand_port _ _ _ _ _ p h

/-! ## Sequences and steps -/

@[simp] theorem execAll_nil (s : State) : execAll [] s = .next s := rfl

theorem execAll_cons {i : Instr} {is : List Instr} {s t : State} (h : exec i s = .next t) :
    execAll (i :: is) s = execAll is t := by simp [execAll, h]

theorem execAll_cons_next {i : Instr} {is : List Instr} {s t : State} (h : execAll (i :: is) s = .next t) :
    ∃ u, exec i s = .next u ∧ execAll is u = .next t := by
  unfold execAll at h
  split at h
  · next u hu => exact ⟨u, hu, h⟩
  · cases h
  · cases h

theorem execAll_append {is js : List Instr} {s t : State} (h : execAll is s = .next t) :
    execAll (is ++ js) s = execAll js t := by
  induction is generalizing s with
  | nil => cases h; rfl
  | cons i is ih =>
    obtain ⟨u, hu, h⟩ := execAll_cons_next h
    rw [List.cons_append, execAll_cons hu, ih h]

/-- A step with nothing issued changes nothing. -/
theorem step_idle {s : State} (h : s.port = []) : step s = .next s := by simp [step, nextOffer, h]

/-- A step on a reset act resets both units. -/
theorem step_reset {s : State} {rest : List HostAct} (h : s.port = .reset :: rest) :
    step s = .next (hardReset { s with port := rest }) := by simp [step, nextOffer, h]

/-- A step on any word while `ILLCMD` is set only takes the word. -/
theorem step_frozen {s : State} {w : CmdWord} {rest : List HostAct} (h : s.port = .word w :: rest)
    (hi : s.illcmd = true) : step s = .next { s with port := rest } := by simp [step, nextOffer, h, acceptWord, hi]

/-- A step on a reserved word raises IllegalCommand. -/
theorem step_reserved {s : State} {w : CmdWord} {rest : List HostAct} {r : ReservedClass} (h : s.port = .word w :: rest)
    (hi : s.illcmd = false) (hw : decode w = .reserved r) :
    step s = .next (raiseIllegal { s with port := rest }) := by simp [step, nextOffer, h, acceptWord, hi, hw]

/-- A step on a command word runs the command. -/
theorem step_word {s : State} {w : CmdWord} {rest : List HostAct} {i : Instr} (h : s.port = .word w :: rest)
    (hw : decode w = .instr i) : step s = exec i { s with port := rest } := by
  by_cases hi : s.illcmd = true
  · rw [step_frozen h hi, exec_ignored (.inl (show State.illcmd { s with port := rest } = true from hi))]
  · simp [step, nextOffer, h, acceptWord, hi, hw]

/-- Everything a step can do. -/
theorem step_cases {s t : State} (h : step s = .next t) :
    (s.port = [] ∧ t = s) ∨
    (∃ rest, s.port = .reset :: rest ∧ t = hardReset { s with port := rest }) ∨
    (∃ w rest, s.port = .word w :: rest ∧ s.illcmd = true ∧ t = { s with port := rest }) ∨
    (∃ w rest r, s.port = .word w :: rest ∧ s.illcmd = false ∧ decode w = .reserved r ∧
      t = raiseIllegal { s with port := rest }) ∨
    (∃ w rest i, s.port = .word w :: rest ∧ s.illcmd = false ∧ decode w = .instr i ∧
      exec i { s with port := rest } = .next t) := by
  match hp : s.port with
  | [] =>
    rw [step_idle hp] at h
    cases h
    exact .inl ⟨rfl, rfl⟩
  | .reset :: rest =>
    rw [step_reset hp] at h
    cases h
    exact .inr (.inl ⟨rest, rfl, rfl⟩)
  | .word w :: rest =>
    by_cases hi : s.illcmd = true
    · rw [step_frozen hp hi] at h
      cases h
      exact .inr (.inr (.inl ⟨w, rest, rfl, hi, rfl⟩))
    · have hi : s.illcmd = false := by simpa using hi
      match hw : decode w with
      | .reserved r =>
        rw [step_reserved hp hi hw] at h
        cases h
        exact .inr (.inr (.inr (.inl ⟨w, rest, r, rfl, hi, hw, rfl⟩)))
      | .instr i =>
        rw [step_word hp hw] at h
        exact .inr (.inr (.inr (.inr ⟨w, rest, i, rfl, hi, hw, h⟩)))

end Sys2Proof.Machine
end

