-- ==== Sys2Proof/Laws/Units.lean ====
section
/-!
SUPPORT. What the units' own rules leave alone, in every state: the loops and the emit operations write the datapath and the
buffer only; a command of one unit neither reads nor writes the other unit (spec/10_state.md R26).
-/

namespace Sys2Proof.Machine

/-! ## Unit ENC -/

/-- The loop of `ENC.PUSH` writes the accumulator, the counts of bits and symbols and the buffer only. -/
theorem symLoop_keeps {cap : Option Nat} {fuel : Nat} {a : Acc} {n : Nat} {e e' : EncUnit}
    (h : symLoop cap fuel a n e = .ok e') :
    e'.phase = e.phase ∧ e'.icnt = e.icnt ∧ e'.fault = e.fault ∧ e'.fcause = e.fcause := by
  induction fuel generalizing a n e with
  | zero =>
    cases h
    exact ⟨rfl, rfl, rfl, rfl⟩
  | succ fuel ih =>
    by_cases hn : n < 5
    · rw [symLoop_stop cap _ a e hn] at h
      cases h
      exact ⟨rfl, rfl, rfl, rfl⟩
    · simp only [symLoop, hn, if_false] at h
      split at h
      · cases h
      · next e1 he1 =>
        obtain ⟨-, rfl⟩ := emitSym_next he1
        have h1 := ih h
        exact h1

/-- `ENC.PUSH` keeps the phase and the fault registers, and counts one byte. -/
theorem encTakeIn_keeps {cap : Option Nat} {b : Byte} {e e' : EncUnit} (h : encTakeIn cap b e = .ok e') :
    e'.phase = e.phase ∧ e'.icnt = e.icnt + 1 ∧ e'.fault = e.fault ∧ e'.fcause = e.fcause := by
  unfold encTakeIn at h
  split at h
  · cases h
  · next e1 he1 =>
    cases h
    obtain ⟨h1, h2, h3, h4⟩ := symLoop_keeps he1
    exact ⟨h1, by rw [h2], h3, h4⟩

/-- `ENC.FLUSH` ends in DONE with no live bits and keeps the count of bytes and the fault registers. -/
theorem encClose_keeps {cap : Option Nat} {e e' : EncUnit} (h : encClose cap e = .ok e') :
    e'.phase = .done ∧ e'.acc = 0 ∧ e'.bits = 0 ∧ e'.icnt = e.icnt ∧ e'.fault = e.fault ∧ e'.fcause = e.fcause := by
  unfold encClose at h
  split at h
  · split at h
    · cases h
    · next e1 he1 =>
      obtain ⟨-, rfl⟩ := emitSym_next he1
      cases h
      exact ⟨rfl, rfl, rfl, rfl, rfl, rfl⟩
  · cases h
    exact ⟨rfl, rfl, rfl, rfl, rfl, rfl⟩

/-! ## Unit DEC -/

/-- The loop of `DEC.PUSH` writes the accumulator, the counts of bits and bytes and the buffer only. -/
theorem byteLoop_keeps {cap : Option Nat} {fuel : Nat} {a : Acc} {k : Nat} {d d' : DecUnit}
    (h : byteLoop cap fuel a k d = .ok d') :
    d' = { d with acc := d'.acc, bits := d'.bits, widx := d'.widx, dout := d'.dout } := by
  induction fuel generalizing a k d with
  | zero =>
    cases h
    rfl
  | succ fuel ih =>
    by_cases hk : k < 8
    · rw [byteLoop_stop cap _ a d hk] at h
      cases h
      rfl
    · simp only [byteLoop, hk, if_false] at h
      split at h
      · cases h
      · next d1 hd1 =>
        obtain ⟨-, rfl⟩ := emitByte_next hd1
        have h1 := ih h
        exact h1

/-- `DEC.PUSH` keeps the phase, the verdict, the published length and the fault registers; it counts one character, writes the
prefix check on the first only, and neither clears `D.BADCHAR` nor records a second bad character. -/
theorem decTakeIn_keeps {cap : Option Nat} {c : Byte} {d d' : DecUnit} (h : decTakeIn cap c d = .ok d') :
    d'.phase = d.phase ∧ d'.status = d.status ∧ d'.olen = d.olen ∧ d'.fault = d.fault ∧ d'.fcause = d.fcause ∧
      d'.cnt = d.cnt + 1 ∧ d'.pfxok = pfxokAfter d.cnt (normalise c) d.pfxok ∧
      (d.badchar = true → d'.badchar = true ∧ d'.errchar = d.errchar) := by
  by_cases hv : (lookup (normalise c)).valid = true
  · by_cases hb : d.badchar = true
    · rw [decTakeIn_frozen cap c d hv hb] at h
      cases h
      exact ⟨rfl, rfl, rfl, rfl, rfl, rfl, rfl, fun h => ⟨h, rfl⟩⟩
    · have hb' : d.badchar = false := by simpa using hb
      unfold decTakeIn decRecord at h
      rw [if_neg (by simp [hv]), if_pos hb'] at h
      split at h
      · cases h
      · next d1 hd1 =>
        have h1 := byteLoop_keeps hd1
        cases h
        rw [h1]
        exact ⟨rfl, rfl, rfl, rfl, rfl, rfl, rfl, fun h => absurd h hb⟩
  · have hv : (lookup (normalise c)).valid = false := by simpa using hv
    rw [decTakeIn_invalid cap c d hv] at h
    cases h
    exact ⟨rfl, rfl, rfl, rfl, rfl, rfl, rfl, fun h => ⟨rfl, by simp [errcharAfter, h]⟩⟩

/-- `DEC.PUSH` sets `D.BADCHAR` or leaves it, and records a character only when it sets it (R36, R38). -/
theorem decTakeIn_badchar {cap : Option Nat} {c : Byte} {d d' : DecUnit} (h : decTakeIn cap c d = .ok d') :
    (d'.badchar ≠ d.badchar → d'.badchar = true) ∧
      (d'.errchar ≠ d.errchar → d.badchar = false ∧ d'.badchar = true) := by
  cases hb : d.badchar with
  | true =>
    obtain ⟨h1, h2⟩ := (decTakeIn_keeps h).2.2.2.2.2.2.2 hb
    exact ⟨fun _ => h1, fun hne => absurd h2 hne⟩
  | false =>
    refine ⟨fun hne => by simpa using hne, fun hne => ⟨rfl, ?_⟩⟩
    cases hv : (lookup (normalise c)).valid with
    | false =>
      rw [decTakeIn_invalid cap c d hv] at h
      cases h
      rfl
    | true =>
      unfold decTakeIn decRecord at h
      rw [if_neg (by simp [hv]), if_pos hb] at h
      split at h
      · cases h
      · next d1 hd1 =>
        have h1 := byteLoop_keeps hd1
        cases h
        rw [h1] at hne
        exact absurd rfl hne

/-! ## One unit alone -/

/-- A command of ENC is a function of `ILLCMD`, the limits and unit ENC, and writes unit ENC only. -/
theorem exec_enc_only {i : Instr} (hu : i.unit = .enc) {s t : State} (h : exec i s = .next t) {s' : State}
    (hi : s'.illcmd = s.illcmd) (hl : s'.limits = s.limits) (he : s'.enc = s.enc) :
    t = { s with enc := t.enc } ∧ exec i s' = .next { s' with enc := t.enc } := by
  have hF : unitFault i.unit s' = unitFault i.unit s := by simp [hu, he]
  have hP : unitPhase i.unit s' = unitPhase i.unit s := by simp [hu, he]
  rcases exec_next h with ⟨rfl, hx⟩ | ⟨h1, h2, h3, h4, rfl⟩ | ⟨h1, h2, h3, h4, rfl⟩ | ⟨h1, h2, h3, h4, hx⟩
  · exact ⟨rfl, by rw [exec_ignored (s := s') (by rwa [hi, hF]), ← he]⟩
  · rw [exec_seq (s := s') (hi.trans h1) (hF.trans h2) h3 (by rwa [hP]), hu]
    exact ⟨rfl, by simp [raiseUnitFault, he]⟩
  · have h4' : pushIsFull i s' := by
      cases i <;> first | exact UnitSel.noConfusion hu | exact h4.elim | simpa only [pushIsFull, he, hl] using h4
    rw [exec_ovf (s := s') (hi.trans h1) (hF.trans h2) (hP.trans h3) h4', hu]
    exact ⟨rfl, by simp [raiseUnitFault, he]⟩
  · cases i with
    | encStart =>
      obtain rfl := hx
      exact ⟨rfl, by rw [exec_encStart (hi.trans h1) (by rw [he]; exact h2), he]⟩
    | encPush b =>
      obtain ⟨e, hx, rfl⟩ := hx
      exact ⟨rfl, exec_encPush (hi.trans h1) (by rw [he]; exact h2) (by rw [he]; exact h3 rfl)
        (by rw [he, hl]; exact h4) (by rw [he, hl]; exact hx)⟩
    | encFlush =>
      obtain ⟨e, hx, rfl⟩ := hx
      exact ⟨rfl, exec_encFlush (hi.trans h1) (by rw [he]; exact h2) (by rw [he]; exact h3 rfl)
        (by rw [he, hl]; exact hx)⟩
    | decStart => cases hu
    | decPush c => cases hu
    | decEnd => cases hu

/-- A command of DEC is a function of `ILLCMD`, the limits and unit DEC, and writes unit DEC only. -/
theorem exec_dec_only {i : Instr} (hu : i.unit = .dec) {s t : State} (h : exec i s = .next t) {s' : State}
    (hi : s'.illcmd = s.illcmd) (hl : s'.limits = s.limits) (hd : s'.dec = s.dec) :
    t = { s with dec := t.dec } ∧ exec i s' = .next { s' with dec := t.dec } := by
  have hF : unitFault i.unit s' = unitFault i.unit s := by simp [hu, hd]
  have hP : unitPhase i.unit s' = unitPhase i.unit s := by simp [hu, hd]
  rcases exec_next h with ⟨rfl, hx⟩ | ⟨h1, h2, h3, h4, rfl⟩ | ⟨h1, h2, h3, h4, rfl⟩ | ⟨h1, h2, h3, h4, hx⟩
  · exact ⟨rfl, by rw [exec_ignored (s := s') (by rwa [hi, hF]), ← hd]⟩
  · rw [exec_seq (s := s') (hi.trans h1) (hF.trans h2) h3 (by rwa [hP]), hu]
    exact ⟨rfl, by simp [raiseUnitFault, hd]⟩
  · have h4' : pushIsFull i s' := by
      cases i <;> first | exact UnitSel.noConfusion hu | exact h4.elim | simpa only [pushIsFull, hd, hl] using h4
    rw [exec_ovf (s := s') (hi.trans h1) (hF.trans h2) (hP.trans h3) h4', hu]
    exact ⟨rfl, by simp [raiseUnitFault, hd]⟩
  · cases i with
    | decStart =>
      obtain rfl := hx
      exact ⟨rfl, by rw [exec_decStart (hi.trans h1) (by rw [hd]; exact h2), hd]⟩
    | decPush c =>
      obtain ⟨d, hx, rfl⟩ := hx
      exact ⟨rfl, exec_decPush (hi.trans h1) (by rw [hd]; exact h2) (by rw [hd]; exact h3 rfl)
        (by rw [hd, hl]; exact h4) (by rw [hd, hl]; exact hx)⟩
    | decEnd =>
      obtain rfl := hx
      exact ⟨rfl, by rw [exec_decEnd (hi.trans h1) (by rw [hd]; exact h2) (by rw [hd]; exact h3 rfl), hd]⟩
    | encStart => cases hu
    | encPush b => cases hu
    | encFlush => cases hu

end Sys2Proof.Machine
end

