-- ==== Sys2Proof/Laws/Invariant.lean ====
section
/-!
SUPPORT. What the units' own rules do to a unit that meets the invariant of command boundaries: they run, and they keep it.
-/

namespace Sys2Proof.Machine

/-! ## Limits and capacities -/

theorem withinLimit_succ {limit : Option Nat} {n : Nat} (h : withinLimit limit n = true) (hl : limit ≠ some n) :
    withinLimit limit (n + 1) = true := by
  cases limit with
  | none => rfl
  | some c =>
    simp only [withinLimit, decide_eq_true_eq, ne_eq, Option.some.injEq] at *
    omega

theorem withinLimit_mono {limit : Option Nat} {m n : Nat} (h : withinLimit limit n = true) (hm : m ≤ n) :
    withinLimit limit m = true := by
  cases limit with
  | none => rfl
  | some c =>
    simp only [withinLimit, decide_eq_true_eq] at *
    omega

theorem ne_some_of_withinLimit {limit : Option Nat} {m n : Nat} (h : withinLimit limit n = true) (hm : m < n) :
    limit ≠ some m := by
  rintro rfl
  simp only [withinLimit, decide_eq_true_eq] at h
  omega

theorem hasIndex_capE {lim : Limits} {n k : Nat} (h : withinLimit lim.maxBy n = true) (hk : 5 * k < 8 * n) :
    hasIndex (capE lim) k = true := by
  unfold capE
  cases hm : lim.maxBy with
  | none => rfl
  | some c =>
    simp only [hm, withinLimit, decide_eq_true_eq, Option.map_some, hasIndex] at *
    omega

theorem hasIndex_capD {lim : Limits} {n k : Nat} (h : withinLimit lim.maxCh n = true) (hk : 8 * (k + 1) ≤ 5 * n) :
    hasIndex (capD lim) k = true := by
  unfold capD
  cases hm : lim.maxCh with
  | none => rfl
  | some c =>
    simp only [hm, withinLimit, decide_eq_true_eq, Option.map_some, hasIndex] at *
    omega

theorem toNat_ofNat4 {n : Nat} (h : n < 16) : (BitVec.ofNat 4 n).toNat = n := by
  rw [BitVec.toNat_ofNat]
  exact Nat.mod_eq_of_lt h

theorem bits_eq_ofNat {b : BitCount} {n : Nat} (h : b.toNat = n) : b = BitVec.ofNat 4 n := by
  rw [← h, BitVec.ofNat_toNat, BitVec.setWidth_eq]

theorem alpha_mem (i : Sym) : alpha i ∈ alphaTable := by
  revert i
  decide

/-! ## Unit ENC -/

theorem EncInv.acc_lt_16 {lim : Limits} {e : EncUnit} (h : EncInv lim e) : e.acc.toNat < 16 := by
  have h1 := h.acc_lt
  have h2 : (2 : Nat) ^ e.bits.toNat ≤ 2 ^ 4 := Nat.pow_le_pow_right (by decide) h.bits_le
  omega

/-- `E.OLEN <= ceil(8 * E.ICNT / 5)` in every phase (R70). -/
theorem EncInv.olen_le {lim : Limits} {e : EncUnit} (h : EncInv lim e) : e.olen ≤ (8 * e.icnt + 4) / 5 := by
  cases hp : e.phase with
  | idle =>
    have := (h.idle hp).2.2.2
    omega
  | run =>
    have := h.run hp
    omega
  | done => exact Nat.le_of_eq (h.done hp).2.2

theorem EncInv.reset (lim : Limits) : EncInv lim EncUnit.reset where
  bits_le := by decide
  acc_lt := by decide
  icnt_le := by cases h : lim.maxBy <;> simp [withinLimit, EncUnit.reset]
  idle := by decide
  run := by decide
  done := by decide
  eout_wf := by decide
  eout_within := by cases h : capE lim <;> simp [Memory.within, EncUnit.reset]
  eout_listed := by intro k hk; cases hk
  eout_alpha := by decide
  fault_iff := by decide
  seq := by decide
  ovf := by intro h; cases h

theorem EncInv.open {lim : Limits} {e : EncUnit} (h : EncInv lim e) (hf : e.fault = false) : EncInv lim (encOpen e) where
  bits_le := by simp
  acc_lt := by simp
  icnt_le := by cases h : lim.maxBy <;> simp [withinLimit]
  idle := by simp
  run := by simp
  done := by simp
  eout_wf := h.eout_wf
  eout_within := h.eout_within
  eout_listed := by intro k hk; cases hk
  eout_alpha := h.eout_alpha
  fault_iff := h.fault_iff
  seq := by
    intro hc
    rw [encOpen_fcause, h.fault_iff.1 hf] at hc
    cases hc
  ovf := by
    intro hc
    rw [encOpen_fcause, h.fault_iff.1 hf] at hc
    cases hc

theorem EncInv.raise {lim : Limits} {e : EncUnit} (h : EncInv lim e) {c : FCause} (hc : c ≠ .none)
    (hseq : c = .seq → e.phase ≠ .run) (hovf : c = .ovf → e.phase = .run ∧ lim.maxBy = some e.icnt) :
    EncInv lim { e with fault := true, fcause := c } :=
  { h with
    fault_iff := ⟨fun h => Bool.noConfusion h, fun h => absurd h hc⟩
    seq := hseq
    ovf := hovf }

/-- `ENC.PUSH` runs in an open call below its limit: one symbol with 0 or 1 live bits, two with 2 to 4 (R122, R123). -/
theorem EncInv.takeIn_ok {lim : Limits} {e : EncUnit} (h : EncInv lim e) (hp : e.phase = .run)
    (hl : lim.maxBy ≠ some e.icnt) (b : Byte) :
    (e.bits.toNat ≤ 1 ∧ hasIndex (capE lim) e.olen = true ∨
      2 ≤ e.bits.toNat ∧ hasIndex (capE lim) (e.olen + 1) = true) ∧
    ∃ e', encTakeIn (capE lim) b e = .ok e' := by
  have hw := withinLimit_succ h.icnt_le hl
  have hr := h.run hp
  have hb := h.bits_le
  by_cases hlo : e.bits.toNat ≤ 1
  · have hi : hasIndex (capE lim) e.olen = true := hasIndex_capE hw (by omega)
    exact ⟨.inl ⟨hlo, hi⟩, _, encTakeIn_one _ b e hlo hi⟩
  · have hi : hasIndex (capE lim) (e.olen + 1) = true := hasIndex_capE hw (by omega)
    exact ⟨.inr ⟨by omega, hi⟩, _, encTakeIn_two _ b e (by omega) hb hi⟩

/-- `ENC.PUSH` keeps the unit's invariant. -/
theorem EncInv.takeIn {lim : Limits} {e e' : EncUnit} {b : Byte} (h : EncInv lim e) (hp : e.phase = .run)
    (hf : e.fault = false) (hl : lim.maxBy ≠ some e.icnt) (he : encTakeIn (capE lim) b e = .ok e') : EncInv lim e' := by
  have hw := withinLimit_succ h.icnt_le hl
  have hr := h.run hp
  have hb := h.bits_le
  have hn := h.fault_iff.1 hf
  rcases (h.takeIn_ok hp hl b).1 with ⟨hlo, hi⟩ | ⟨hlo, hi⟩
  · rw [encTakeIn_one _ b e hlo hi] at he
    cases he
    have h4 : (BitVec.ofNat 4 (e.bits.toNat + 3)).toNat = e.bits.toNat + 3 := toNat_ofNat4 (by omega)
    exact {
      bits_le := by simp only [h4]; omega
      acc_lt := by simp only [h4]; exact keepLow_lt _ _
      icnt_le := hw
      idle := by simp [hp]
      run := by intro _; simp only [h4]; omega
      done := by simp [hp]
      eout_wf := Memory.wf_write _ _ _ h.eout_wf
      eout_within := Memory.within_write _ _ _ _ h.eout_within hi
      eout_listed := by
        intro k hk
        simp only [Memory.read_write]
        split
        · rfl
        · exact h.eout_listed k (by simp only at hk; omega)
      eout_alpha := Memory.all_write h.eout_alpha (alpha_mem _)
      fault_iff := h.fault_iff
      seq := by simp [hn]
      ovf := by simp [hn] }
  · rw [encTakeIn_two _ b e hlo hb hi] at he
    cases he
    have h4 : (BitVec.ofNat 4 (e.bits.toNat - 2)).toNat = e.bits.toNat - 2 := toNat_ofNat4 (by omega)
    exact {
      bits_le := by simp only [h4]; omega
      acc_lt := by simp only [h4]; exact keepLow_lt _ _
      icnt_le := hw
      idle := by simp [hp]
      run := by intro _; simp only [h4]; omega
      done := by simp [hp]
      eout_wf := Memory.wf_write _ _ _ (Memory.wf_write _ _ _ h.eout_wf)
      eout_within := Memory.within_write _ _ _ _
        (Memory.within_write _ _ _ _ h.eout_within (hasIndex_mono hi (by omega))) hi
      eout_listed := by
        intro k hk
        simp only [Memory.read_write]
        split
        · rfl
        · split
          · rfl
          · exact h.eout_listed k (by simp only at hk; omega)
      eout_alpha := Memory.all_write (Memory.all_write h.eout_alpha (alpha_mem _)) (alpha_mem _)
      fault_iff := h.fault_iff
      seq := by simp [hn]
      ovf := by simp [hn] }

/-- `ENC.FLUSH` runs in an open call: with live bits there is room for one more symbol (R128, R70). -/
theorem EncInv.close_ok {lim : Limits} {e : EncUnit} (h : EncInv lim e) (hp : e.phase = .run) :
    (0 < e.bits.toNat → hasIndex (capE lim) e.olen = true) ∧ ∃ e', encClose (capE lim) e = .ok e' := by
  have hr := h.run hp
  have hi : 0 < e.bits.toNat → hasIndex (capE lim) e.olen = true := fun h0 => hasIndex_capE h.icnt_le (by omega)
  refine ⟨hi, ?_⟩
  by_cases h0 : 0 < e.bits.toNat
  · exact ⟨_, encClose_some _ e h0 (hi h0)⟩
  · exact ⟨_, encClose_none _ e (by omega)⟩

/-- `ENC.FLUSH` keeps the unit's invariant. -/
theorem EncInv.close {lim : Limits} {e e' : EncUnit} (h : EncInv lim e) (hp : e.phase = .run) (hf : e.fault = false)
    (he : encClose (capE lim) e = .ok e') : EncInv lim e' := by
  have hr := h.run hp
  have hb := h.bits_le
  have hn := h.fault_iff.1 hf
  by_cases h0 : 0 < e.bits.toNat
  · have hi := (h.close_ok hp).1 h0
    rw [encClose_some _ e h0 hi] at he
    cases he
    exact {
      bits_le := by simp
      acc_lt := by simp
      icnt_le := h.icnt_le
      idle := by simp
      run := by simp
      done := by simp only [forall_const, true_and]; omega
      eout_wf := Memory.wf_write _ _ _ h.eout_wf
      eout_within := Memory.within_write _ _ _ _ h.eout_within hi
      eout_listed := by
        intro k hk
        simp only [Memory.read_write]
        split
        · rfl
        · exact h.eout_listed k (by simp only at hk; omega)
      eout_alpha := Memory.all_write h.eout_alpha (alpha_mem _)
      fault_iff := h.fault_iff
      seq := by simp
      ovf := by simp [hn] }
  · rw [encClose_none _ e (by omega)] at he
    cases he
    exact {
      bits_le := by simp
      acc_lt := by simp
      icnt_le := h.icnt_le
      idle := by simp
      run := by simp
      done := by simp only [forall_const, true_and]; omega
      eout_wf := h.eout_wf
      eout_within := h.eout_within
      eout_listed := h.eout_listed
      eout_alpha := h.eout_alpha
      fault_iff := h.fault_iff
      seq := by simp
      ovf := by simp [hn] }

/-! ## Unit DEC -/

theorem DecInv.acc_lt_128 {lim : Limits} {d : DecUnit} (h : DecInv lim d) : d.acc.toNat < 128 := by
  have h1 := h.acc_lt
  have h2 : (2 : Nat) ^ d.bits.toNat ≤ 2 ^ 7 := Nat.pow_le_pow_right (by decide) h.bits_le
  omega

theorem DecInv.reset (lim : Limits) : DecInv lim DecUnit.reset where
  bits_le := by decide
  acc_lt := by decide
  cnt_le := by cases h : lim.maxCh <;> simp [withinLimit, DecUnit.reset]
  widx_le := by decide
  idle := by decide
  run := by decide
  no_verdict := by decide
  done := by intro h; cases h
  done_widx := by decide
  no_char := by decide
  errchar_zero := by decide
  errchar_bad := by decide
  sentinel_acc := by decide
  sentinel_byte := by decide
  dout_wf := by decide
  dout_within := by cases h : capD lim <;> simp [Memory.within, DecUnit.reset]
  dout_listed := by intro k hk; cases hk
  fault_iff := by decide
  seq := by decide
  ovf := by intro h; cases h

theorem DecInv.open {lim : Limits} {d : DecUnit} (h : DecInv lim d) (hf : d.fault = false) : DecInv lim (decOpen d) where
  bits_le := by simp
  acc_lt := by simp
  cnt_le := by cases h : lim.maxCh <;> simp [withinLimit]
  widx_le := by simp
  idle := by simp
  run := by simp
  no_verdict := by simp
  done := by simp
  done_widx := by simp
  no_char := by simp
  errchar_zero := by simp
  errchar_bad := by simp
  sentinel_acc := by simp
  sentinel_byte := by simp
  dout_wf := h.dout_wf
  dout_within := h.dout_within
  dout_listed := by intro k hk; cases hk
  fault_iff := h.fault_iff
  seq := by
    intro hc
    rw [decOpen_fcause, h.fault_iff.1 hf] at hc
    cases hc
  ovf := by
    intro hc
    rw [decOpen_fcause, h.fault_iff.1 hf] at hc
    cases hc

theorem DecInv.raise {lim : Limits} {d : DecUnit} (h : DecInv lim d) {c : FCause} (hc : c ≠ .none)
    (hseq : c = .seq → d.phase ≠ .run) (hovf : c = .ovf → d.phase = .run ∧ lim.maxCh = some d.cnt) :
    DecInv lim { d with fault := true, fcause := c } :=
  { h with
    fault_iff := ⟨fun h => Bool.noConfusion h, fun h => absurd h hc⟩
    seq := hseq
    ovf := hovf }

/-- There is room for the byte that a valid character completes (R70). -/
theorem DecInv.room {lim : Limits} {d : DecUnit} (h : DecInv lim d) (hp : d.phase = .run) (hb : d.badchar = false)
    (hl : lim.maxCh ≠ some d.cnt) (h3 : 3 ≤ d.bits.toNat) : hasIndex (capD lim) d.widx = true := by
  have hr := h.run hp hb
  exact hasIndex_capD (withinLimit_succ h.cnt_le hl) (by omega)

/-- The datapath of `DEC.PUSH` runs in an open call below its limit. -/
theorem DecInv.shift_ok {lim : Limits} {d : DecUnit} (h : DecInv lim d) (hp : d.phase = .run) (hb : d.badchar = false)
    (hl : lim.maxCh ≠ some d.cnt) (i : Sym) (p : Bool) :
    ∃ d', decShift (capD lim) i { d with pfxok := p } = .ok d' := by
  by_cases h3 : 3 ≤ d.bits.toNat
  · exact ⟨_, decShift_one _ i { d with pfxok := p } h3 h.bits_le (h.room hp hb hl h3)⟩
  · exact ⟨_, decShift_none _ i { d with pfxok := p } (by show d.bits.toNat ≤ 2; omega)⟩

/-- `DEC.PUSH` runs in an open call below its limit. -/
theorem DecInv.takeIn_ok {lim : Limits} {d : DecUnit} (h : DecInv lim d) (hp : d.phase = .run)
    (hl : lim.maxCh ≠ some d.cnt) (c : Byte) : ∃ d', decTakeIn (capD lim) c d = .ok d' := by
  by_cases hv : (lookup (normalise c)).valid = true
  · by_cases hb : d.badchar = true
    · exact ⟨_, decTakeIn_frozen _ c d hv hb⟩
    · have hb : d.badchar = false := by simpa using hb
      obtain ⟨d', hd⟩ := h.shift_ok hp hb hl (lookup (normalise c)).idx (pfxokAfter d.cnt (normalise c) d.pfxok)
      exact ⟨_, decTakeIn_valid hv hb hd⟩
  · exact ⟨_, decTakeIn_invalid _ c d (by simpa using hv)⟩

theorem normalise_normalise (c : Byte) : normalise (normalise c) = normalise c := by
  revert c
  decide

theorem sentinel_lookup : lookup sentinel = { valid := true, idx := 25 } := by decide

theorem pfxokAfter_of_ne {cnt : Nat} {n : Byte} {old : Bool} (h : cnt ≠ 0) : pfxokAfter cnt n old = old := by
  simp [pfxokAfter, h]

/-- `DEC.PUSH` keeps the unit's invariant. -/
theorem DecInv.takeIn {lim : Limits} {d d' : DecUnit} {c : Byte} (h : DecInv lim d) (hp : d.phase = .run)
    (hf : d.fault = false) (hl : lim.maxCh ≠ some d.cnt) (hd : decTakeIn (capD lim) c d = .ok d') : DecInv lim d' := by
  have hw := withinLimit_succ h.cnt_le hl
  have hn := h.fault_iff.1 hf
  have hnv := h.no_verdict (by simp [hp])
  by_cases hv : (lookup (normalise c)).valid = true
  · by_cases hb : d.badchar = true
    · have hc0 : d.cnt ≠ 0 := fun h0 => by simp [(h.no_char h0).1] at hb
      rw [decTakeIn_frozen _ c d hv hb, pfxokAfter_of_ne hc0] at hd
      cases hd
      exact { h with
        cnt_le := hw
        widx_le := by have := h.widx_le; simp only; omega
        idle := by simp [hp]
        run := by simp [hb]
        done := by simp [hp]
        done_widx := by simp [hp]
        no_char := by simp
        sentinel_acc := by simp [hb]
        sentinel_byte := by simp [hb]
        ovf := by simp [hn] }
    · have hb : d.badchar = false := by simpa using hb
      have hr := h.run hp hb
      have hacc := h.acc_lt
      have ha128 := h.acc_lt_128
      have hb7 := h.bits_le
      have hpow : 2 ^ (d.bits.toNat + 5) = 2 ^ d.bits.toNat * 32 := by rw [Nat.pow_add]
      have hi := (lookup (normalise c)).idx.isLt
      have hpfx : d.cnt = 0 → pfxokAfter d.cnt (normalise c) d.pfxok = true → (lookup (normalise c)).idx = 25 := by
        intro h0 ht
        simp only [pfxokAfter, h0, if_true, beq_iff_eq] at ht
        rw [ht, sentinel_lookup]
      by_cases h3 : 3 ≤ d.bits.toNat
      · have hroom := h.room hp hb hl h3
        have hs := decShift_one (capD lim) (lookup (normalise c)).idx
          { d with pfxok := pfxokAfter d.cnt (normalise c) d.pfxok } h3 hb7 hroom
        rw [decTakeIn_valid hv hb hs] at hd
        cases hd
        have hc0 : d.cnt ≠ 0 := by omega
        have h4 : (BitVec.ofNat 4 (d.bits.toNat - 3)).toNat = d.bits.toNat - 3 := toNat_ofNat4 (by omega)
        exact {
          bits_le := by simp only [h4]; omega
          acc_lt := by simp only [h4]; exact keepLow_lt _ _
          cnt_le := hw
          widx_le := by simp only; omega
          idle := by simp [hp]
          run := by intro _ _; simp only [h4]; omega
          no_verdict := by simp [hnv]
          done := by simp [hp]
          done_widx := by simp [hp]
          no_char := by simp
          errchar_zero := h.errchar_zero
          errchar_bad := by simp [hb]
          sentinel_acc := by simp only; omega
          sentinel_byte := by
            simp only [pfxokAfter_of_ne hc0, Memory.read_write]
            intro hpf _ _
            split
            · next hw0 =>
              have hcnt : d.cnt = 1 := by omega
              have hb5 : d.bits.toNat = 5 := by omega
              have h25 := h.sentinel_acc hp hpf hb hcnt
              simp only [hb5, h25, Option.any_some]
              generalize (lookup (normalise c)).idx = i
              revert i
              decide
            · next hw0 => exact h.sentinel_byte hpf hb (by omega)
          dout_wf := Memory.wf_write _ _ _ h.dout_wf
          dout_within := Memory.within_write _ _ _ _ h.dout_within hroom
          dout_listed := by
            intro k hk
            simp only [Memory.read_write]
            split
            · rfl
            · exact h.dout_listed k (by simp only at hk; omega)
          fault_iff := h.fault_iff
          seq := by simp [hn]
          ovf := by simp [hn] }
      · have hs := decShift_none (capD lim) (lookup (normalise c)).idx
          { d with pfxok := pfxokAfter d.cnt (normalise c) d.pfxok } (by show d.bits.toNat ≤ 2; omega)
        rw [decTakeIn_valid hv hb hs] at hd
        cases hd
        have h4 : (BitVec.ofNat 4 (d.bits.toNat + 5)).toNat = d.bits.toNat + 5 := toNat_ofNat4 (by omega)
        exact {
          bits_le := by simp only [h4]; omega
          acc_lt := by simp only [h4, shiftInSym_toNat _ _ ha128, hpow]; omega
          cnt_le := hw
          widx_le := by simp only; omega
          idle := by simp [hp]
          run := by intro _ _; simp only [h4]; omega
          no_verdict := by simp [hnv]
          done := by simp [hp]
          done_widx := by simp [hp]
          no_char := by simp
          errchar_zero := h.errchar_zero
          errchar_bad := by simp [hb]
          sentinel_acc := by
            intro _ hpf _ hcnt
            have h0 : d.cnt = 0 := by simp only at hcnt; omega
            have hbits : d.bits.toNat = 0 := by omega
            have hacc0 : d.acc = 0 := by
              apply BitVec.eq_of_toNat_eq
              rw [hbits] at hacc
              show d.acc.toNat = 0
              omega
            show shiftInSym d.acc (lookup (normalise c)).idx = 25
            rw [hpfx h0 hpf, hacc0]
            decide
          sentinel_byte := by
            intro hpf hb' h2
            have hc0 : d.cnt ≠ 0 := by simp only at h2; omega
            rw [show pfxokAfter d.cnt (normalise c) d.pfxok = d.pfxok from pfxokAfter_of_ne hc0] at hpf
            exact h.sentinel_byte hpf hb (by simp only at h2; omega)
          dout_wf := h.dout_wf
          dout_within := h.dout_within
          dout_listed := h.dout_listed
          fault_iff := h.fault_iff
          seq := by simp [hn]
          ovf := by simp [hn] }
  · have hv : (lookup (normalise c)).valid = false := by simpa using hv
    rw [decTakeIn_invalid _ c d hv] at hd
    cases hd
    exact { h with
      cnt_le := hw
      widx_le := by have := h.widx_le; simp only; omega
      idle := by simp [hp]
      run := by simp
      done := by simp [hp]
      done_widx := by simp
      no_char := by simp
      errchar_zero := by simp
      errchar_bad := by
        intro _
        cases hb : d.badchar with
        | true => simpa [errcharAfter] using h.errchar_bad hb
        | false => simpa [errcharAfter, normalise_normalise] using hv
      sentinel_acc := by simp
      sentinel_byte := by simp
      ovf := by simp [hn] }

/-- `DEC.END` keeps the unit's invariant. -/
theorem DecInv.close {lim : Limits} {d : DecUnit} (h : DecInv lim d) (hp : d.phase = .run) (hf : d.fault = false) :
    DecInv lim (decClose d) := by
  have hn := h.fault_iff.1 hf
  exact { h with
    bits_le := by simp
    acc_lt := by simp
    idle := by simp
    run := by simp
    no_verdict := by simp
    done := by simp
    done_widx := by
      intro _ hb
      have := h.run hp hb
      have hb7 := h.bits_le
      simp only [decClose_widx, decClose_cnt]
      omega
    sentinel_acc := by simp
    seq := by simp
    ovf := by simp [hn] }

end Sys2Proof.Machine
end

