-- ==== Sys2Proof/Laws/Window.lean ====
section
/-!
SUPPORT. What the host reads through the two windows (spec/20_memory.md R66 to R68).
-/

namespace Sys2Proof.Machine

/-- A read of `EOUT` gives a value exactly below `E.OLEN`, where one has been written. -/
theorem readPort_eout {k : Nat} {s : State} {x : Byte} :
    readPort .eout k s = some x ↔ k < s.enc.olen ∧ Memory.read s.enc.eout k = some x := by
  by_cases h : k < s.enc.olen <;> simp [readPort, windowLen, h]

theorem readPort_eout_none {k : Nat} {s : State} (h : s.enc.olen ≤ k) : readPort .eout k s = none := by
  simp [readPort, windowLen, Nat.not_lt.2 h]

/-- The window of `DOUT` is open in DONE with verdict OK and no fault. -/
theorem doutWindowOpen_iff {d : DecUnit} :
    doutWindowOpen d = true ↔ d.phase = .done ∧ d.status = .ok ∧ d.fault = false := by
  simp [doutWindowOpen, and_assoc]

/-- A read of `DOUT` gives a value exactly in an open window below `D.OLEN`, where one has been written. -/
theorem readPort_dout {k : Nat} {s : State} {x : Byte} :
    readPort .dout k s = some x ↔
      doutWindowOpen s.dec = true ∧ k < s.dec.olen ∧ Memory.read s.dec.dout k = some x := by
  cases hw : doutWindowOpen s.dec with
  | false => simp [readPort, windowLen, hw]
  | true => by_cases h : k < s.dec.olen <;> simp [readPort, windowLen, hw, h]

theorem readPort_dout_closed {k : Nat} {s : State} (h : doutWindowOpen s.dec = false) : readPort .dout k s = none := by
  simp [readPort, windowLen, h]

theorem readPort_dout_none {k : Nat} {s : State} (h : s.dec.olen ≤ k) : readPort .dout k s = none := by
  cases hw : doutWindowOpen s.dec <;> simp [readPort, windowLen, hw, Nat.not_lt.2 h]

/-- An element that can be read is in the buffer's list. -/
theorem Memory.mem_of_read {m : Memory} {k : Nat} {x : Byte} (h : Memory.read m k = some x) : (k, x) ∈ m := by
  induction m with
  | nil => cases h
  | cons c m ih =>
    obtain ⟨a, y⟩ := c
    unfold Memory.read at h
    split at h
    · next hk =>
      cases h
      exact hk ▸ List.mem_cons_self
    · exact List.mem_cons_of_mem _ (ih h)

/-- A published length is never beyond the bytes written (R168). -/
theorem DecInv.olen_le_widx {lim : Limits} {d : DecUnit} (h : DecInv lim d) (hp : d.phase = .done)
    (hs : d.status = .ok) : d.olen ≤ d.widx := by
  obtain ⟨-, -, h1, h2⟩ := h.done hp
  have hb : d.badchar = false := by
    cases hb : d.badchar with
    | false => rfl
    | true => simp [hs, verdict, hb] at h1
  rw [h2, hs, h.done_widx hp hb]
  simp only [publishedLen]
  omega

end Sys2Proof.Machine
end

