-- ==== Sys2Proof/Laws/Codec.lean ====
section
/-!
SUPPORT. Bit strings as numbers, and their groups (spec/20_memory.md R63; spec/40_encoder.md R126, R130; spec/41_decoder.md R162,
R169).
-/

namespace Sys2Proof.Machine

/-! ## The number of a bit string -/

theorem bitsValue_foldl (v : Nat) (bits : List Bool) :
    bits.foldl (fun v b => 2 * v + b.toNat) v = v * 2 ^ bits.length + bitsValue bits := by
  unfold bitsValue
  induction bits generalizing v with
  | nil => simp
  | cons b bits ih =>
    rw [List.foldl_cons, ih, List.foldl_cons, ih (2 * 0 + b.toNat), List.length_cons, Nat.pow_succ]
    generalize 2 ^ bits.length = p
    have h : 2 * v * p = v * (p * 2) := by rw [Nat.mul_comm 2 v, Nat.mul_assoc, Nat.mul_comm 2 p]
    rw [Nat.add_mul, h, Nat.mul_zero, Nat.zero_add]
    omega

theorem bitsValue_append (l m : List Bool) : bitsValue (l ++ m) = bitsValue l * 2 ^ m.length + bitsValue m := by
  rw [← bitsValue_foldl, bitsValue, List.foldl_append]
  rfl

theorem bitsValue_lt (l : List Bool) : bitsValue l < 2 ^ l.length := by
  induction l with
  | nil => decide
  | cons b l ih =>
    have h := bitsValue_append [b] l
    have hb : bitsValue [b] ≤ 1 := by cases b <;> decide
    have hm : bitsValue [b] * 2 ^ l.length ≤ 1 * 2 ^ l.length := Nat.mul_le_mul_right _ hb
    rw [List.singleton_append] at h
    rw [h, List.length_cons, Nat.pow_succ]
    omega

theorem bitsValue_replicate_false (n : Nat) : bitsValue (List.replicate n false) = 0 := by
  induction n with
  | zero => rfl
  | succ n ih =>
    rw [List.replicate_succ', bitsValue_append, ih]
    rfl

/-- The bits from place `n` on are the number's remainder. -/
theorem bitsValue_drop (l : List Bool) (n : Nat) : bitsValue (l.drop n) = bitsValue l % 2 ^ (l.length - n) := by
  have h := bitsValue_append (l.take n) (l.drop n)
  have hlt := bitsValue_lt (l.drop n)
  rw [List.take_append_drop, List.length_drop] at h
  rw [List.length_drop] at hlt
  rw [h, Nat.mul_comm, Nat.mul_add_mod, Nat.mod_eq_of_lt hlt]

/-- The first `n` bits are the number's quotient. -/
theorem bitsValue_take (l : List Bool) {n : Nat} : bitsValue (l.take n) = bitsValue l / 2 ^ (l.length - n) := by
  have h := bitsValue_append (l.take n) (l.drop n)
  have hlt := bitsValue_lt (l.drop n)
  rw [List.take_append_drop, List.length_drop] at h
  rw [List.length_drop] at hlt
  rw [h, Nat.mul_comm, Nat.mul_add_div (Nat.two_pow_pos _), Nat.div_eq_of_lt hlt, Nat.add_zero]

/-- A whole group of bits as digits of the number. -/
theorem bitsValue_bitGroup (l : List Bool) {width k : Nat} (h : width * k + width ≤ l.length) :
    bitsValue (bitGroup l width k) = bitsValue l / 2 ^ (l.length - width * (k + 1)) % 2 ^ width := by
  have hk : width * (k + 1) = width * k + width := Nat.mul_succ width k
  unfold bitGroup
  rw [bitsValue_take, bitsValue_drop, List.length_drop,
    show l.length - width * k - width = l.length - width * (k + 1) by omega,
    show l.length - width * k = l.length - width * (k + 1) + width by omega,
    Nat.pow_add, Nat.mod_mul_right_div_self]

/-- A whole group of the first part of a bit string is a group of that part. -/
theorem bitGroup_append (l m : List Bool) {width k : Nat} (h : width * k + width ≤ l.length) :
    bitGroup (l ++ m) width k = bitGroup l width k := by
  unfold bitGroup
  rw [List.drop_append_of_le_length (by omega), List.take_append_of_le_length (by rw [List.length_drop]; omega)]

/-! ## Bytes and symbols as bits -/

theorem bits8_append (l m : List Byte) : bits8 (l ++ m) = bits8 l ++ bits8 m := by simp [bits8]

@[simp] theorem bits8_length (l : List Byte) : (bits8 l).length = 8 * l.length := by
  induction l with
  | nil => rfl
  | cons b l ih =>
    rw [← List.singleton_append, bits8_append, List.length_append, ih, List.length_append, Nat.mul_add]
    rfl

theorem bitsValue_bits8_single (b : Byte) : bitsValue (bits8 [b]) = b.toNat := by
  have h : ∀ hi lo : BitVec 4, bitsValue (bits8 [hi ++ lo]) = (hi ++ lo).toNat := by decide
  have hb : b.extractLsb' 4 4 ++ b.extractLsb' 0 4 = b := by
    ext k hk
    simp only [BitVec.getElem_append]
    split
    · simpa using BitVec.getLsbD_eq_getElem hk
    · simpa [show 4 + (k - 4) = k by omega] using BitVec.getLsbD_eq_getElem hk
  rw [← hb]
  exact h _ _

theorem bitsValue_bits8_append (l : List Byte) (b : Byte) :
    bitsValue (bits8 (l ++ [b])) = bitsValue (bits8 l) * 256 + b.toNat := by
  rw [bits8_append, bitsValue_append, bitsValue_bits8_single, bits8_length, List.length_singleton, show 2 ^ (8 * 1) = 256 from rfl]

theorem bits5_append (l m : List Sym) : bits5 (l ++ m) = bits5 l ++ bits5 m := by simp [bits5]

@[simp] theorem bits5_length (l : List Sym) : (bits5 l).length = 5 * l.length := by
  induction l with
  | nil => rfl
  | cons i l ih =>
    rw [← List.singleton_append, bits5_append, List.length_append, ih, List.length_append, Nat.mul_add]
    rfl

theorem bitsValue_bits5_single (i : Sym) : bitsValue (bits5 [i]) = i.toNat := by
  revert i
  decide

theorem bitsValue_bits5_append (l : List Sym) (i : Sym) :
    bitsValue (bits5 (l ++ [i])) = bitsValue (bits5 l) * 32 + i.toNat := by
  rw [bits5_append, bitsValue_append, bitsValue_bits5_single, bits5_length, List.length_singleton, show 2 ^ (5 * 1) = 32 from rfl]

@[simp] theorem indicesOf_length (text : List Byte) : (indicesOf text).length = text.length := by simp [indicesOf]

theorem indicesOf_append (l m : List Byte) : indicesOf (l ++ m) = indicesOf l ++ indicesOf m := by simp [indicesOf]

/-! ## Digits -/

/-- Bits above a digit do not change it. -/
theorem mod_div_mod {x a b c : Nat} (h : b + c ≤ a) : x % 2 ^ a / 2 ^ b % 2 ^ c = x / 2 ^ b % 2 ^ c := by
  obtain ⟨d, rfl⟩ : ∃ d, a = b + (c + d) := ⟨a - b - c, by omega⟩
  rw [Nat.pow_add 2 b, Nat.mod_mul_right_div_self, Nat.pow_add 2 c, Nat.mod_mul_right_mod]

/-- Masking twice masks to the fewer bits. -/
theorem mod_mod_pow {x a b : Nat} (h : b ≤ a) : x % 2 ^ a % 2 ^ b = x % 2 ^ b :=
  Nat.mod_mod_of_dvd _ (Nat.pow_dvd_pow 2 h)

/-- Shifting live bits left and adding new ones below commutes with masking. -/
theorem mod_mul_add_mod {x y a c : Nat} (h : y < 2 ^ c) :
    (x % 2 ^ a) * 2 ^ c + y = (x * 2 ^ c + y) % 2 ^ (a + c) := by
  have h1 := Nat.mod_lt x (Nat.two_pow_pos a)
  have h2 : x * 2 ^ c + y = 2 ^ (a + c) * (x / 2 ^ a) + ((x % 2 ^ a) * 2 ^ c + y) := by
    have h3 := congrArg (· * 2 ^ c) (Nat.div_add_mod x (2 ^ a))
    simp only [Nat.add_mul] at h3
    rw [← h3, Nat.pow_add, Nat.mul_right_comm, Nat.add_assoc]
  have h4 : (x % 2 ^ a) * 2 ^ c + y < 2 ^ (a + c) := by
    have h5 : (x % 2 ^ a + 1) * 2 ^ c ≤ 2 ^ a * 2 ^ c := Nat.mul_le_mul_right _ h1
    rw [Nat.pow_add]
    rw [Nat.add_mul] at h5
    omega
  rw [h2, Nat.mul_add_mod, Nat.mod_eq_of_lt h4]

/-- The window of `EOUT` when every element below `E.OLEN` is known. -/
theorem window_eout {s : State} {f : Nat → Byte} (h : ∀ k, k < s.enc.olen → Memory.read s.enc.eout k = some (f k)) :
    window .eout s = (List.range s.enc.olen).map f := by
  unfold window
  rw [← List.filterMap_eq_map]
  apply List.filterMap_congr
  intro k hk
  have hk : k < s.enc.olen := List.mem_range.1 hk
  exact readPort_eout.2 ⟨hk, h k hk⟩

/-- An open window of `DOUT` when every byte below `D.OLEN` is known. -/
theorem window_dout {s : State} {f : Nat → Byte} (ho : doutWindowOpen s.dec = true)
    (h : ∀ k, k < s.dec.olen → Memory.read s.dec.dout k = some (f k)) :
    window .dout s = (List.range s.dec.olen).map f := by
  unfold window
  rw [show windowLen .dout s = s.dec.olen by simp [windowLen, ho], ← List.filterMap_eq_map]
  apply List.filterMap_congr
  intro k hk
  have hk : k < s.dec.olen := List.mem_range.1 hk
  exact readPort_dout.2 ⟨ho, hk, h k hk⟩

/-- A closed window of `DOUT` is empty. -/
theorem window_dout_closed {s : State} (h : doutWindowOpen s.dec = false) : window .dout s = [] := by
  simp [window, windowLen, h]

end Sys2Proof.Machine
end

