-- ==== Sys2Proof/Laws/PerInstr.lean ====
section
/-!
SUPPORT. A fact about every command as syntax, one lemma per constructor: the fields split off its word are the fields it was
made of, they are well formed, and bit 10 names its unit (spec/30_encoding.md R91).
-/

namespace Sys2Proof.Laws.WordFields

/-- The word of a command holds its fields. -/
def Statement (i : Instr) : Prop :=
  splitWord (encode i) = instrFields i ∧ (instrFields i).wellFormed = true ∧
    ((encode i).getLsbD 10 = true ↔ i.unit = .dec)

theorem encStart : Statement .encStart := by unfold Statement; decide

theorem encPush (b : Byte) : Statement (.encPush b) := by
  unfold Statement
  revert b
  decide

theorem encFlush : Statement .encFlush := by unfold Statement; decide

theorem decStart : Statement .decStart := by unfold Statement; decide

theorem decPush (c : Byte) : Statement (.decPush c) := by
  unfold Statement
  revert c
  decide

theorem decEnd : Statement .decEnd := by unfold Statement; decide

end Sys2Proof.Laws.WordFields
end

