-- ==== Sys2Proof/Tests/Slice0.lean ====
section
/-!
SUPPORT. Tests of single words and single commands, with expected results from spec/95_test_vectors.md (the identifiers V-...
name the vector) or from the encodings of spec/30_encoding.md R91 and R94; and, for every statement with hypotheses, concrete
states and operands that meet them.
-/

namespace Sys2Proof.Tests

open Sys2Proof Sys2Proof.Machine

/-- The state after some commands from reset, for the given limits. -/
def after (lim : Limits) (is : List Instr) : State :=
  (nextOf (execAll is (State.resetWith lim))).getD (State.resetWith lim)

/-- Both units in an open call, one element taken in by each. -/
def opened : State := after .unbounded [.encStart, .encPush 0x01, .decStart, .decPush 0x53]

/-- Both units in an open call at their limits: `MAXBY = 1` and `MAXCH = 2` (V-F9, V-F10). -/
def full : State :=
  after { maxBy := some 1, maxCh := some 2 } [.encStart, .encPush 0x01, .decStart, .decPush 0x53, .decPush 0x30]

/-- Both units below their limits of 1 in an open call. -/
def roomForOne : State := after { maxBy := some 1, maxCh := some 1 } [.encStart, .decStart]

/-- Both units with a completed call: `ENCODE [0x01]` and `DECODE "S00000"` (V-E4, V-D1). -/
def closed : State :=
  after .unbounded [.encStart, .encPush 0x01, .encFlush, .decStart, .decPush 0x53, .decPush 0x30, .decPush 0x30,
    .decPush 0x30, .decPush 0x30, .decPush 0x30, .decEnd]

/-- A decode call with a bad character taken in (V-D39). -/
def spoilt : State := after .unbounded [.decStart, .decPush 0x2A]

/-- Both units faulted, cause SEQ (V-F1, V-F4). -/
def faulted : State := after .unbounded [.encPush 0x00, .decEnd]

/-- Both units faulted, cause OVF (V-F9, V-F10). -/
def overflowed : State :=
  after { maxBy := some 1, maxCh := some 2 }
    [.encStart, .encPush 0x01, .encPush 0x02, .decStart, .decPush 0x53, .decPush 0x30, .decPush 0x30]

/-- The block frozen by a reserved word (V-F7). -/
def frozen : State := { State.reset with illcmd := true }

/-! ## Well-formedness: one ill-formed term for each check -/

theorem test_wellFormed_accepts : ({ z := 0, unit := 1, fn := 2, data := 0xE9 } : Fields).wellFormed = true := by decide

theorem test_wellFormed_refuses_bit11 : ({ z := 1, unit := 0, fn := 2, data := 0x00 } : Fields).wellFormed = false := by
  decide

theorem test_wellFormed_refuses_fn_zero : ({ z := 0, unit := 0, fn := 0, data := 0x00 } : Fields).wellFormed = false := by
  decide

theorem test_wellFormed_refuses_data : ({ z := 0, unit := 1, fn := 3, data := 0x80 } : Fields).wellFormed = false := by
  decide

/-! ## Words written out from the encoding (R91, R94; V-C1 to V-C10) -/

theorem test_decode_encStart : decode 0b0_0_01_00000000#12 = .instr .encStart := by decide

theorem test_decode_encPush_FF : decode 0b0_0_10_11111111#12 = .instr (.encPush 0xFF) := by decide

theorem test_decode_encPush_01 : decode 0b0_0_10_00000001#12 = .instr (.encPush 0x01) := by decide

theorem test_decode_encFlush : decode 0b0_0_11_00000000#12 = .instr .encFlush := by decide

theorem test_decode_decStart : decode 0b0_1_01_00000000#12 = .instr .decStart := by decide

theorem test_decode_decPush_S : decode 0b0_1_10_01010011#12 = .instr (.decPush 0x53) := by decide

theorem test_decode_decPush_80 : decode 0b0_1_10_10000000#12 = .instr (.decPush 0x80) := by decide

theorem test_decode_decEnd : decode 0b0_1_11_00000000#12 = .instr .decEnd := by decide

theorem test_decode_reserved :
    decode 0x000#12 = .reserved .fnZero ∧ decode 0x4AB#12 = .reserved .fnZero ∧ decode 0x101#12 = .reserved .dataNotZero ∧
      decode 0x3FF#12 = .reserved .dataNotZero ∧ decode 0x900#12 = .reserved .bit11Set ∧
      decode 0xFFF#12 = .reserved .bit11Set := by decide

theorem test_table_word : decodeTableWord 12 0x2FF = some (.encPush 0xFF) ∧ decodeTableWord 12 0x1100 = none := by decide

/-! ## Single commands -/

/-- V-E20: one symbol, `V`. -/
theorem test_encPush_one_symbol :
    (nextOf (execAll [.encStart, .encPush 0xDE] State.reset)).map
      (fun t => (t.enc.acc, t.enc.bits, t.enc.icnt, t.enc.eout)) = some (6, 3, 1, [(0, 0x56)]) := by decide

/-- V-E20 to V-E23: the byte after three others, two symbols, `n` at its maximum of 12. -/
theorem test_encPush_two_symbols :
    (nextOf (execAll [.encStart, .encPush 0xDE, .encPush 0xAD, .encPush 0xBE, .encPush 0xEF] State.reset)).map
      (fun t => (t.enc.acc, t.enc.bits, t.enc.olen, window .eout t)) =
      some (3, 2, 6, [0x56, 0x54, 0x50, 0x56, 0x58, 0x56]) := by decide

/-- V-E3: the last symbol is the left-over bits and then zeros. -/
theorem test_encFlush_pads :
    (nextOf (execAll (encodeCall [0xFF]) State.reset)).map (fun t => (t.enc.phase, t.enc.acc, t.enc.bits, window .eout t)) =
      some (.done, 0, 0, [0x5A, 0x57]) := by decide

/-- V-E11: with no left-over bits nothing is written. -/
theorem test_encFlush_no_bits :
    (nextOf (execAll (encodeCall [0x00, 0x44, 0x32, 0x14, 0xC7]) State.reset)).map (fun t => (t.enc.olen, window .eout t)) =
      some (8, [0x30, 0x31, 0x32, 0x33, 0x34, 0x35, 0x36, 0x37]) := by decide

/-- R121: a START abandons the open call. -/
theorem test_encStart_abandons :
    (nextOf (exec .encStart opened)).map (fun t => (t.enc.phase, t.enc.acc, t.enc.bits, t.enc.icnt, t.enc.olen)) =
      some (.run, 0, 0, 0, 0) := by decide

/-- V-F5: a faulted unit ignores `START`. -/
theorem test_encStart_faulted : nextOf (exec .encStart faulted) = some faulted := by decide

/-- V-D31: the second character completes the first byte. -/
theorem test_decPush_byte :
    (nextOf (execAll [.decStart, .decPush 0x53, .decPush 0x31] State.reset)).map
      (fun t => (t.dec.acc, t.dec.bits, t.dec.cnt, t.dec.pfxok)) = some (1, 2, 2, true) ∧
    (nextOf (execAll [.decStart, .decPush 0x53, .decPush 0x31] State.reset)).map (fun t => t.dec.dout) =
      some [(0, 0xC8)] := by decide

/-- V-D36, V-D38: a bad character freezes the datapath; a second one is not recorded. -/
theorem test_decPush_bad :
    (nextOf (execAll [.decStart, .decPush 0x53, .decPush 0x30, .decPush 0x30, .decPush 0x30, .decPush 0x2A, .decPush 0x55]
      State.reset)).map (fun t => (t.dec.acc, t.dec.bits, t.dec.widx, t.dec.badchar, t.dec.errchar, t.dec.cnt)) =
      some (0, 4, 2, true, 0x2A, 6) := by decide

/-- V-D4: case and confusable characters. -/
theorem test_decEnd_ok :
    (nextOf (execAll (decodeCall [0x73, 0x4F, 0x69, 0x4C, 0x6F, 0x30]) State.reset)).map
      (fun t => (t.dec.status, t.dec.olen, window .dout t)) = some (.ok, 3, [0xC8, 0x02, 0x10]) := by decide

/-- V-D10: one character short, nothing is readable. -/
theorem test_decEnd_short :
    (nextOf (execAll (decodeCall [0x53, 0x30, 0x30, 0x30, 0x30]) State.reset)).map
      (fun t => (t.dec.status, t.dec.olen, t.dec.widx, window .dout t)) = some (.invLen, 0, 3, []) := by decide

/-- V-F11: a START abandons the open call, no fault. -/
theorem test_decStart_abandons :
    (nextOf (exec .decStart spoilt)).map
      (fun t => (t.dec.phase, t.dec.cnt, t.dec.badchar, t.dec.errchar, t.dec.status, t.dec.fault)) =
      some (.run, 0, false, 0x00, .none, false) := by decide

/-- V-F6: the other unit works on. -/
theorem test_decStart_other_unit :
    (nextOf (execAll [.encFlush, .decStart] State.reset)).map (fun t => (t.enc.fault, t.dec.phase, t.dec.fault)) =
      some (true, .run, false) := by decide

/-- V-F9: the byte beyond the limit is not taken in. -/
theorem test_ovf :
    (nextOf (exec (.encPush 0x02) full)).map
      (fun t => (t.enc.fault, t.enc.fcause, t.enc.icnt, t.enc.acc, t.enc.bits)) = some (true, .ovf, 1, 1, 3) := by decide

/-- V-F7, V-F8: a reserved word freezes the block, then any word is ignored. -/
theorem test_illegal :
    nextOf (step { State.reset with port := [.word 0x101, .word 0x500] }) = some { frozen with port := [.word 0x500] } ∧
      nextOf (step { frozen with port := [.word 0x500] }) = some frozen := by decide

/-! ## States at a command boundary -/

theorem opened_inv : opened.Inv := ⟨by constructor <;> decide, by constructor <;> decide⟩

theorem full_inv : full.Inv := ⟨by constructor <;> decide, by constructor <;> decide⟩

theorem roomForOne_inv : roomForOne.Inv := ⟨by constructor <;> decide, by constructor <;> decide⟩

theorem closed_inv : closed.Inv := ⟨by constructor <;> decide, by constructor <;> decide⟩

theorem spoilt_inv : spoilt.Inv := ⟨by constructor <;> decide, by constructor <;> decide⟩

theorem faulted_inv : faulted.Inv := ⟨by constructor <;> decide, by constructor <;> decide⟩

theorem overflowed_inv : overflowed.Inv := ⟨by constructor <;> decide, by constructor <;> decide⟩

theorem frozen_inv : frozen.Inv := ⟨EncInv.reset _, DecInv.reset _⟩

/-! ## Witnesses: states and operands that meet the hypotheses of the statements, clause by clause -/

/-- The state `s` with these words issued. -/
def issue (s : State) (ws : List CmdWord) : State := { s with port := ws.map .word }

theorem issue_inv {s : State} (h : s.Inv) (ws : List CmdWord) : (issue s ws).Inv := ⟨h.enc, h.dec⟩

/-- Of EveryDecodedWordIsItsCommandsWord and StepTakesTheHostsNextAct and IssuedTableWordRunsNext. -/
theorem witness_decodes :
    decode 0x100#12 = .instr .encStart ∧ decode 0x6FF#12 = .instr (.decPush 0xFF) ∧
      decodeTableWord 12 0x700 = some .decEnd ∧ State.reset.port = [] ∧
      (issue State.reset [0x100]).port = [.word 0x100] := by decide

/-- Of ReservedWordsAreTheThreeClasses, IllegalCommandFreezesTheBlock and clause 2 of StepMakesTheTestsInOrder; 0xFFF is the
last reserved word and 0x000 the first. -/
theorem witness_reserved :
    (issue State.reset [0x000]).Inv ∧ (issue State.reset [0x000]).port = [.word 0x000] ∧
      (issue State.reset [0x000]).illcmd = false ∧ decode 0x000#12 = .reserved .fnZero ∧
      decode 0xFFF#12 = .reserved .bit11Set :=
  ⟨issue_inv ⟨EncInv.reset _, DecInv.reset _⟩ _, by decide, by decide, by decide, by decide⟩

/-- Of the clauses of AlphabetEntriesAreDistinct and ReverseTableInvertsTheAlphabet. -/
theorem witness_tables : alpha 31 = alpha 31 ∧ (rev 0x5A).valid = true ∧ (rev 0x55).valid = false := by decide

/-- Of StepMakesTheTestsInOrder, step 1, and of IllegalCommandFreezesTheBlock, clause 2. -/
theorem witness_step_frozen : (issue frozen [0x100]).Inv ∧ (issue frozen [0x100]).port = [.word 0x100] ∧
    (issue frozen [0x100]).illcmd = true :=
  ⟨issue_inv frozen_inv _, by decide, by decide⟩

/-- Of StepMakesTheTestsInOrder, step 3. -/
theorem witness_step_faulted : (issue faulted [0x500]).Inv ∧ (issue faulted [0x500]).port = [.word 0x500] ∧
    (issue faulted [0x500]).illcmd = false ∧ decode 0x500#12 = .instr .decStart ∧
    unitFault .dec (issue faulted [0x500]) = true :=
  ⟨issue_inv faulted_inv _, by decide, by decide, by decide, by decide⟩

/-- Of StepMakesTheTestsInOrder, step 4: a second FLUSH (V-F3). -/
theorem witness_step_seq : (issue closed [0x300]).Inv ∧ (issue closed [0x300]).port = [.word 0x300] ∧
    (issue closed [0x300]).illcmd = false ∧ decode 0x300#12 = .instr .encFlush ∧ isStart .encFlush = false ∧
    unitFault .enc (issue closed [0x300]) = false ∧ unitPhase .enc (issue closed [0x300]) ≠ .run :=
  ⟨issue_inv closed_inv _, by decide, by decide, by decide, by decide, by decide, by decide⟩

/-- Of StepMakesTheTestsInOrder, step 5: the byte after the last allowed one (V-F9). -/
theorem witness_step_ovf : (issue full [0x202]).Inv ∧ (issue full [0x202]).port = [.word 0x202] ∧
    (issue full [0x202]).illcmd = false ∧ decode 0x202#12 = .instr (.encPush 0x02) ∧
    unitFault .enc (issue full [0x202]) = false ∧ unitPhase .enc (issue full [0x202]) = .run ∧
    pushIsFull (.encPush 0x02) (issue full [0x202]) :=
  ⟨issue_inv full_inv _, by decide, by decide, by decide, by decide, by decide,
    show (issue full [0x202]).limits.maxBy = some (issue full [0x202]).enc.icnt by decide⟩

/-- Of StepMakesTheTestsInOrder, step 6: the last allowed character, and a START outside a call. -/
theorem witness_step_executes :
    ((issue roomForOne [0x655]).Inv ∧ (issue roomForOne [0x655]).port = [.word 0x655] ∧
      (issue roomForOne [0x655]).illcmd = false ∧ decode 0x655#12 = .instr (.decPush 0x55) ∧
      unitFault .dec (issue roomForOne [0x655]) = false ∧ unitPhase .dec (issue roomForOne [0x655]) = .run ∧
      ¬pushIsFull (.decPush 0x55) (issue roomForOne [0x655])) ∧
    ((issue closed [0x500]).Inv ∧ (issue closed [0x500]).port = [.word 0x500] ∧ (issue closed [0x500]).illcmd = false ∧
      decode 0x500#12 = .instr .decStart ∧ unitFault .dec (issue closed [0x500]) = false ∧ isStart .decStart = true ∧
      ¬pushIsFull .decStart (issue closed [0x500])) :=
  ⟨⟨issue_inv roomForOne_inv _, by decide, by decide, by decide, by decide, by decide,
      show (issue roomForOne [0x655]).limits.maxCh ≠ some (issue roomForOne [0x655]).dec.cnt by decide⟩,
    ⟨issue_inv closed_inv _, by decide, by decide, by decide, by decide, by decide, id⟩⟩

/-- Of IssuedWordsRunInOrder and InterleavedCallsAreIndependent: commands of both units, one of them faulting. -/
theorem witness_execAll :
    (nextOf (execAll [.encStart, .decStart, .encPush 0x01, .decEnd, .decEnd] State.reset)).isSome = true := by decide

/-- Of ResetGivesTableT1 and of OnlyResetClearsAUsageFault, clause 3. -/
theorem witness_reset : ({ faulted with port := [.reset] } : State).port = [.reset] ∧
    (nextOf (step { faulted with port := [.reset] })).isSome = true := by decide

/-- Of OnlyResetClearsAUsageFault, clauses 1 and 2. -/
theorem witness_fault_stands :
    (nextOf (step (issue frozen [0x100]))).isSome = true ∧ (issue frozen [0x100]).illcmd = true ∧
      (nextOf (step (issue overflowed [0x500]))).isSome = true ∧ unitFault .dec (issue overflowed [0x500]) = true ∧
      unitFault .enc (issue overflowed [0x500]) = true ∧ (issue overflowed [0x500]).port.head? ≠ some .reset := by decide

/-- Of EveryStepKeepsTheInvariant and NoStepStops. -/
theorem witness_step_next : (issue full [0x300]).Inv ∧ (nextOf (step (issue full [0x300]))).isSome = true :=
  ⟨issue_inv full_inv _, by decide⟩

/-- Of NoCommandWritesPastABuffersEnd: both limits finite, both buffers written. -/
theorem witness_capacities : full.Inv ∧ full.limits.maxBy = some 1 ∧ full.limits.maxCh = some 2 ∧
    (nextOf (exec .encFlush full)).isSome = true ∧ full.dec.dout ≠ [] :=
  ⟨full_inv, by decide, by decide, by decide, by decide⟩

/-- Of the word clauses of EncStartOpensACall, EncFlushClosesTheCall, DecStartOpensACall and DecEndGivesTheVerdict (V-C9). -/
theorem witness_operand_words :
    ((0x101#12).extractLsb' 8 4 = 1#4 ∧ (0x101#12).extractLsb' 0 8 ≠ 0x00#8) ∧
    ((0x3FF#12).extractLsb' 8 4 = 3#4 ∧ (0x3FF#12).extractLsb' 0 8 ≠ 0x00#8) ∧
    ((0x501#12).extractLsb' 8 4 = 5#4 ∧ (0x501#12).extractLsb' 0 8 ≠ 0x00#8) ∧
    ((0x780#12).extractLsb' 8 4 = 7#4 ∧ (0x780#12).extractLsb' 0 8 ≠ 0x00#8) := by decide

/-- Of the clauses on a frozen block and a frozen unit, ENC and DEC (R121, R122, R128, R155, R158, R165, R204, R205). -/
theorem witness_ignored : frozen.illcmd = true ∧ faulted.enc.fault = true ∧ faulted.dec.fault = true ∧
    overflowed.enc.fault = true ∧ overflowed.dec.fault = true := by decide

/-- Of EncStartOpensACall and DecStartOpensACall: in DONE and in RUN. -/
theorem witness_starts : closed.illcmd = false ∧ closed.enc.fault = false ∧ closed.dec.fault = false ∧
    opened.illcmd = false ∧ opened.enc.fault = false ∧ opened.dec.fault = false := by decide

/-- Of EncPushTakesAByteIn, EncPushSymbolCounts and EncoderFaultsDependOnNoByte: with 3 live bits, and the last byte that a
limit of 1 allows, with 0 live bits. -/
theorem witness_encPush :
    (opened.Inv ∧ opened.illcmd = false ∧ opened.enc.fault = false ∧ opened.enc.phase = .run ∧
      opened.limits.maxBy ≠ some opened.enc.icnt ∧ opened.enc.bits = 3) ∧
    (roomForOne.Inv ∧ roomForOne.illcmd = false ∧ roomForOne.enc.fault = false ∧ roomForOne.enc.phase = .run ∧
      roomForOne.limits.maxBy ≠ some roomForOne.enc.icnt ∧ roomForOne.enc.bits = 0 ∧
      (nextOf (exec (.encPush 0xFF) roomForOne)).isSome = true) :=
  ⟨⟨opened_inv, by decide, by decide, by decide, by decide, by decide⟩,
    ⟨roomForOne_inv, by decide, by decide, by decide, by decide, by decide, by decide⟩⟩

/-- The states after one to four bytes have 3, 1, 4 and 2 live bits (EncPushSymbolCounts). -/
theorem witness_encPush_bits :
    (nextOf (execAll [.encStart, .encPush 0x00] State.reset)).map (fun t => t.enc.bits) = some 3 ∧
    (nextOf (execAll [.encStart, .encPush 0x00, .encPush 0x00] State.reset)).map (fun t => t.enc.bits) = some 1 ∧
    (nextOf (execAll [.encStart, .encPush 0x00, .encPush 0x00, .encPush 0x00] State.reset)).map (fun t => t.enc.bits) =
      some 4 ∧
    (nextOf (execAll [.encStart, .encPush 0x00, .encPush 0x00, .encPush 0x00, .encPush 0x00] State.reset)).map
      (fun t => t.enc.bits) = some 2 := by decide

/-- Of EncPushSymbolCounts, clause 2: a limit that the five bytes just meet. -/
theorem witness_five_bytes :
    (after { maxBy := some 5, maxCh := none } [.encStart]).Inv ∧
      withinLimit (after { maxBy := some 5, maxCh := none } [.encStart]).limits.maxBy
        ((after { maxBy := some 5, maxCh := none } [.encStart]).enc.icnt + 5) = true ∧
      (after { maxBy := some 5, maxCh := none } [.encStart]).enc.phase = .run ∧
      (after { maxBy := some 5, maxCh := none } [.encStart]).enc.bits = 0 ∧
      (after { maxBy := some 5, maxCh := none } [.encStart]).illcmd = false ∧
      (after { maxBy := some 5, maxCh := none } [.encStart]).enc.fault = false :=
  ⟨⟨by constructor <;> decide, by constructor <;> decide⟩, by decide, by decide, by decide, by decide, by decide⟩

/-- Of the SEQ and OVF clauses of the six commands, CommandOutsideACallRaisesSeq and PushBeyondTheLimitRaisesOvf. -/
theorem witness_raises :
    (closed.illcmd = false ∧ closed.enc.fault = false ∧ closed.enc.phase = .done ∧ closed.dec.fault = false ∧
      closed.dec.phase = .done) ∧
    (State.reset.illcmd = false ∧ unitFault .enc State.reset = false ∧ unitPhase .enc State.reset = .idle ∧
      unitFault .dec State.reset = false ∧ unitPhase .dec State.reset = .idle ∧ isStart (.decPush 0x53) = false) ∧
    (full.illcmd = false ∧ full.enc.fault = false ∧ full.enc.phase = .run ∧ full.limits.maxBy = some full.enc.icnt ∧
      full.dec.fault = false ∧ full.dec.phase = .run ∧ full.limits.maxCh = some full.dec.cnt) ∧
    (overflowed.enc.fcause = .ovf ∧ overflowed.dec.fcause = .ovf ∧ State.reset.limits.maxBy = none ∧
      State.reset.limits.maxCh = none ∧ (nextOf (exec .decStart State.reset)).isSome = true) := by decide

/-- Of PushBeyondTheLimitRaisesOvf, clause 3 (a state that no run reaches: OVF stands although the limits are unbounded). -/
theorem witness_ovf_unbounded :
    ({ overflowed with limits := .unbounded } : State).limits.maxBy = none ∧
      (nextOf (exec (.encPush 0x00) { overflowed with limits := .unbounded })).map (fun t => (t.enc.fcause, t.dec.fcause)) =
        some (.ovf, .ovf) := by decide

/-- Of EncFlushClosesTheCall: with live bits, and without. -/
theorem witness_encFlush :
    (opened.Inv ∧ opened.illcmd = false ∧ opened.enc.fault = false ∧ opened.enc.phase = .run ∧ opened.enc.bits ≠ 0) ∧
    (roomForOne.illcmd = false ∧ roomForOne.enc.fault = false ∧ roomForOne.enc.phase = .run ∧ roomForOne.enc.bits = 0) :=
  ⟨⟨opened_inv, by decide, by decide, by decide, by decide⟩, by decide⟩

/-- Of DecPushTakesACharacterIn and DecPushByteCounts: an invalid code, a valid one, and a valid one after a bad one; the last
character that a limit of 1 allows. -/
theorem witness_decPush :
    (roomForOne.Inv ∧ roomForOne.illcmd = false ∧ roomForOne.dec.fault = false ∧ roomForOne.dec.phase = .run ∧
      roomForOne.limits.maxCh ≠ some roomForOne.dec.cnt ∧ roomForOne.dec.badchar = false ∧ roomForOne.dec.bits = 0 ∧
      (rev (normalise 0x55)).valid = false ∧ (rev (normalise 0x7A)).valid = true ∧
      (lookup (normalise 0x7A)).valid = true) ∧
    (opened.Inv ∧ opened.illcmd = false ∧ opened.dec.fault = false ∧ opened.dec.phase = .run ∧
      opened.limits.maxCh ≠ some opened.dec.cnt ∧ opened.dec.badchar = false ∧ opened.dec.bits = 5) ∧
    (spoilt.Inv ∧ spoilt.illcmd = false ∧ spoilt.dec.fault = false ∧ spoilt.dec.phase = .run ∧
      spoilt.limits.maxCh ≠ some spoilt.dec.cnt ∧ spoilt.dec.badchar = true) :=
  ⟨⟨roomForOne_inv, by decide, by decide, by decide, by decide, by decide, by decide, by decide, by decide, by decide⟩,
    ⟨opened_inv, by decide, by decide, by decide, by decide, by decide, by decide⟩,
    ⟨spoilt_inv, by decide, by decide, by decide, by decide, by decide⟩⟩

/-- The states after two to eight characters have 2, 7, 4, 1, 6, 3 and 0 live bits (DecPushByteCounts). -/
theorem witness_decPush_bits :
    ([2, 3, 4, 5, 6, 7, 8].map fun n =>
      (after .unbounded (.decStart :: List.replicate n (.decPush 0x30))).dec.bits.toNat) = [2, 7, 4, 1, 6, 3, 0] := by decide

/-- Of DecPushByteCounts, clause 2: a limit that the eight characters just meet. -/
theorem witness_eight_characters :
    (after { maxBy := none, maxCh := some 8 } [.decStart]).Inv ∧
      (after { maxBy := none, maxCh := some 8 } [.decStart]).illcmd = false ∧
      (after { maxBy := none, maxCh := some 8 } [.decStart]).dec.fault = false ∧
      (after { maxBy := none, maxCh := some 8 } [.decStart]).dec.phase = .run ∧
      (after { maxBy := none, maxCh := some 8 } [.decStart]).dec.badchar = false ∧
      (after { maxBy := none, maxCh := some 8 } [.decStart]).dec.bits = 0 ∧
      withinLimit (after { maxBy := none, maxCh := some 8 } [.decStart]).limits.maxCh
        ((after { maxBy := none, maxCh := some 8 } [.decStart]).dec.cnt + 8) = true ∧
      ∀ c ∈ List.replicate 8 (0x73 : Byte), (lookup (normalise c)).valid = true :=
  ⟨⟨by constructor <;> decide, by constructor <;> decide⟩, by decide, by decide, by decide, by decide, by decide, by decide,
    by decide⟩

/-- Of AfterABadCharacterOnlyTheCountMoves. -/
theorem witness_frozen_datapath : spoilt.Inv ∧ spoilt.illcmd = false ∧ spoilt.dec.fault = false ∧ spoilt.dec.phase = .run ∧
    spoilt.dec.badchar = true ∧ spoilt.limits.maxCh ≠ some spoilt.dec.cnt ∧
    withinLimit spoilt.limits.maxCh (spoilt.dec.cnt + 3) = true :=
  ⟨spoilt_inv, by decide, by decide, by decide, by decide, by decide, by decide⟩

/-- The decode call "S00000" before its `DEC.END`. -/
def sixIn : State := after .unbounded (.decStart :: [0x53, 0x30, 0x30, 0x30, 0x30, 0x30].map Instr.decPush)

/-- Of DecEndGivesTheVerdict and PublishedLengthIsTheBytesWritten. -/
theorem witness_decEnd : sixIn.Inv ∧ sixIn.illcmd = false ∧ sixIn.dec.fault = false ∧ sixIn.dec.phase = .run ∧
    sixIn.dec.badchar = false ∧
    (nextOf (exec .decEnd sixIn)).map (fun t => t.dec.status) = some .ok :=
  ⟨⟨by constructor <;> decide, by constructor <;> decide⟩, by decide, by decide, by decide, by decide, by decide⟩

/-- Of UnitFaultFreezesItsUnitAlone: a faulted unit, a command that faults, and a command of the other unit. -/
theorem witness_unitFault : unitFault .enc faulted = true ∧
    (nextOf (exec .decEnd State.reset)).map (fun t => (unitFault .dec State.reset, unitFault .dec t)) = some (false, true) ∧
    Instr.decStart.unit ≠ UnitSel.enc ∧ (nextOf (exec .decStart State.reset)).isSome = true := by decide

/-- Of PhasesFollowTheTransitionTable: a row for START, PUSH below and at the limit, a close, and a command outside a call. -/
theorem witness_phases :
    (opened.Inv ∧ opened.illcmd = false ∧ unitFault .enc opened = false ∧ unitPhase .enc opened = .run ∧
      ¬pushIsFull (.encPush 0x00) opened) ∧
    (full.Inv ∧ full.illcmd = false ∧ unitFault .dec full = false ∧ unitPhase .dec full = .run ∧
      pushIsFull (.decPush 0x30) full) ∧
    (closed.Inv ∧ closed.illcmd = false ∧ unitFault .dec closed = false ∧ unitPhase .dec closed ≠ .run) ∧
    isStart .decStart = true ∧ isPush (.encPush 0x00) = true ∧ isClose .decEnd = true ∧ isStart .decEnd = false :=
  ⟨⟨opened_inv, by decide, by decide, by decide, show opened.limits.maxBy ≠ some opened.enc.icnt by decide⟩,
    ⟨full_inv, by decide, by decide, by decide, show full.limits.maxCh = some full.dec.cnt by decide⟩,
    ⟨closed_inv, by decide, by decide, by decide⟩, by decide, by decide, by decide, by decide⟩

/-- Of CommandsTouchOnlyTheirOwnUnit: states that differ outside the unit. -/
theorem witness_own_unit :
    (nextOf (exec .encFlush opened)).isSome = true ∧ (nextOf (exec .decEnd opened)).isSome = true ∧
      (nextOf (exec (.decPush 0x30) spoilt)).isSome = true ∧ spoilt.dec.badchar = true ∧ spoilt.dec.cnt ≠ 0 ∧
      State.illcmd { opened with dec := spoilt.dec } = opened.illcmd ∧
      State.limits { opened with dec := spoilt.dec } = opened.limits ∧
      State.enc { opened with dec := spoilt.dec } = opened.enc ∧ spoilt.dec ≠ opened.dec := by decide

/-- Of the clauses of OnlyTheNamedCommandsWriteEachRegister on unit ENC: commands that change each register. -/
theorem witness_enc_writes :
    (nextOf (exec (.encPush 0x00) opened)).any (fun t =>
      t.enc.acc != opened.enc.acc && t.enc.bits != opened.enc.bits && t.enc.icnt != opened.enc.icnt &&
      t.enc.olen != opened.enc.olen && t.enc.eout != opened.enc.eout) = true ∧
    (nextOf (exec .encFlush opened)).any (fun t => t.enc.phase != opened.enc.phase) = true ∧
    (nextOf (exec (.encPush 0x00) full)).any (fun t =>
      t.enc.fault != full.enc.fault && t.enc.fcause != full.enc.fcause) = true := by decide

/-- The same on unit DEC: the first push sets the prefix flag, a bad one the other two. -/
theorem witness_dec_writes :
    (nextOf (exec (.decPush 0x53) roomForOne)).any (fun t =>
      t.dec.acc != roomForOne.dec.acc && t.dec.bits != roomForOne.dec.bits && t.dec.cnt != roomForOne.dec.cnt &&
      t.dec.pfxok != roomForOne.dec.pfxok) = true ∧
    (nextOf (exec (.decPush 0x30) opened)).any (fun t =>
      t.dec.widx != opened.dec.widx && t.dec.dout != opened.dec.dout) = true ∧
    (nextOf (exec (.decPush 0x2A) opened)).any (fun t =>
      t.dec.badchar != opened.dec.badchar && t.dec.errchar != opened.dec.errchar) = true ∧
    (nextOf (exec .decEnd sixIn)).any (fun t =>
      t.dec.status != sixIn.dec.status && t.dec.olen != sixIn.dec.olen && t.dec.phase != sixIn.dec.phase) = true ∧
    (nextOf (exec .decEnd State.reset)).any (fun t =>
      t.dec.fault != State.reset.dec.fault && t.dec.fcause != State.reset.dec.fcause) = true := by decide

/-- Of ACallForgetsWhatCameBefore: two different pasts. -/
theorem witness_forgets : opened.Inv ∧ closed.Inv ∧ opened.limits = closed.limits ∧ opened.illcmd = false ∧
    closed.illcmd = false ∧ opened.enc.fault = false ∧ closed.enc.fault = false ∧ opened.dec.fault = false ∧
    closed.dec.fault = false ∧ (∀ i ∈ [Instr.encPush 0xFF, .encFlush], i.unit = .enc) ∧
    (∀ i ∈ [Instr.decPush 0x53, .decEnd, .decEnd], i.unit = .dec) :=
  ⟨opened_inv, closed_inv, by decide, by decide, by decide, by decide, by decide, by decide, by decide, by decide, by decide⟩

/-- Of HostReadsOnlyInsideTheWindows and PublishedElementsAreStable: the last element of each window and the first index beyond
it, a closed window, and commands other than the unit's START. -/
theorem witness_windows :
    closed.Inv ∧ (1 < closed.enc.olen ∧ closed.enc.olen ≤ 2) ∧
      (closed.dec.phase = .done ∧ closed.dec.status = .ok ∧ closed.dec.fault = false ∧ 2 < closed.dec.olen ∧
        closed.dec.olen ≤ 3) ∧
      opened.dec.phase ≠ .done ∧ spoilt.dec.status ≠ .ok ∧ faulted.dec.fault = true ∧
      readPort .eout 1 closed = some 0x34 ∧ readPort .dout 2 closed = some 0x00 ∧
      (nextOf (exec .decStart closed)).isSome = true ∧
      (nextOf (exec .encStart closed)).map (fun t => t.dec.fault) = some false :=
  ⟨closed_inv, by decide, by decide, by decide, by decide, by decide, by decide, by decide, by decide, by decide⟩

/-- Of ShiftInLosesNoBit. -/
theorem witness_shift : sixIn.Inv ∧ opened.Inv := ⟨witness_decEnd.1, opened_inv⟩

/-- Of EncoderHoldsTheBytesTakenIn, clause 2: no byte in, and one more allowed. -/
theorem witness_encTook : EncTook [] roomForOne.enc ∧ roomForOne.illcmd = false ∧ roomForOne.enc.fault = false ∧
    withinLimit roomForOne.limits.maxBy (([] : List Byte).length + 1) = true :=
  ⟨by constructor <;> decide, by decide, by decide, by decide⟩

/-- The same with a byte in. -/
theorem witness_encTook_one : EncTook [0x01] opened.enc ∧ withinLimit opened.limits.maxBy (([0x01] : List Byte).length + 1) =
    true := ⟨by constructor <;> decide, by decide⟩

/-- Of DecoderHoldsTheCharactersTakenIn, clause 2: no character in, and one more allowed. -/
theorem witness_decTook : DecTook [] roomForOne.dec ∧ roomForOne.illcmd = false ∧ roomForOne.dec.fault = false ∧
    withinLimit roomForOne.limits.maxCh (([] : List Byte).length + 1) = true ∧ (lookup (normalise 0x73)).valid = true :=
  ⟨by constructor <;> decide, by decide, by decide, by decide, by decide⟩

/-- The same with a character in. -/
theorem witness_decTook_one : DecTook [0x53] opened.dec ∧
    withinLimit opened.limits.maxCh (([0x53] : List Byte).length + 1) = true := ⟨by constructor <;> decide, by decide⟩

/-- Of the statements on whole encode calls: a byte list that a limit of 1 just allows. -/
theorem witness_encodeCall : roomForOne.illcmd = false ∧ roomForOne.enc.fault = false ∧
    withinLimit roomForOne.limits.maxBy ([0xFF] : List Byte).length = true := by decide

/-- Of the statements on whole decode calls, the six verdict clauses among them: texts that end in each verdict (V-D1, V-D9,
V-D10, V-D14), and one that a limit of 1 just allows. -/
theorem witness_decodeCall :
    (roomForOne.illcmd = false ∧ roomForOne.dec.fault = false ∧
      withinLimit roomForOne.limits.maxCh ([0x55] : List Byte).length = true) ∧
    (opened.illcmd = false ∧ opened.dec.fault = false ∧ withinLimit opened.limits.maxCh 7 = true) ∧
    (nextOf (execAll (decodeCall [0x53, 0x30, 0x30, 0x30, 0x30, 0x30]) opened)).map (fun t => t.dec.status) = some .ok ∧
    (nextOf (execAll (decodeCall [0x55]) roomForOne)).map (fun t => t.dec.status) = some .invChar ∧
    (nextOf (execAll (decodeCall [0x53, 0x30, 0x30, 0x30, 0x30]) opened)).map (fun t => t.dec.status) = some .invLen ∧
    (nextOf (execAll (decodeCall [0x41, 0x42, 0x43, 0x44, 0x45, 0x46, 0x47]) opened)).map (fun t => t.dec.status) =
      some .invPfx ∧
    verdictOf [0x53, 0x30, 0x30, 0x30, 0x30, 0x30] = .ok ∧ verdictOf [0x55] = .invChar := by decide

/-- Of ConfusableTextsDecodeAlike: "sOiLo0" and "S01100" (V-D4). -/
theorem witness_confusable :
    ([0x73, 0x4F, 0x69, 0x4C, 0x6F, 0x30] : List Byte).map normalise =
      ([0x53, 0x30, 0x31, 0x31, 0x30, 0x30] : List Byte).map normalise := by decide

/-- Of the two round-trip statements: a limit that the encoded string of four bytes just meets, and both verdicts. -/
theorem witness_roundTrip :
    ({ State.reset with limits := { maxBy := none, maxCh := some 7 } } : State).illcmd = false ∧
      ({ State.reset with limits := { maxBy := none, maxCh := some 7 } } : State).dec.fault = false ∧
      withinLimit (some 7) (encodeOf [0xC8, 0x00, 0x00, 0xFF]).length = true ∧
      (nextOf (execAll (decodeCall (encodeOf [0xC8, 0x00, 0x00, 0xFF])) State.reset)).map (fun t => t.dec.status) =
        some .ok ∧
      (nextOf (execAll (decodeCall (encodeOf [0xD0, 0x00, 0x00, 0x00])) State.reset)).map (fun t => t.dec.status) =
        some .invPfx := by decide

end Sys2Proof.Tests
end

