-- ==== Sys2Proof/Proofs/ShiftIn.lean ====
section
/-!
PROOF. The shift-in of both units loses no live bit (spec/00_scope.md R13), for O43.
-/

namespace Sys2Proof.Machine

/-- `k` bits appended below `n` live bits make `n + k` live bits. -/
theorem appendBits_lt {a b n k : Nat} (ha : a < 2 ^ n) (hb : b < 2 ^ k) : a * 2 ^ k + b < 2 ^ (n + k) := by
  rw [Nat.mul_comm a, Nat.pow_add]
  exact Nat.mul_add_lt_mul_of_lt_of_lt ha hb

/-- The encoder's half of R13: at a command boundary at most 4 bits are live, so a byte fits below them in 12 bits. -/
theorem EncInv.shiftInByte_exact {lim : Limits} {e : EncUnit} (h : EncInv lim e) (b : Byte) :
    (shiftInByte e.acc b).toNat = e.acc.toNat * 2 ^ 8 + b.toNat ∧
      e.acc.toNat * 2 ^ 8 + b.toNat < 2 ^ (e.bits.toNat + 8) ∧ e.bits.toNat + 8 ≤ 12 :=
  ⟨shiftInByte_toNat e.acc b h.acc_lt_16, appendBits_lt h.acc_lt b.isLt, Nat.add_le_add_right h.bits_le 8⟩

/-- The decoder's half of R13: at a command boundary at most 7 bits are live, so a symbol fits below them in 12 bits. -/
theorem DecInv.shiftInSym_exact {lim : Limits} {d : DecUnit} (h : DecInv lim d) (i : Sym) :
    (shiftInSym d.acc i).toNat = d.acc.toNat * 2 ^ 5 + i.toNat ∧
      d.acc.toNat * 2 ^ 5 + i.toNat < 2 ^ (d.bits.toNat + 5) ∧ d.bits.toNat + 5 ≤ 12 :=
  ⟨shiftInSym_toNat d.acc i h.acc_lt_128, appendBits_lt h.acc_lt i.isLt, Nat.add_le_add_right h.bits_le 5⟩

/-- Settles O43: each half follows from the unit's own invariant, which bounds the live bits before the shift. -/
theorem shiftInLosesNoBit : Obligations.ShiftInLosesNoBit :=
  fun _ b i h => ⟨h.enc.shiftInByte_exact b, h.dec.shiftInSym_exact i⟩

end Sys2Proof.Machine
end

