-- ==== Sys2Proof/Proofs/KeepsInvariant.lean ====
section
/-!
PROOF. The invariant of command boundaries holds after reset and is kept by every command and every step, and no command
stops where it holds (spec/20_memory.md R70; spec/30_encoding.md R95), for O16 and O17.
-/

namespace Sys2Proof.Machine

theorem State.Inv.resetWith (lim : Limits) : (State.resetWith lim).Inv := ⟨EncInv.reset lim, DecInv.reset lim⟩

/-- Settles O16: each unit's reset value meets its own half. -/
theorem resetStateMeetsTheInvariant : Obligations.ResetStateMeetsTheInvariant :=
  ⟨State.Inv.resetWith, State.Inv.resetWith .unbounded⟩

/-- The acts still to come are no part of the invariant. -/
theorem State.Inv.withPort {s : State} (h : s.Inv) (p : List HostAct) : State.Inv { s with port := p } := ⟨h.enc, h.dec⟩

/-- R206: a SEQ fault freezes a unit outside RUN. -/
theorem State.Inv.raiseSeq {s : State} (h : s.Inv) {u : UnitSel} (hp : unitPhase u s ≠ .run) :
    (raiseUnitFault u .seq s).Inv := by
  cases u with
  | enc => exact ⟨h.enc.raise nofun (fun _ => hp) nofun, h.dec⟩
  | dec => exact ⟨h.enc, h.dec.raise nofun (fun _ => hp) nofun⟩

/-- R207: an OVF fault freezes a unit in RUN at its limit. -/
theorem State.Inv.raiseOvf {s : State} (h : s.Inv) {i : Instr} (hp : unitPhase i.unit s = .run) (hfull : pushIsFull i s) :
    (raiseUnitFault i.unit .ovf s).Inv := by
  cases i with
  | encPush b => exact ⟨h.enc.raise nofun nofun fun _ => ⟨hp, hfull⟩, h.dec⟩
  | decPush c => exact ⟨h.enc, h.dec.raise nofun nofun fun _ => ⟨hp, hfull⟩⟩
  | encStart => exact hfull.elim
  | encFlush => exact hfull.elim
  | decStart => exact hfull.elim
  | decEnd => exact hfull.elim

/-- A command's own rule keeps the invariant where R95 lets it run. -/
theorem State.Inv.executed {s t : State} (h : s.Inv) {i : Instr} (hf : unitFault i.unit s = false)
    (hp : isStart i = false → unitPhase i.unit s = .run) (hl : ¬pushIsFull i s) (hx : ExecutedBy i s t) : t.Inv := by
  cases i with
  | encStart =>
    obtain rfl := hx
    exact ⟨h.enc.open hf, h.dec⟩
  | encPush b =>
    obtain ⟨e, he, rfl⟩ := hx
    exact ⟨h.enc.takeIn (hp rfl) hf hl he, h.dec⟩
  | encFlush =>
    obtain ⟨e, he, rfl⟩ := hx
    exact ⟨h.enc.close (hp rfl) hf he, h.dec⟩
  | decStart =>
    obtain rfl := hx
    exact ⟨h.enc, h.dec.open hf⟩
  | decPush c =>
    obtain ⟨d, hd, rfl⟩ := hx
    exact ⟨h.enc, h.dec.takeIn (hp rfl) hf hl hd⟩
  | decEnd =>
    obtain rfl := hx
    exact ⟨h.enc, h.dec.close (hp rfl) hf⟩

/-- Every command keeps the invariant. -/
theorem exec_keeps_inv {i : Instr} {s t : State} (h : s.Inv) (hx : exec i s = .next t) : t.Inv := by
  rcases exec_next hx with ⟨rfl, -⟩ | ⟨-, -, -, hp, rfl⟩ | ⟨-, -, hp, hfull, rfl⟩ | ⟨-, hf, hp, hl, hrule⟩
  · exact h
  · exact h.raiseSeq hp
  · exact h.raiseOvf hp hfull
  · exact h.executed hf hp hl hrule

/-- Settles O17, by what a step can be: idle, a reset, a frozen block, a reserved word, or a command. -/
theorem everyStepKeepsTheInvariant : Obligations.EveryStepKeepsTheInvariant := by
  intro s t h ht
  rcases step_cases ht with ⟨-, rfl⟩ | ⟨rest, -, rfl⟩ | ⟨-, rest, -, -, rfl⟩ | ⟨-, rest, -, -, -, -, rfl⟩ |
    ⟨-, rest, i, -, -, -, hx⟩
  · exact h
  · exact (State.Inv.resetWith s.limits).withPort rest
  · exact h.withPort rest
  · exact ⟨h.enc, h.dec⟩
  · exact exec_keeps_inv (h.withPort rest) hx

/-- Where R95 lets a command run, its own rule answers a next state. -/
theorem State.Inv.rule_answers {s : State} (h : s.Inv) {i : Instr} (hi : s.illcmd = false)
    (hf : unitFault i.unit s = false) (hp : isStart i = false → unitPhase i.unit s = .run) (hl : ¬pushIsFull i s) :
    ∃ t, exec i s = .next t := by
  cases i with
  | encStart => exact ⟨_, exec_encStart hi hf⟩
  | encPush b =>
    obtain ⟨e, he⟩ := (h.enc.takeIn_ok (hp rfl) hl b).2
    exact ⟨_, exec_encPush hi hf (hp rfl) hl he⟩
  | encFlush =>
    obtain ⟨e, he⟩ := (h.enc.close_ok (hp rfl)).2
    exact ⟨_, exec_encFlush hi hf (hp rfl) he⟩
  | decStart => exact ⟨_, exec_decStart hi hf⟩
  | decPush c =>
    obtain ⟨d, hd⟩ := h.dec.takeIn_ok (hp rfl) hl c
    exact ⟨_, exec_decPush hi hf (hp rfl) hl hd⟩
  | decEnd => exact ⟨_, exec_decEnd hi hf (hp rfl)⟩

theorem not_start_not_close_of_isPush {i : Instr} (h : isPush i = true) : isStart i = false ∧ isClose i = false := by
  cases i with
  | encPush b => exact ⟨rfl, rfl⟩
  | decPush c => exact ⟨rfl, rfl⟩
  | encStart => cases h
  | encFlush => cases h
  | decStart => cases h
  | decEnd => cases h

/-- Only a PUSH can be at its limit (R95 step 5). -/
theorem isPush_of_pushIsFull {i : Instr} {s : State} (h : pushIsFull i s) : isPush i = true := by
  cases i with
  | encPush b => rfl
  | decPush c => rfl
  | encStart => exact h.elim
  | encFlush => exact h.elim
  | decStart => exact h.elim
  | decEnd => exact h.elim

theorem isStart_of_pushIsFull {i : Instr} {s : State} (h : pushIsFull i s) : isStart i = false :=
  (not_start_not_close_of_isPush (isPush_of_pushIsFull h)).1

/-- No command stops at a command boundary (R70, R95). -/
theorem State.Inv.exec_answers {s : State} (h : s.Inv) (i : Instr) : ∃ t, exec i s = .next t := by
  by_cases hign : s.illcmd = true ∨ unitFault i.unit s = true
  · exact ⟨s, exec_ignored hign⟩
  obtain ⟨hi, hf⟩ : s.illcmd = false ∧ unitFault i.unit s = false := by simpa using hign
  by_cases hseq : isStart i = false ∧ unitPhase i.unit s ≠ .run
  · exact ⟨_, exec_seq hi hf hseq.1 hseq.2⟩
  have hp : isStart i = false → unitPhase i.unit s = .run := by simpa using hseq
  by_cases hfull : pushIsFull i s
  · exact ⟨_, exec_ovf hi hf (hp (isStart_of_pushIsFull hfull)) hfull⟩
  · exact h.rule_answers hi hf hp hfull

/-- No sequence of commands stops that starts at a command boundary, and it ends at one. -/
theorem State.Inv.execAll_answers {s : State} (h : s.Inv) (is : List Instr) :
    ∃ t, execAll is s = .next t ∧ t.Inv := by
  induction is generalizing s with
  | nil => exact ⟨s, rfl, h⟩
  | cons i is ih =>
    obtain ⟨u, hu⟩ := h.exec_answers i
    rw [execAll_cons hu]
    exact ih (exec_keeps_inv h hu)

end Sys2Proof.Machine
end

