-- ==== Sys2Proof/Proofs/CallIsolation.lean ====
section
/-!
PROOF. A command sees its own unit only (spec/10_state.md R26), and of that unit's buffer nothing that an earlier call wrote
(R56; spec/70_reset_and_hazards.md R242), for O37 and O39. The second is a simulation: two runs of the same commands keep
their units equal but for the buffer elements that the call has not written.
-/

namespace Sys2Proof.Machine

/-- Settles O37, by the frame of each unit's commands. -/
theorem commandsTouchOnlyTheirOwnUnit : Obligations.CommandsTouchOnlyTheirOwnUnit :=
  fun _ _ _ h =>
    ⟨fun hu => ⟨(exec_enc_only hu h rfl rfl rfl).1, fun _ hi hl he => (exec_enc_only hu h hi hl he).2⟩,
      fun hu => ⟨(exec_dec_only hu h rfl rfl rfl).1, fun _ hi hl hd => (exec_dec_only hu h hi hl hd).2⟩⟩

/-! ## Simulation -/

/-- From related units the rule answers alike, and leaves related units. -/
def Respects {σ : Type} (R : σ → σ → Prop) (rule : σ → Except Fault σ) : Prop :=
  ∀ x y x' : σ, R x y → rule x = .ok x' → ∃ y', rule y = .ok y' ∧ R x' y'

/-- A relation that every command of a sequence keeps is kept by the sequence. -/
theorem execAll_simulates {R : State → State → Prop} {is : List Instr}
    (hstep : ∀ i ∈ is, ∀ s₁ s₂ t₁, R s₁ s₂ → exec i s₁ = .next t₁ → ∃ t₂, exec i s₂ = .next t₂ ∧ R t₁ t₂)
    {s₁ s₂ t₁ : State} (hR : R s₁ s₂) (h : execAll is s₁ = .next t₁) : ∃ t₂, execAll is s₂ = .next t₂ ∧ R t₁ t₂ := by
  induction is generalizing s₁ s₂ with
  | nil =>
    cases h
    exact ⟨s₂, rfl, hR⟩
  | cons i is ih =>
    obtain ⟨u₁, hu₁, h⟩ := execAll_cons_next h
    obtain ⟨u₂, hu₂, hRu⟩ := hstep i List.mem_cons_self s₁ s₂ u₁ hR hu₁
    rw [execAll_cons hu₂]
    exact ih (fun j hj => hstep j (List.mem_cons_of_mem i hj)) hRu h

/-- The tests of R95 read `ILLCMD` and the unit's fault and phase only. -/
theorem admission_congr {u : UnitSel} {r f : Bool} {s₁ s₂ : State} (hi : s₂.illcmd = s₁.illcmd)
    (hf : unitFault u s₂ = unitFault u s₁) (hp : unitPhase u s₂ = unitPhase u s₁) :
    admission u r f s₂ = admission u r f s₁ := by simp only [admission, hi, hf, hp]

/-! ## Unit ENC -/

/-- The encoder's registers are the same, and so is every symbol that the call has written. -/
def EncUnit.SameCall (e₁ e₂ : EncUnit) : Prop :=
  ∃ m, e₂ = { e₁ with eout := m } ∧ ∀ k, k < e₁.olen → Memory.read m k = Memory.read e₁.eout k

theorem emitSym_respects (cap : Option Nat) (sym : Sym) : Respects EncUnit.SameCall (emitSym cap sym) := by
  rintro e _ e' ⟨m, rfl, hm⟩ h
  obtain ⟨hi, rfl⟩ := emitSym_next h
  refine ⟨_, emitSym_ok sym hi, _, rfl, fun k hk => ?_⟩
  simp only [Memory.read_write]
  split
  · rfl
  · exact hm k (by simp only at hk; omega)

theorem symLoop_respects (cap : Option Nat) (fuel : Nat) (a : Acc) (n : Nat) :
    Respects EncUnit.SameCall (symLoop cap fuel a n) := by
  induction fuel generalizing a n with
  | zero =>
    rintro e _ e' ⟨m, rfl, hm⟩ h
    cases h
    exact ⟨_, rfl, m, rfl, hm⟩
  | succ fuel ih =>
    intro e₁ e₂ e' hs h
    simp only [symLoop] at h ⊢
    split at h
    · next hn =>
      obtain ⟨m, rfl, hm⟩ := hs
      cases h
      exact ⟨_, if_pos hn, m, rfl, hm⟩
    · next hn =>
      rw [if_neg hn]
      split at h
      · cases h
      · next u₁ hu₁ =>
        obtain ⟨u₂, hu₂, hu⟩ := emitSym_respects cap _ e₁ e₂ u₁ hs hu₁
        rw [hu₂]
        exact ih _ _ u₁ u₂ e' hu h

theorem encTakeIn_respects (cap : Option Nat) (b : Byte) : Respects EncUnit.SameCall (encTakeIn cap b) := by
  rintro e _ e' ⟨m, rfl, hm⟩ h
  unfold encTakeIn at h ⊢
  split at h
  · cases h
  · next u₁ hu₁ =>
    obtain ⟨u₂, hu₂, m', rfl, hm'⟩ := symLoop_respects cap _ _ _ e { e with eout := m } u₁ ⟨m, rfl, hm⟩ hu₁
    cases h
    rw [hu₂]
    exact ⟨_, rfl, m', rfl, hm'⟩

theorem encClose_respects (cap : Option Nat) : Respects EncUnit.SameCall (encClose cap) := by
  rintro e _ e' ⟨m, rfl, hm⟩ h
  unfold encClose at h ⊢
  split at h
  · next hb =>
    rw [if_pos hb]
    split at h
    · cases h
    · next u₁ hu₁ =>
      obtain ⟨u₂, hu₂, m', rfl, hm'⟩ := emitSym_respects cap _ e { e with eout := m } u₁ ⟨m, rfl, hm⟩ hu₁
      cases h
      rw [hu₂]
      exact ⟨_, rfl, m', rfl, hm'⟩
  · next hb =>
    rw [if_neg hb]
    cases h
    exact ⟨_, rfl, m, rfl, hm⟩

/-- After `ENC.START` the past is in the buffer only. -/
theorem encOpen_sameCall {e₁ e₂ : EncUnit} (hf : e₂.fault = e₁.fault) (hc : e₂.fcause = e₁.fcause) :
    EncUnit.SameCall (encOpen e₁) (encOpen e₂) :=
  ⟨e₂.eout, by simp only [encOpen, hf, hc], fun _ hk => absurd hk (Nat.not_lt_zero _)⟩

/-- Two states in the same encode call. -/
structure SameEncCall (s₁ s₂ : State) : Prop where
  illcmd : s₂.illcmd = s₁.illcmd
  limits : s₂.limits = s₁.limits
  unit : EncUnit.SameCall s₁.enc s₂.enc

theorem encCommand_sameEncCall {r f : Bool} {body : EncUnit → Except Fault EncUnit}
    (hbody : Respects EncUnit.SameCall body) {s₁ s₂ t₁ : State} (hs : SameEncCall s₁ s₂)
    (h : encCommand r f body s₁ = .next t₁) : ∃ t₂, encCommand r f body s₂ = .next t₂ ∧ SameEncCall t₁ t₂ := by
  obtain ⟨m, he, hm⟩ := hs.unit
  have ha : admission .enc r f s₂ = admission .enc r f s₁ := admission_congr hs.illcmd (by simp [he]) (by simp [he])
  unfold encCommand at h ⊢
  rw [ha]
  split at h
  · cases h
    exact ⟨s₂, rfl, hs⟩
  · next c hc =>
    cases h
    exact ⟨_, rfl, hs.illcmd, hs.limits, m, by simp [he], hm⟩
  · split at h
    · cases h
    · next e₁ he₁ =>
      obtain ⟨e₂, he₂, hsame⟩ := hbody _ _ _ hs.unit he₁
      cases h
      rw [he₂]
      exact ⟨_, rfl, hs.illcmd, hs.limits, hsame⟩

theorem exec_sameEncCall {i : Instr} (hu : i.unit = .enc) {s₁ s₂ t₁ : State} (hs : SameEncCall s₁ s₂)
    (h : exec i s₁ = .next t₁) : ∃ t₂, exec i s₂ = .next t₂ ∧ SameEncCall t₁ t₂ := by
  obtain ⟨m, he, -⟩ := hs.unit
  cases i with
  | encStart =>
    simp only [exec, execEncStart] at h ⊢
    refine encCommand_sameEncCall (fun e _ e' hsame he' => ?_) hs h
    obtain ⟨m, rfl, -⟩ := hsame
    cases he'
    exact ⟨_, rfl, encOpen_sameCall rfl rfl⟩
  | encPush b =>
    have hc : s₂.enc.icnt = s₁.enc.icnt := by rw [he]
    simp only [exec, execEncPush, hc, hs.limits] at h ⊢
    exact encCommand_sameEncCall (encTakeIn_respects _ b) hs h
  | encFlush =>
    simp only [exec, execEncFlush, hs.limits] at h ⊢
    exact encCommand_sameEncCall (encClose_respects _) hs h
  | decStart => cases hu
  | decPush c => cases hu
  | decEnd => cases hu

/-- The window is the same: it shows what the call has written. -/
theorem SameEncCall.readPort {s₁ s₂ : State} (hs : SameEncCall s₁ s₂) (k : Nat) :
    readPort .eout k s₁ = readPort .eout k s₂ := by
  obtain ⟨m, he, hm⟩ := hs.unit
  by_cases hk : k < s₁.enc.olen
  · simp [Machine.readPort, windowLen, he, hk, hm k hk]
  · simp [Machine.readPort, windowLen, he, hk]

/-- The encoder's half of R56: from any two pasts a whole sequence after START ends in the same call. -/
theorem encCall_forgets {s₁ s₂ : State} {is : List Instr} (h₁ : s₁.Inv) (h₂ : s₂.Inv) (hl : s₁.limits = s₂.limits)
    (hi₁ : s₁.illcmd = false) (hi₂ : s₂.illcmd = false) (hu : ∀ i ∈ is, i.unit = .enc)
    (hf₁ : s₁.enc.fault = false) (hf₂ : s₂.enc.fault = false) :
    ∃ t₁ t₂, execAll (.encStart :: is) s₁ = .next t₁ ∧ execAll (.encStart :: is) s₂ = .next t₂ ∧ SameEncCall t₁ t₂ := by
  have hopen : SameEncCall { s₁ with enc := encOpen s₁.enc } { s₂ with enc := encOpen s₂.enc } :=
    ⟨hi₂.trans hi₁.symm, hl.symm,
      encOpen_sameCall (hf₂.trans hf₁.symm) ((h₂.enc.fault_iff.1 hf₂).trans (h₁.enc.fault_iff.1 hf₁).symm)⟩
  obtain ⟨t₁, ht₁, -⟩ := h₁.execAll_answers (.encStart :: is)
  have hrun := ht₁
  rw [execAll_cons (exec_encStart hi₁ hf₁)] at hrun
  obtain ⟨t₂, ht₂, hsame⟩ :=
    execAll_simulates (fun i hi _ _ _ hs h => exec_sameEncCall (hu i hi) hs h) hopen hrun
  exact ⟨t₁, t₂, ht₁, (execAll_cons (exec_encStart hi₂ hf₂)).trans ht₂, hsame⟩

/-! ## Unit DEC -/

/-- The decoder's registers are the same, and so is every byte that the call has written. -/
def DecUnit.SameCall (d₁ d₂ : DecUnit) : Prop :=
  ∃ m, d₂ = { d₁ with dout := m } ∧ ∀ k, k < d₁.widx → Memory.read m k = Memory.read d₁.dout k

theorem emitByte_respects (cap : Option Nat) (y : Byte) : Respects DecUnit.SameCall (emitByte cap y) := by
  rintro d _ d' ⟨m, rfl, hm⟩ h
  obtain ⟨hi, rfl⟩ := emitByte_next h
  refine ⟨_, emitByte_ok y hi, _, rfl, fun k hk => ?_⟩
  simp only [Memory.read_write]
  split
  · rfl
  · exact hm k (by simp only at hk; omega)

theorem byteLoop_respects (cap : Option Nat) (fuel : Nat) (a : Acc) (k : Nat) :
    Respects DecUnit.SameCall (byteLoop cap fuel a k) := by
  induction fuel generalizing a k with
  | zero =>
    rintro d _ d' ⟨m, rfl, hm⟩ h
    cases h
    exact ⟨_, rfl, m, rfl, hm⟩
  | succ fuel ih =>
    intro d₁ d₂ d' hs h
    simp only [byteLoop] at h ⊢
    split at h
    · next hk =>
      obtain ⟨m, rfl, hm⟩ := hs
      cases h
      exact ⟨_, if_pos hk, m, rfl, hm⟩
    · next hk =>
      rw [if_neg hk]
      split at h
      · cases h
      · next u₁ hu₁ =>
        obtain ⟨u₂, hu₂, hu⟩ := emitByte_respects cap _ d₁ d₂ u₁ hs hu₁
        rw [hu₂]
        exact ih _ _ u₁ u₂ d' hu h

theorem decRecord_respects (cap : Option Nat) (n : Byte) : Respects DecUnit.SameCall (decRecord cap n) := by
  rintro d _ d' ⟨m, rfl, hm⟩ h
  unfold decRecord at h ⊢
  split at h
  · next hv =>
    cases h
    exact ⟨_, if_pos hv, m, rfl, hm⟩
  · next hv =>
    rw [if_neg hv]
    split at h
    · next hb =>
      rw [if_pos hb]
      exact byteLoop_respects cap _ _ _ d { d with dout := m } d' ⟨m, rfl, hm⟩ h
    · next hb =>
      rw [if_neg hb]
      cases h
      exact ⟨_, rfl, m, rfl, hm⟩

theorem decTakeIn_respects (cap : Option Nat) (c : Byte) : Respects DecUnit.SameCall (decTakeIn cap c) := by
  rintro d _ d' ⟨m, rfl, hm⟩ h
  unfold decTakeIn at h ⊢
  split at h
  · cases h
  · next u₁ hu₁ =>
    obtain ⟨u₂, hu₂, m', rfl, hm'⟩ := decRecord_respects cap (normalise c)
      { d with pfxok := pfxokAfter d.cnt (normalise c) d.pfxok }
      { d with pfxok := pfxokAfter d.cnt (normalise c) d.pfxok, dout := m } u₁ ⟨m, rfl, hm⟩ hu₁
    cases h
    rw [hu₂]
    exact ⟨_, rfl, m', rfl, hm'⟩

/-- After `DEC.START` the past is in the buffer only. -/
theorem decOpen_sameCall {d₁ d₂ : DecUnit} (hf : d₂.fault = d₁.fault) (hc : d₂.fcause = d₁.fcause) :
    DecUnit.SameCall (decOpen d₁) (decOpen d₂) :=
  ⟨d₂.dout, by simp only [decOpen, hf, hc], fun _ hk => absurd hk (Nat.not_lt_zero _)⟩

/-- Two states in the same decode call. -/
structure SameDecCall (s₁ s₂ : State) : Prop where
  illcmd : s₂.illcmd = s₁.illcmd
  limits : s₂.limits = s₁.limits
  unit : DecUnit.SameCall s₁.dec s₂.dec

theorem decCommand_sameDecCall {r f : Bool} {body : DecUnit → Except Fault DecUnit}
    (hbody : Respects DecUnit.SameCall body) {s₁ s₂ t₁ : State} (hs : SameDecCall s₁ s₂)
    (h : decCommand r f body s₁ = .next t₁) : ∃ t₂, decCommand r f body s₂ = .next t₂ ∧ SameDecCall t₁ t₂ := by
  obtain ⟨m, hd, hm⟩ := hs.unit
  have ha : admission .dec r f s₂ = admission .dec r f s₁ := admission_congr hs.illcmd (by simp [hd]) (by simp [hd])
  unfold decCommand at h ⊢
  rw [ha]
  split at h
  · cases h
    exact ⟨s₂, rfl, hs⟩
  · next c hc =>
    cases h
    exact ⟨_, rfl, hs.illcmd, hs.limits, m, by simp [hd], hm⟩
  · split at h
    · cases h
    · next d₁ hd₁ =>
      obtain ⟨d₂, hd₂, hsame⟩ := hbody _ _ _ hs.unit hd₁
      cases h
      rw [hd₂]
      exact ⟨_, rfl, hs.illcmd, hs.limits, hsame⟩

theorem exec_sameDecCall {i : Instr} (hu : i.unit = .dec) {s₁ s₂ t₁ : State} (hs : SameDecCall s₁ s₂)
    (h : exec i s₁ = .next t₁) : ∃ t₂, exec i s₂ = .next t₂ ∧ SameDecCall t₁ t₂ := by
  obtain ⟨m, hd, -⟩ := hs.unit
  cases i with
  | decStart =>
    simp only [exec, execDecStart] at h ⊢
    refine decCommand_sameDecCall (fun d _ d' hsame hd' => ?_) hs h
    obtain ⟨m, rfl, -⟩ := hsame
    cases hd'
    exact ⟨_, rfl, decOpen_sameCall rfl rfl⟩
  | decPush c =>
    have hc : s₂.dec.cnt = s₁.dec.cnt := by rw [hd]
    simp only [exec, execDecPush, hc, hs.limits] at h ⊢
    exact decCommand_sameDecCall (decTakeIn_respects _ c) hs h
  | decEnd =>
    simp only [exec, execDecEnd] at h ⊢
    refine decCommand_sameDecCall (fun d _ d' hsame hd' => ?_) hs h
    obtain ⟨m, rfl, hm⟩ := hsame
    cases hd'
    exact ⟨_, rfl, m, rfl, hm⟩
  | encStart => cases hu
  | encPush b => cases hu
  | encFlush => cases hu

/-- The window is the same: an open one shows no more than the call has written (R168). -/
theorem SameDecCall.readPort {s₁ s₂ : State} (hs : SameDecCall s₁ s₂) (h₁ : DecInv s₁.limits s₁.dec) (k : Nat) :
    readPort .dout k s₁ = readPort .dout k s₂ := by
  obtain ⟨m, hd, hm⟩ := hs.unit
  have hw : doutWindowOpen s₂.dec = doutWindowOpen s₁.dec := by rw [hd]; rfl
  have hlen : s₂.dec.olen = s₁.dec.olen := by rw [hd]
  have hbuf : s₂.dec.dout = m := by rw [hd]
  cases ho : doutWindowOpen s₁.dec with
  | false => rw [readPort_dout_closed ho, readPort_dout_closed (hw.trans ho)]
  | true =>
    obtain ⟨hp, hst, -⟩ := doutWindowOpen_iff.1 ho
    have hle := h₁.olen_le_widx hp hst
    by_cases hk : k < s₁.dec.olen
    · simp [Machine.readPort, windowLen, hw, ho, hlen, hbuf, hk, hm k (Nat.lt_of_lt_of_le hk hle)]
    · simp [Machine.readPort, windowLen, hw, ho, hlen, hk]

/-- The decoder's half of R56: from any two pasts a whole sequence after START ends in the same call. -/
theorem decCall_forgets {s₁ s₂ : State} {is : List Instr} (h₁ : s₁.Inv) (h₂ : s₂.Inv) (hl : s₁.limits = s₂.limits)
    (hi₁ : s₁.illcmd = false) (hi₂ : s₂.illcmd = false) (hu : ∀ i ∈ is, i.unit = .dec)
    (hf₁ : s₁.dec.fault = false) (hf₂ : s₂.dec.fault = false) :
    ∃ t₁ t₂, execAll (.decStart :: is) s₁ = .next t₁ ∧ execAll (.decStart :: is) s₂ = .next t₂ ∧ SameDecCall t₁ t₂ ∧
      t₁.Inv := by
  have hopen : SameDecCall { s₁ with dec := decOpen s₁.dec } { s₂ with dec := decOpen s₂.dec } :=
    ⟨hi₂.trans hi₁.symm, hl.symm,
      decOpen_sameCall (hf₂.trans hf₁.symm) ((h₂.dec.fault_iff.1 hf₂).trans (h₁.dec.fault_iff.1 hf₁).symm)⟩
  obtain ⟨t₁, ht₁, hinv⟩ := h₁.execAll_answers (.decStart :: is)
  have hrun := ht₁
  rw [execAll_cons (exec_decStart hi₁ hf₁)] at hrun
  obtain ⟨t₂, ht₂, hsame⟩ :=
    execAll_simulates (fun i hi _ _ _ hs h => exec_sameDecCall (hu i hi) hs h) hopen hrun
  exact ⟨t₁, t₂, ht₁, (execAll_cons (exec_decStart hi₂ hf₂)).trans ht₂, hsame, hinv⟩

/-- Settles O39: the two runs stay in the same call, whose registers and window do not show the past. -/
theorem aCallForgetsWhatCameBefore : Obligations.ACallForgetsWhatCameBefore := by
  intro s₁ s₂ is h₁ h₂ hl hi₁ hi₂
  constructor
  · intro hu hf₁ hf₂
    obtain ⟨t₁, t₂, ht₁, ht₂, hs⟩ := encCall_forgets h₁ h₂ hl hi₁ hi₂ hu hf₁ hf₂
    obtain ⟨m, he, -⟩ := hs.unit
    exact ⟨t₁, t₂, ht₁, ht₂, by rw [he], hs.readPort⟩
  · intro hu hf₁ hf₂
    obtain ⟨t₁, t₂, ht₁, ht₂, hs, hinv⟩ := decCall_forgets h₁ h₂ hl hi₁ hi₂ hu hf₁ hf₂
    obtain ⟨m, hd, -⟩ := hs.unit
    exact ⟨t₁, t₂, ht₁, ht₂, by rw [hd], hs.readPort hinv.dec⟩

end Sys2Proof.Machine
end

