-- ==== Sys2Proof/Proofs/UnmaskedEncoder.lean ====
section
/-!
PROOF. A whole ENCODE call gives what D0's encoder gives on an integer accumulator that is never masked (spec/10_state.md R25;
spec/40_encoder.md R120), for O46. A simulation: the block's accumulator is D0's on the live bits, the counts agree, and the
symbols written are D0's output.
-/

namespace Sys2Proof.Machine

/-! ## The symbols written -/

/-- The symbols of the call so far, as the buffer holds them, are the list. -/
structure HoldsOutput (e : EncUnit) (out : List Byte) : Prop where
  olen : e.olen = out.length
  symbols : ∀ k, k < e.olen → Memory.read e.eout k = out[k]?

theorem HoldsOutput.emit {e : EncUnit} {out : List Byte} (h : HoldsOutput e out) (x : Byte) :
    HoldsOutput { e with eout := Memory.write e.eout e.olen x, olen := e.olen + 1 } (out ++ [x]) where
  olen := by simp [h.olen]
  symbols := by
    intro k hk
    simp only [Memory.read_write]
    split
    · next hlast => simp [← hlast, h.olen]
    · have hk' : k < e.olen := by simp only at hk; omega
      rw [h.symbols k hk', List.getElem?_append_left (h.olen ▸ hk')]

/-- What the host reads is the list. -/
theorem HoldsOutput.window {s : State} {out : List Byte} (h : HoldsOutput s.enc out) : window .eout s = out := by
  have hread : ∀ k, k < s.enc.olen → Memory.read s.enc.eout k = some (out.getD k 0) := by
    intro k hk
    rw [h.symbols k hk, List.getD_eq_getElem?_getD, List.getElem?_eq_getElem (h.olen ▸ hk)]
    rfl
  rw [window_eout hread]
  apply List.ext_getElem (by simp [h.olen])
  intro k _ hk
  simp [hk]

/-! ## The loop -/

theorem d0Symbols_stop (fuel acc : Nat) {n : Nat} (h : n < 5) : d0Symbols fuel acc n = ([], n) := by
  cases fuel <;> simp [d0Symbols, h]

theorem d0Symbols_turn (fuel acc : Nat) {n : Nat} (h : 5 ≤ n) :
    d0Symbols (fuel + 1) acc n =
      (alpha (BitVec.ofNat 5 (acc >>> (n - 5) % 32)) :: (d0Symbols fuel acc (n - 5)).1,
        (d0Symbols fuel acc (n - 5)).2) := by
  simp [d0Symbols, Nat.not_lt.2 h]

/-- The top symbol of the live bits is D0's, which D0 finds below bits that the block has masked (R25). -/
theorem topSym_of_live {a : Acc} {acc n : Nat} (h : 5 ≤ n) (ha : a.toNat = acc % 2 ^ n) :
    topSym a n = BitVec.ofNat 5 (acc >>> (n - 5) % 32) := by
  have hdigit : acc % 2 ^ n / 2 ^ (n - 5) % 2 ^ 5 = acc / 2 ^ (n - 5) % 2 ^ 5 := mod_div_mod (by omega)
  rw [topSym_eq_ofNat, ha, Nat.shiftRight_eq_div_pow]
  exact congrArg (BitVec.ofNat 5) hdigit

theorem keepLow_of_live {a : Acc} {acc m n : Nat} (h : m ≤ n) (ha : a.toNat = acc % 2 ^ n) :
    (keepLow a m).toNat = acc % 2 ^ m := by
  rw [keepLow_toNat, ha, mod_mod_pow h]

/-- The unit has taken in `n` bytes and stands where D0's encoder stands after them. -/
structure SimulatesD0 (n : Nat) (st : D0Enc) (e : EncUnit) : Prop where
  count_lt : st.count < 5
  bits : e.bits.toNat = st.count
  acc : e.acc.toNat = st.acc % 2 ^ st.count
  /-- R126 (i): every bit taken in is live or written. -/
  live : st.count + 5 * e.olen = 8 * n
  output : HoldsOutput e st.out

/-- The loop of `ENC.PUSH` is D0's loop: it writes the same symbols and leaves the same live bits. -/
theorem symLoop_simulates {lim : Limits} {m : Nat} (hlim : withinLimit lim.maxBy m = true) {fuel : Nat} {a : Acc}
    {acc n : Nat} {e : EncUnit} {out : List Byte} (hfuel : n ≤ fuel) (ha : a.toNat = acc % 2 ^ n)
    (hlive : n + 5 * e.olen = 8 * m) (ho : HoldsOutput e out) :
    ∃ e', symLoop (capE lim) fuel a n e = .ok e' ∧
      SimulatesD0 m ⟨acc, (d0Symbols fuel acc n).2, out ++ (d0Symbols fuel acc n).1⟩ e' := by
  induction fuel generalizing a n e out with
  | zero =>
    obtain rfl : n = 0 := by omega
    exact ⟨_, rfl, (by decide : 0 < 5), rfl, ha, hlive, by simpa [d0Symbols] using ⟨ho.olen, ho.symbols⟩⟩
  | succ fuel ih =>
    by_cases hn : n < 5
    · rw [symLoop_stop _ _ _ _ hn, d0Symbols_stop _ _ hn]
      exact ⟨_, rfl, hn, toNat_ofNat4 (by omega), ha, hlive, by simpa using ⟨ho.olen, ho.symbols⟩⟩
    · have h5 : 5 ≤ n := by omega
      have hlive' : n - 5 + 5 * (e.olen + 1) = 8 * m := by omega
      rw [symLoop_turn _ _ _ _ h5 (hasIndex_capE hlim (by omega)), d0Symbols_turn _ _ h5, topSym_of_live h5 ha,
        List.append_cons]
      exact ih (by omega) (keepLow_of_live (by omega) ha) hlive' (ho.emit _)

/-! ## The commands of a call -/

/-- Shifting a byte in is D0's step on the live bits. -/
theorem shiftInByte_of_live {a : Acc} {acc n : Nat} (hn : n < 5) (ha : a.toNat = acc % 2 ^ n) (b : Byte) :
    (shiftInByte a b).toNat = (acc <<< 8 ||| b.toNat) % 2 ^ (n + 8) := by
  have hpow : 2 ^ n ≤ 2 ^ 4 := Nat.pow_le_pow_right (by decide) (by omega)
  have hlt : acc % 2 ^ n < 16 := Nat.lt_of_lt_of_le (Nat.mod_lt _ (Nat.two_pow_pos n)) hpow
  rw [shiftInByte_toNat a b (ha ▸ hlt), ha, ← Nat.shiftLeft_add_eq_or_of_lt b.isLt, Nat.shiftLeft_eq]
  exact mod_mul_add_mod b.isLt

theorem SimulatesD0.takeIn {lim : Limits} {n : Nat} {st : D0Enc} {e : EncUnit} (h : SimulatesD0 n st e)
    (hlim : withinLimit lim.maxBy (n + 1) = true) (b : Byte) :
    ∃ e', encTakeIn (capE lim) b e = .ok e' ∧ SimulatesD0 (n + 1) (d0EncByte st b) e' := by
  have hlive : st.count + 8 + 5 * e.olen = 8 * (n + 1) := by have := h.live; omega
  obtain ⟨e', he', hs⟩ := symLoop_simulates hlim (Nat.le_refl _) (shiftInByte_of_live h.count_lt h.acc b) hlive h.output
  refine ⟨{ e' with icnt := e'.icnt + 1 }, ?_, hs.count_lt, hs.bits, hs.acc, hs.live, hs.output.olen, hs.output.symbols⟩
  simp only [encTakeIn, h.bits, he']

/-- How D0's encoder ends: the left-over bits as a symbol, padded with zeros. -/
def d0Finish (st : D0Enc) : List Byte :=
  if st.count = 0 then st.out else st.out ++ [alpha (BitVec.ofNat 5 ((st.acc <<< (5 - st.count)) % 32))]

theorem d0Encode_eq (bytes : List Byte) : d0Encode bytes = d0Finish (bytes.foldl d0EncByte ⟨0, 0, []⟩) := rfl

/-- The padded symbol of the live bits is D0's. -/
theorem padSym_of_live {a : Acc} {acc n : Nat} (hn : n ≤ 5) (ha : a.toNat = acc % 2 ^ n) :
    padSym a n = BitVec.ofNat 5 (acc <<< (5 - n) % 32) := by
  have hmod : acc % 2 ^ n * 2 ^ (5 - n) = acc * 2 ^ (5 - n) % 32 := by
    rw [← Nat.mul_mod_mul_right, ← Nat.pow_add, Nat.add_sub_cancel' hn]
  rw [padSym_eq_ofNat, ha, hmod, Nat.shiftLeft_eq]

theorem SimulatesD0.close {lim : Limits} {n : Nat} {st : D0Enc} {e : EncUnit} (h : SimulatesD0 n st e)
    (hlim : withinLimit lim.maxBy n = true) :
    ∃ e', encClose (capE lim) e = .ok e' ∧ HoldsOutput e' (d0Finish st) := by
  have hlive := h.live
  by_cases h0 : st.count = 0
  · rw [encClose_none _ e (h.bits.trans h0), d0Finish, if_pos h0]
    exact ⟨_, rfl, h.output.olen, h.output.symbols⟩
  · have hb : 0 < e.bits.toNat := by rw [h.bits]; omega
    have hlt := h.count_lt
    rw [encClose_some _ e hb (hasIndex_capE hlim (by omega)), h.bits, padSym_of_live (by omega) h.acc, d0Finish,
      if_neg h0]
    exact ⟨_, rfl, (h.output.emit _).olen, (h.output.emit _).symbols⟩

/-! ## The whole call -/

/-- The state of an open encode call that stands where D0's encoder stands. -/
structure InD0Call (st : D0Enc) (s : State) : Prop where
  illcmd : s.illcmd = false
  fault : s.enc.fault = false
  phase : s.enc.phase = .run
  sim : SimulatesD0 s.enc.icnt st s.enc

theorem InD0Call.push {st : D0Enc} {s : State} (h : InD0Call st s)
    (hlim : withinLimit s.limits.maxBy (s.enc.icnt + 1) = true) (b : Byte) :
    ∃ t, exec (.encPush b) s = .next t ∧ InD0Call (d0EncByte st b) t ∧ t.limits = s.limits ∧
      t.enc.icnt = s.enc.icnt + 1 := by
  obtain ⟨e, he, hs⟩ := h.sim.takeIn hlim b
  obtain ⟨hp, hn, hf, -⟩ := encTakeIn_keeps he
  exact ⟨_, exec_encPush h.illcmd h.fault h.phase (ne_some_of_withinLimit hlim (Nat.lt_succ_self _)) he,
    ⟨h.illcmd, hf.trans h.fault, hp.trans h.phase, by rw [hn]; exact hs⟩, rfl, hn⟩

theorem InD0Call.pushes {st : D0Enc} {s : State} (h : InD0Call st s) {bytes : List Byte}
    (hlim : withinLimit s.limits.maxBy (s.enc.icnt + bytes.length) = true) :
    ∃ t, execAll (bytes.map Instr.encPush) s = .next t ∧ InD0Call (bytes.foldl d0EncByte st) t ∧
      withinLimit t.limits.maxBy t.enc.icnt = true := by
  induction bytes generalizing st s with
  | nil => exact ⟨s, rfl, h, hlim⟩
  | cons b bytes ih =>
    rw [List.length_cons] at hlim
    obtain ⟨u, hu, hcall, hl, hn⟩ := h.push (withinLimit_mono hlim (by omega)) b
    rw [List.map_cons, execAll_cons hu]
    exact ih hcall (by rw [hl, hn]; exact withinLimit_mono hlim (by omega))

theorem InD0Call.flush {st : D0Enc} {s : State} (h : InD0Call st s)
    (hlim : withinLimit s.limits.maxBy s.enc.icnt = true) :
    ∃ t, exec .encFlush s = .next t ∧ encodeComplete t = true ∧ window .eout t = d0Finish st := by
  obtain ⟨e, he, ho⟩ := h.sim.close hlim
  obtain ⟨hp, -, -, -, hf, -⟩ := encClose_keeps he
  exact ⟨_, exec_encFlush h.illcmd h.fault h.phase he, by simp [encodeComplete, hp, hf, h.fault, h.illcmd], ho.window⟩

theorem encOpen_simulatesD0 (e : EncUnit) : SimulatesD0 0 ⟨0, 0, []⟩ (encOpen e) :=
  ⟨by decide, rfl, rfl, rfl, rfl, fun _ hk => absurd hk (Nat.not_lt_zero _)⟩

/-- Settles O46: START puts the unit where D0 starts, every PUSH makes D0's step, and FLUSH ends as D0 does. -/
theorem encodeCallIsD0sUnmaskedAlgorithm : Obligations.EncodeCallIsD0sUnmaskedAlgorithm := by
  intro s bytes hi hf hlim
  have hopen : InD0Call ⟨0, 0, []⟩ { s with enc := encOpen s.enc } := ⟨hi, hf, rfl, encOpen_simulatesD0 s.enc⟩
  obtain ⟨u, hu, hcall, hlim'⟩ := hopen.pushes (bytes := bytes) (withinLimit_mono hlim (by simp))
  obtain ⟨t, ht, hdone, hw⟩ := hcall.flush hlim'
  refine ⟨t, ?_, hdone, hw.trans (d0Encode_eq bytes).symm⟩
  rw [encodeCall, execAll_cons (exec_encStart hi hf), execAll_append hu, execAll_cons ht, execAll_nil]

end Sys2Proof.Machine
end

