-- ==== Sys2Proof/Proofs/PhasesAndWriters.lean ====
section
/-!
PROOF. The phase table (spec/10_state.md R41) and the writers of each register and buffer (R21 to R50; spec/20_memory.md R60),
for O35 and O40. Both go by what a command can do: it is ignored, it raises SEQ or OVF, or its own rule runs.
-/

namespace Sys2Proof.Machine

/-- What a command's own rule does to its unit's phase and fault (R41). -/
theorem ExecutedBy.phase_and_fault {i : Instr} {s t : State} (h : ExecutedBy i s t) :
    unitFault i.unit t = unitFault i.unit s ∧
      unitPhase i.unit t = if isStart i then .run else if isClose i then .done else unitPhase i.unit s := by
  cases i with
  | encStart =>
    obtain rfl := h
    exact ⟨rfl, rfl⟩
  | encPush b =>
    obtain ⟨e, he, rfl⟩ := h
    obtain ⟨hp, -, hf, -⟩ := encTakeIn_keeps he
    exact ⟨hf, hp⟩
  | encFlush =>
    obtain ⟨e, he, rfl⟩ := h
    obtain ⟨hp, -, -, -, hf, -⟩ := encClose_keeps he
    exact ⟨hf, hp⟩
  | decStart =>
    obtain rfl := h
    exact ⟨rfl, rfl⟩
  | decPush c =>
    obtain ⟨d, hd, rfl⟩ := h
    obtain ⟨hp, -, -, hf, -⟩ := decTakeIn_keeps hd
    exact ⟨hf, hp⟩
  | decEnd =>
    obtain rfl := h
    exact ⟨rfl, rfl⟩

theorem isStart_of_isClose {i : Instr} (h : isClose i = true) : isStart i = false := by
  cases i with
  | encFlush => rfl
  | decEnd => rfl
  | encStart => cases h
  | encPush b => cases h
  | decStart => cases h
  | decPush c => cases h

/-- Settles O35: the rows of R41 are the outcomes of R95, read at the unit's phase and fault. -/
theorem phasesFollowTheTransitionTable : Obligations.PhasesFollowTheTransitionTable := by
  intro s i h
  refine ⟨exec_ignored, fun hi hf => ?_⟩
  obtain ⟨t, ht⟩ := h.exec_answers i
  refine ⟨t, ht, ?_⟩
  rcases exec_next ht with ⟨-, hign⟩ | ⟨-, -, hs, hp, rfl⟩ | ⟨-, -, hp, hfull, rfl⟩ | ⟨-, -, hp, hfull, hx⟩
  · simp [hi, hf] at hign
  · simp [hs, hp]
  · have hs := isStart_of_pushIsFull hfull
    have hc := (not_start_not_close_of_isPush (isPush_of_pushIsFull hfull)).2
    simp [hs, hc, hp, hfull]
  · obtain ⟨hfault, hphase⟩ := hx.phase_and_fault
    rw [hf] at hfault
    refine ⟨fun hs => ?_, fun hpush hrun => ?_, fun hc hrun => ?_, fun hs hrun => absurd (hp hs) hrun⟩
    · exact ⟨by simp [hphase, hs], hfault⟩
    · obtain ⟨hs, hc⟩ := not_start_not_close_of_isPush hpush
      exact ⟨by simp [hphase, hs, hc, hrun], fun hf' => absurd hf' hfull, fun _ => hfault⟩
    · exact ⟨by simp [hphase, hc, isStart_of_isClose hc], hfault⟩

/-- A command writes nothing, raises a usage fault of its unit, which a START does not, or runs by its own rule. -/
theorem exec_next_or_raises {i : Instr} {s t : State} (h : exec i s = .next t) :
    t = s ∨ (∃ c, isStart i = false ∧ unitFault i.unit s = false ∧ t = raiseUnitFault i.unit c s) ∨ ExecutedBy i s t := by
  rcases exec_next h with ⟨ht, -⟩ | ⟨-, hf, hs, -, ht⟩ | ⟨-, hf, -, hfull, ht⟩ | ⟨-, -, -, -, hx⟩
  · exact .inl ht
  · exact .inr (.inl ⟨_, hs, hf, ht⟩)
  · exact .inr (.inl ⟨_, isStart_of_pushIsFull hfull, hf, ht⟩)
  · exact .inr (.inr hx)

/-- Settles O40: an ignored command writes nothing, a raising one the two fault registers of its unit, and a rule that runs
what the frame lemma of its unit's rule leaves open. -/
theorem onlyTheNamedCommandsWriteEachRegister : Obligations.OnlyTheNamedCommandsWriteEachRegister := by
  intro i s t h
  refine ⟨(exec_frame h).1, ?_⟩
  rcases exec_next_or_raises h with rfl | ⟨cause, hs, hf, rfl⟩ | hx
  · simp
  · cases i with
    | encStart => cases hs
    | decStart => cases hs
    | encPush b => simp [Instr.unit, show s.enc.fault = false from hf]
    | encFlush => simp [Instr.unit, show s.enc.fault = false from hf]
    | decPush c => simp [Instr.unit, show s.dec.fault = false from hf]
    | decEnd => simp [Instr.unit, show s.dec.fault = false from hf]
  · cases i with
    | encStart =>
      obtain rfl := hx
      simp
    | encPush b =>
      obtain ⟨e, he, rfl⟩ := hx
      obtain ⟨hp, -, hf, hc⟩ := encTakeIn_keeps he
      simp [hp, hf, hc]
    | encFlush =>
      obtain ⟨e, he, rfl⟩ := hx
      obtain ⟨-, -, -, hn, hf, hc⟩ := encClose_keeps he
      simp [hn, hf, hc]
    | decStart =>
      obtain rfl := hx
      simp
    | decPush c =>
      obtain ⟨d, hd, rfl⟩ := hx
      obtain ⟨hp, hst, hol, hf, hc, -, hpfx, -⟩ := decTakeIn_keeps hd
      obtain ⟨hbad, herr⟩ := decTakeIn_badchar hd
      have hpfx' : d.pfxok ≠ s.dec.pfxok → s.dec.cnt = 0 := by
        intro hne
        by_contra hc0
        exact hne (hpfx.trans (pfxokAfter_of_ne hc0))
      simpa [hp, hst, hol, hf, hc] using ⟨hbad, hpfx', herr⟩
    | decEnd =>
      obtain rfl := hx
      simp

end Sys2Proof.Machine
end

