-- ==== Sys2Proof/Proofs/TablesAndCodes.lean ====
section
/-!
PROOF. The two tables (spec/10_state.md R31 to R34), the codes that the host reads (R40, R45, R49) and the reset column of
table T1 (R55), for O6, O7, O10 and O15.
-/

namespace Sys2Proof.Machine

/-! ## The tables -/

theorem alphaTable_nodup : alphaTable.Nodup := by decide

/-- `ALPHA` has an entry for every index, so no read of it falls back to the default. -/
theorem toNat_lt_alphaTable (i : Sym) : i.toNat < alphaTable.length := i.isLt

theorem alpha_eq_getElem (i : Sym) : alpha i = alphaTable[i.toNat]'(toNat_lt_alphaTable i) :=
  (List.getElem_eq_getD 0x00#8).symm

theorem alpha_injective {i j : Sym} (h : alpha i = alpha j) : i = j := by
  rw [alpha_eq_getElem, alpha_eq_getElem] at h
  exact BitVec.eq_of_toNat_eq (alphaTable_nodup.getElem_inj_iff.1 h)

/-- Settles O6: the table has no entry twice, and its entries are read off. -/
theorem alphabetEntriesAreDistinct : Obligations.AlphabetEntriesAreDistinct :=
  ⟨fun _ _ => alpha_injective, by decide, by decide, by decide, by decide⟩

/-- The search misses a code that is no entry. -/
theorem revFrom_of_not_mem {c : Byte} {l : List Byte} (h : c ∉ l) (i : Nat) :
    revFrom c l i = { valid := false, idx := 0 } := by
  induction l generalizing i with
  | nil => rfl
  | cons a l ih =>
    obtain ⟨hne, hrest⟩ : c ≠ a ∧ c ∉ l := by simpa using h
    rw [revFrom, if_neg (Ne.symm hne), ih hrest]

/-- The search finds an entry at its place. -/
theorem revFrom_getElem {l : List Byte} (hl : l.Nodup) (i : Nat) {k : Nat} (hk : k < l.length) :
    revFrom l[k] l i = { valid := true, idx := BitVec.ofNat 5 (i + k) } := by
  induction l generalizing i k with
  | nil => cases hk
  | cons a l ih =>
    obtain ⟨ha, hl⟩ := List.nodup_cons.1 hl
    cases k with
    | zero => simp [revFrom]
    | succ k =>
      have hk : k < l.length := Nat.lt_of_succ_lt_succ hk
      have hne : a ≠ l[k] := fun h => ha (h ▸ List.getElem_mem hk)
      rw [List.getElem_cons_succ, revFrom, if_neg hne, ih hl (i + 1) hk, Nat.add_right_comm, Nat.add_assoc]

/-- R34: `REV` after `ALPHA` is the identity. -/
theorem rev_alpha (i : Sym) : rev (alpha i) = { valid := true, idx := i } := by
  rw [alpha_eq_getElem, rev, revFrom_getElem alphaTable_nodup 0, Nat.zero_add, BitVec.ofNat_toNat, BitVec.setWidth_eq]

theorem rev_of_not_mem {c : Byte} (h : c ∉ alphaTable) : rev c = { valid := false, idx := 0 } := revFrom_of_not_mem h 0

theorem exists_alpha_of_mem {c : Byte} (h : c ∈ alphaTable) : ∃ i, alpha i = c := by
  obtain ⟨k, hk, rfl⟩ := List.mem_iff_getElem.1 h
  have hmod : (BitVec.ofNat 5 k).toNat = k := Nat.mod_eq_of_lt hk
  exact ⟨BitVec.ofNat 5 k, by simp only [alpha_eq_getElem, hmod]⟩

/-- A code is valid exactly when it is an entry of `ALPHA` (R33). -/
theorem rev_valid_iff {c : Byte} : (rev c).valid = true ↔ c ∈ alphaTable := by
  by_cases h : c ∈ alphaTable
  · obtain ⟨i, rfl⟩ := exists_alpha_of_mem h
    simp [rev_alpha, alpha_mem]
  · simp [rev_of_not_mem h, h]

/-- The entries of `ALPHA` as the ranges that R33 lists. -/
theorem mem_alphaTable_iff (c : Byte) : c ∈ alphaTable ↔
    (0x30 ≤ c.toNat ∧ c.toNat ≤ 0x39) ∨ (0x41 ≤ c.toNat ∧ c.toNat ≤ 0x48) ∨ c.toNat = 0x4A ∨ c.toNat = 0x4B ∨
    c.toNat = 0x4D ∨ c.toNat = 0x4E ∨ (0x50 ≤ c.toNat ∧ c.toNat ≤ 0x54) ∨ (0x56 ≤ c.toNat ∧ c.toNat ≤ 0x5A) := by
  simp only [alphaTable, List.mem_cons, List.not_mem_nil, or_false, ← BitVec.toNat_inj, BitVec.reduceToNat]
  omega

/-- The 256 codes, each once. -/
def allCodes : List Byte := (List.range 256).map (BitVec.ofNat 8)

theorem allCodes_nodup : allCodes.Nodup := by
  refine List.Nodup.map_on (fun m hm n hn h => ?_) List.nodup_range
  rw [List.mem_range] at hm hn
  have h := congrArg BitVec.toNat h
  simp only [BitVec.toNat_ofNat] at h
  omega

theorem mem_allCodes (c : Byte) : c ∈ allCodes :=
  List.mem_map.2 ⟨c.toNat, List.mem_range.2 c.isLt, by simp⟩

/-- There are as many valid codes as entries (R33). -/
theorem countP_rev_valid : ((List.range 256).countP fun n => (rev (BitVec.ofNat 8 n)).valid) = 32 := by
  have hperm : (allCodes.filter fun c => (rev c).valid).Perm alphaTable :=
    (List.perm_ext_iff_of_nodup (allCodes_nodup.filter _) alphaTable_nodup).2 fun c => by
      simp [mem_allCodes, rev_valid_iff]
  calc (List.range 256).countP (fun n => (rev (BitVec.ofNat 8 n)).valid)
      = allCodes.countP (fun c => (rev c).valid) := by rw [allCodes, List.countP_map]; rfl
    _ = (allCodes.filter fun c => (rev c).valid).length := List.countP_eq_length_filter
    _ = 32 := hperm.length_eq

/-- Settles O7: the search of `REV` finds every entry of `ALPHA` at its own place and nothing else. -/
theorem reverseTableInvertsTheAlphabet : Obligations.ReverseTableInvertsTheAlphabet := by
  refine ⟨rev_alpha, fun c hv => ?_, fun c hv => ?_, countP_rev_valid,
    fun c => rev_valid_iff.trans (mem_alphaTable_iff c)⟩
  · obtain ⟨i, rfl⟩ := exists_alpha_of_mem (rev_valid_iff.1 hv)
    rw [rev_alpha]
  · exact rev_of_not_mem fun hmem => by simp [rev_valid_iff.2 hmem] at hv

/-! ## The codes -/

theorem phaseCode_iff (p : Phase) :
    (phaseCode p = 0 ↔ p = .idle) ∧ (phaseCode p = 1 ↔ p = .run) ∧ (phaseCode p = 2 ↔ p = .done) ∧ phaseCode p ≠ 3 := by
  cases p <;> decide

theorem verdictCode_iff (v : Verdict) :
    (verdictCode v = 0 ↔ v = .none) ∧ (verdictCode v = 1 ↔ v = .ok) ∧ (verdictCode v = 2 ↔ v = .invChar) ∧
      (verdictCode v = 3 ↔ v = .invLen) ∧ (verdictCode v = 4 ↔ v = .invPfx) := by
  cases v <;> decide

theorem causeCode_iff (c : FCause) :
    (causeCode c = 0 ↔ c = .none) ∧ (causeCode c = 1 ↔ c = .seq) ∧ (causeCode c = 2 ↔ c = .ovf) := by
  cases c <;> decide

/-- Settles O10: each observed register is the code of its value. -/
theorem hostReadsTheNumberedCodes : Obligations.HostReadsTheNumberedCodes := by
  intro s
  obtain ⟨e0, e1, e2, e3⟩ := phaseCode_iff s.enc.phase
  obtain ⟨d0, d1, d2, d3⟩ := phaseCode_iff s.dec.phase
  obtain ⟨v0, v1, v2, v3, v4⟩ := verdictCode_iff s.dec.status
  obtain ⟨c0, c1, c2⟩ := causeCode_iff s.enc.fcause
  exact ⟨e0, e1, e2, e3, d0, d1, d2, d3, v0, v1, v2, v3, v4, c0, c1, c2, causeCode_iff s.dec.fcause⟩

/-! ## Reset -/

/-- Both windows are empty after reset. -/
theorem readPort_hardReset (sel : BufSel) (k : Nat) (s : State) : readPort sel k (hardReset s) = none := by
  cases sel with
  | eout => exact readPort_eout_none (Nat.zero_le k)
  | dout => exact readPort_dout_closed rfl

/-- Settles O15: the step is `hardReset`, whose registers are the column's. -/
theorem resetGivesTableT1 : Obligations.ResetGivesTableT1 := by
  intro s rest hp
  have hwin : ∀ sel k, readPort sel k (hardReset { s with port := rest }) = none :=
    fun sel k => readPort_hardReset sel k _
  exact ⟨_, step_reset hp, rfl, rfl, rfl, rfl, rfl, rfl, rfl, rfl, rfl, rfl, rfl, rfl, rfl, rfl, rfl, rfl, rfl, rfl, rfl,
    rfl, hwin, rfl, rfl, rfl⟩

end Sys2Proof.Machine
end

