-- ==== Sys2Proof/Proofs/StepsAnswer.lean ====
section
/-!
PROOF. What a step makes of the host's next act (spec/20_memory.md R72; spec/30_encoding.md R95), that no step stops at a
command boundary (R70; spec/70_reset_and_hazards.md R253), and that issued words run in order, for O11, O14 and O18.
-/

namespace Sys2Proof.Machine

/-- No step stops at a command boundary, by what the port holds next: nothing, a reset, a command or a reserved word. -/
theorem State.Inv.step_answers {s : State} (h : s.Inv) : ∃ t, step s = .next t := by
  match hp : s.port with
  | [] => exact ⟨_, step_idle hp⟩
  | .reset :: rest => exact ⟨_, step_reset hp⟩
  | .word w :: rest =>
    match hw : decode w with
    | .instr i =>
      rw [step_word hp hw]
      exact (h.withPort rest).exec_answers i
    | .reserved r =>
      cases hi : s.illcmd with
      | true => exact ⟨_, step_frozen hp hi⟩
      | false => exact ⟨_, step_reserved hp hi hw⟩

/-- Settles O18: a command answers where the invariant holds, and every other act answers in every state. -/
theorem noStepStops : Obligations.NoStepStops :=
  fun _ h => h.step_answers

/-- Settles O11, by the two equations of the step. -/
theorem stepTakesTheHostsNextAct : Obligations.StepTakesTheHostsNextAct :=
  fun _ => ⟨step_idle, fun _ _ _ => step_word⟩

/-! ## Words issued together -/

/-- A command's word decodes to the command (R94). -/
theorem decode_encode (i : Instr) : decode (encode i) = .instr i := by
  cases i with
  | encStart => decide
  | encPush b => revert b; decide
  | encFlush => decide
  | decStart => decide
  | decPush c => revert c; decide
  | decEnd => decide

/-- A step whose next act is a command's word is that command, with the acts that follow left on the port. -/
theorem step_issued {i : Instr} {s t : State} (rest : List HostAct) (h : exec i s = .next t) :
    step { s with port := .word (encode i) :: rest } = .next { t with port := rest } := by
  rw [step_word rfl (decode_encode i)]
  exact exec_port (s := s) rest h

/-- A run of one more step goes on from the state that the first step gives. -/
theorem run_succ_of_step {k : Nat} {s t : State} (h : step s = .next t) :
    Host.Core.run Sys2Proof.core (k + 1) s = Host.Core.run Sys2Proof.core k t := by
  have h : Sys2Proof.core.step s = .next t := h
  simp only [Host.Core.run, h]

/-- Settles O14, by induction over the words issued: each step takes the first and runs its command. -/
theorem issuedWordsRunInOrder : Obligations.IssuedWordsRunInOrder := by
  intro is s t rest h
  induction is generalizing s with
  | nil =>
    cases h
    rfl
  | cons i is ih =>
    obtain ⟨u, hu, h⟩ := execAll_cons_next h
    exact (run_succ_of_step (step_issued _ hu)).trans (ih u h)

end Sys2Proof.Machine
end

