-- ==== Sys2Proof/Proofs/Interleaving.lean ====
section
/-!
PROOF. Commands of the two units may be interleaved in any way (spec/20_memory.md R73), for O38. A simulation of the whole
sequence by one unit's commands alone: what that unit sees, its registers, `ILLCMD` and the limits, is kept equal.
-/

namespace Sys2Proof.Machine

/-- Unit `u` sees the same in both states (R26). -/
structure SameView (u : UnitSel) (s s' : State) : Prop where
  illcmd : s'.illcmd = s.illcmd
  limits : s'.limits = s.limits
  enc : u = .enc → s'.enc = s.enc
  dec : u = .dec → s'.dec = s.dec

theorem SameView.refl (u : UnitSel) (s : State) : SameView u s s := ⟨rfl, rfl, fun _ => rfl, fun _ => rfl⟩

theorem SameView.trans {u : UnitSel} {s s' s'' : State} (h : SameView u s s') (h' : SameView u s' s'') :
    SameView u s s'' where
  illcmd := h'.illcmd.trans h.illcmd
  limits := h'.limits.trans h.limits
  enc hu := (h'.enc hu).trans (h.enc hu)
  dec hu := (h'.dec hu).trans (h.dec hu)

theorem SameView.symm {u : UnitSel} {s s' : State} (h : SameView u s s') : SameView u s' s where
  illcmd := h.illcmd.symm
  limits := h.limits.symm
  enc hu := (h.enc hu).symm
  dec hu := (h.dec hu).symm

/-- A unit's own command does the same to all that the unit sees. -/
theorem SameView.exec_own {u : UnitSel} {s s' t : State} {i : Instr} (h : SameView u s s') (hu : i.unit = u)
    (hx : exec i s = .next t) : ∃ t', exec i s' = .next t' ∧ SameView u t t' := by
  obtain ⟨hill, hlim, -⟩ := exec_frame hx
  cases u with
  | enc =>
    exact ⟨_, (exec_enc_only hu hx h.illcmd h.limits (h.enc rfl)).2, h.illcmd.trans hill.symm, h.limits.trans hlim.symm,
      fun _ => rfl, nofun⟩
  | dec =>
    exact ⟨_, (exec_dec_only hu hx h.illcmd h.limits (h.dec rfl)).2, h.illcmd.trans hill.symm, h.limits.trans hlim.symm,
      nofun, fun _ => rfl⟩

/-- A command of the other unit changes nothing that a unit sees. -/
theorem exec_other_sameView {u : UnitSel} {s t : State} {i : Instr} (hu : i.unit ≠ u) (hx : exec i s = .next t) :
    SameView u s t := by
  obtain ⟨hill, hlim, -⟩ := exec_frame hx
  cases hi : i.unit with
  | enc =>
    refine ⟨hill, hlim, fun h => absurd (hi.trans h.symm) hu, fun _ => ?_⟩
    rw [(exec_enc_only hi hx rfl rfl rfl).1]
  | dec =>
    refine ⟨hill, hlim, fun _ => ?_, fun h => absurd (hi.trans h.symm) hu⟩
    rw [(exec_dec_only hi hx rfl rfl rfl).1]

/-- A unit's commands of a sequence, run alone, leave all that the unit sees as the whole sequence does. -/
theorem execAll_filter_sameView {u : UnitSel} {is : List Instr} {s s' t : State} (hv : SameView u s s')
    (h : execAll is s = .next t) :
    ∃ t', execAll (is.filter fun i => decide (i.unit = u)) s' = .next t' ∧ SameView u t t' := by
  induction is generalizing s s' with
  | nil =>
    cases h
    exact ⟨s', rfl, hv⟩
  | cons i is ih =>
    obtain ⟨v, hx, h⟩ := execAll_cons_next h
    by_cases hu : i.unit = u
    · obtain ⟨v', hx', hv'⟩ := hv.exec_own hu hx
      rw [List.filter_cons_of_pos (by simpa using hu), execAll_cons hx']
      exact ih hv' h
    · rw [List.filter_cons_of_neg (by simpa using hu)]
      exact ih ((exec_other_sameView hu hx).symm.trans hv) h

/-- Settles O38: each unit sees the same at the end of the interleaved sequence and of its own commands alone. -/
theorem interleavedCallsAreIndependent : Obligations.InterleavedCallsAreIndependent := by
  intro is s t h
  obtain ⟨te, hte, hve⟩ := execAll_filter_sameView (.refl .enc s) h
  obtain ⟨td, htd, hvd⟩ := execAll_filter_sameView (.refl .dec s) h
  exact ⟨⟨te, hte, hve.enc rfl⟩, ⟨td, htd, hvd.dec rfl⟩⟩

end Sys2Proof.Machine
end

