-- ==== Sys2Proof/Proofs/BuffersAndWindows.lean ====
section
/-!
PROOF. No command writes past a buffer's end (spec/20_memory.md R70), the host reads inside the windows only (R66 to R68;
spec/40_encoder.md R132), and what it has read once stands until the unit's START (R75), for O19, O41 and O42.
-/

namespace Sys2Proof.Machine

/-! ## Bounds -/

theorem Memory.within_some {c : Nat} {m : Memory} : Memory.within (some c) m = true ↔ ∀ cell ∈ m, cell.1 < c := by
  simp [Memory.within]

/-- With a finite limit `EOUT` has `ceil(8 * MAXBY / 5)` elements, and the unit stays inside them (R70). -/
theorem EncInv.within_capacity {lim : Limits} {e : EncUnit} {n : Nat} (h : EncInv lim e) (hn : lim.maxBy = some n) :
    (8 * e.icnt + 4) / 5 ≤ (8 * n + 4) / 5 ∧ ∀ cell ∈ e.eout, cell.1 < (8 * n + 4) / 5 := by
  have hcnt : e.icnt ≤ n := by simpa [hn, withinLimit] using h.icnt_le
  refine ⟨by omega, Memory.within_some.1 ?_⟩
  simpa [capE, hn] using h.eout_within

/-- With a finite limit `DOUT` has `floor(5 * MAXCH / 8)` elements, and the unit stays inside them (R70). -/
theorem DecInv.within_capacity {lim : Limits} {d : DecUnit} {n : Nat} (h : DecInv lim d) (hn : lim.maxCh = some n) :
    5 * d.cnt / 8 ≤ 5 * n / 8 ∧ ∀ cell ∈ d.dout, cell.1 < 5 * n / 8 := by
  have hcnt : d.cnt ≤ n := by simpa [hn, withinLimit] using h.cnt_le
  refine ⟨by omega, Memory.within_some.1 ?_⟩
  simpa [capD, hn] using h.dout_within

/-- Settles O19: the state after the command meets the invariant, under the same limits. -/
theorem noCommandWritesPastABuffersEnd : Obligations.NoCommandWritesPastABuffersEnd := by
  intro s i h
  obtain ⟨t, ht⟩ := h.exec_answers i
  have hinv : t.Inv := exec_keeps_inv h ht
  obtain ⟨-, hlim, -⟩ := exec_frame ht
  exact ⟨t, ht, hinv.enc.olen_le, hinv.dec.widx_le, fun n hn => hinv.enc.within_capacity (hlim ▸ hn),
    fun n hn => hinv.dec.within_capacity (hlim ▸ hn)⟩

/-! ## The windows -/

/-- Every element of the window of `EOUT` is an entry of the alphabet (R132). -/
theorem EncInv.read_alpha {lim : Limits} {e : EncUnit} {k : Nat} (h : EncInv lim e) (hk : k < e.olen) :
    ∃ c ∈ alphaTable, Memory.read e.eout k = some c := by
  obtain ⟨c, hc⟩ := Option.isSome_iff_exists.1 (h.eout_listed k hk)
  exact ⟨c, h.eout_alpha _ (Memory.mem_of_read hc), hc⟩

/-- Every byte of a published result has been written (R67, R168). -/
theorem DecInv.read_published {lim : Limits} {d : DecUnit} {k : Nat} (h : DecInv lim d) (hp : d.phase = .done)
    (hs : d.status = .ok) (hk : k < d.olen) : ∃ x, Memory.read d.dout k = some x :=
  Option.isSome_iff_exists.1 (h.dout_listed k (Nat.lt_of_lt_of_le hk (h.olen_le_widx hp hs)))

/-- The window of `DOUT` is closed outside DONE, without the verdict OK, and under a fault (R67). -/
theorem doutWindowOpen_eq_false {d : DecUnit} :
    doutWindowOpen d = false ↔ d.phase ≠ .done ∨ d.status ≠ .ok ∨ d.fault = true := by
  rw [← Bool.not_eq_true, doutWindowOpen_iff]
  simp only [not_and_or, Bool.not_eq_false, ne_eq]

/-- Settles O41: the invariant gives the elements below each window's length, and the windows hide the rest. -/
theorem hostReadsOnlyInsideTheWindows : Obligations.HostReadsOnlyInsideTheWindows := by
  intro s k h
  refine ⟨fun hk => ?_, readPort_eout_none, fun hp hs hf hk => ?_, fun hout => ?_⟩
  · obtain ⟨c, hmem, hc⟩ := h.enc.read_alpha hk
    exact ⟨c, hmem, hc, readPort_eout.2 ⟨hk, hc⟩⟩
  · obtain ⟨x, hx⟩ := h.dec.read_published hp hs hk
    exact ⟨x, hx, readPort_dout.2 ⟨doutWindowOpen_iff.2 ⟨hp, hs, hf⟩, hk, hx⟩⟩
  · rcases hout with hp | hs | hf | hk
    · exact readPort_dout_closed (doutWindowOpen_eq_false.2 (.inl hp))
    · exact readPort_dout_closed (doutWindowOpen_eq_false.2 (.inr (.inl hs)))
    · exact readPort_dout_closed (doutWindowOpen_eq_false.2 (.inr (.inr hf)))
    · exact readPort_dout_none hk

/-! ## Published symbols -/

/-- The symbols written stand, and others may follow them. -/
def EncUnit.Extends (e e' : EncUnit) : Prop :=
  e.olen ≤ e'.olen ∧ ∀ k, k < e.olen → Memory.read e'.eout k = Memory.read e.eout k

theorem EncUnit.Extends.refl (e : EncUnit) : e.Extends e := ⟨Nat.le_refl _, fun _ _ => rfl⟩

theorem EncUnit.Extends.trans {e e' e'' : EncUnit} (h : e.Extends e') (h' : e'.Extends e'') : e.Extends e'' :=
  ⟨h.1.trans h'.1, fun k hk => (h'.2 k (Nat.lt_of_lt_of_le hk h.1)).trans (h.2 k hk)⟩

theorem emitSym_extends {cap : Option Nat} {sym : Sym} {e e' : EncUnit} (h : emitSym cap sym e = .ok e') :
    e.Extends e' := by
  obtain ⟨-, rfl⟩ := emitSym_next h
  exact ⟨Nat.le_succ _, fun k hk => Memory.read_write_other _ _ _ _ (Nat.ne_of_gt hk)⟩

theorem symLoop_extends {cap : Option Nat} {fuel : Nat} {a : Acc} {n : Nat} {e e' : EncUnit}
    (h : symLoop cap fuel a n e = .ok e') : e.Extends e' := by
  induction fuel generalizing a n e with
  | zero =>
    cases h
    exact .refl e
  | succ fuel ih =>
    simp only [symLoop] at h
    split at h
    · cases h
      exact .refl e
    · split at h
      · cases h
      · next he => exact (emitSym_extends he).trans (ih h)

theorem encTakeIn_extends {cap : Option Nat} {b : Byte} {e e' : EncUnit} (h : encTakeIn cap b e = .ok e') :
    e.Extends e' := by
  unfold encTakeIn at h
  split at h
  · cases h
  · next he =>
    cases h
    obtain ⟨hlen, hkeep⟩ := symLoop_extends he
    exact ⟨hlen, hkeep⟩

theorem encClose_extends {cap : Option Nat} {e e' : EncUnit} (h : encClose cap e = .ok e') : e.Extends e' := by
  unfold encClose at h
  split at h
  · split at h
    · cases h
    · next he =>
      cases h
      obtain ⟨hlen, hkeep⟩ := emitSym_extends he
      exact ⟨hlen, hkeep⟩
  · cases h
    exact EncUnit.Extends.refl e

/-- Every command but `ENC.START` lets the symbols written stand (R75). -/
theorem exec_enc_extends {i : Instr} {s t : State} (hne : i ≠ .encStart) (h : exec i s = .next t) :
    s.enc.Extends t.enc := by
  have hsame : s.enc.Extends s.enc := .refl s.enc
  rcases exec_next_or_raises h with rfl | ⟨cause, -, -, rfl⟩ | hx
  · exact hsame
  · cases i.unit <;> exact hsame
  · cases i with
    | encStart => exact absurd rfl hne
    | encPush b =>
      obtain ⟨e, he, rfl⟩ := hx
      exact encTakeIn_extends he
    | encFlush =>
      obtain ⟨e, he, rfl⟩ := hx
      exact encClose_extends he
    | decStart =>
      obtain rfl := hx
      exact hsame
    | decPush c =>
      obtain ⟨d, -, rfl⟩ := hx
      exact hsame
    | decEnd =>
      obtain rfl := hx
      exact hsame

/-! ## Published bytes -/

theorem isStart_of_dec {i : Instr} (hu : i.unit = .dec) (hne : i ≠ .decStart) : isStart i = false := by
  cases i with
  | decPush c => rfl
  | decEnd => rfl
  | decStart => exact absurd rfl hne
  | encStart => cases hu
  | encPush b => cases hu
  | encFlush => cases hu

/-- A command other than a START changes nothing in DONE unless it faults its unit (R41, R206). -/
theorem exec_eq_of_done {i : Instr} {s t : State} (hs : isStart i = false) (hp : unitPhase i.unit s = .done)
    (hf : unitFault i.unit t = false) (h : exec i s = .next t) : t = s := by
  rcases exec_next h with ⟨rfl, -⟩ | ⟨-, -, -, -, rfl⟩ | ⟨-, -, -, -, rfl⟩ | ⟨-, -, hrun, -, -⟩
  · rfl
  · simp at hf
  · simp at hf
  · cases hp.symm.trans (hrun hs)

/-- Every command but `DEC.START` leaves a completed decode call as it is, or faults the unit (R75). -/
theorem exec_dec_eq_of_done {i : Instr} {s t : State} (hne : i ≠ .decStart) (hp : s.dec.phase = .done)
    (hf : t.dec.fault = false) (h : exec i s = .next t) : t.dec = s.dec := by
  cases hu : i.unit with
  | enc => rw [(exec_enc_only hu h rfl rfl rfl).1]
  | dec =>
    rw [exec_eq_of_done (isStart_of_dec hu hne) (by rwa [hu]) (by rwa [hu]) h]

/-- Settles O42: symbols written stand, and a completed decode call is left alone. -/
theorem publishedElementsAreStable : Obligations.PublishedElementsAreStable := by
  intro s t i k x _ h
  refine ⟨fun hne hread => ?_, fun hne hread hf => ?_⟩
  · obtain ⟨hk, hx⟩ := readPort_eout.1 hread
    obtain ⟨hlen, hkeep⟩ := exec_enc_extends hne h
    exact readPort_eout.2 ⟨Nat.lt_of_lt_of_le hk hlen, (hkeep k hk).trans hx⟩
  · obtain ⟨hopen, hk, hx⟩ := readPort_dout.1 hread
    obtain ⟨hp, -, -⟩ := doutWindowOpen_iff.1 hopen
    rw [readPort_dout, exec_dec_eq_of_done hne hp hf h]
    exact ⟨hopen, hk, hx⟩

end Sys2Proof.Machine
end

