-- ==== Sys2Proof/Proofs/CommandWords.lean ====
section
/-!
PROOF. The command words: decoding and encoding undo each other, the six patterns, and the reserved words
(spec/30_encoding.md R91 to R99), for O1 to O5. A word is its opcode `w[11:8]` above its operand `w[7:0]`, and each pattern is a
condition on these two.
-/

namespace Sys2Proof.Machine

/-! ## Decoding and encoding -/

/-- Every command's word holds its fields, they are well formed, and bit 10 names the unit (R91). -/
theorem wordFields (i : Instr) : Laws.WordFields.Statement i := by
  cases i with
  | encStart => exact Laws.WordFields.encStart
  | encPush b => exact Laws.WordFields.encPush b
  | encFlush => exact Laws.WordFields.encFlush
  | decStart => exact Laws.WordFields.decStart
  | decPush c => exact Laws.WordFields.decPush c
  | decEnd => exact Laws.WordFields.decEnd

/-- Settles O1, by the fields of each command's word and by its decoding. -/
theorem everyCommandDecodesFromItsWord : Obligations.EveryCommandDecodesFromItsWord := by
  intro i
  obtain ⟨-, hwf, -⟩ := wordFields i
  exact ⟨hwf, decode_encode i⟩

/-- A word is its opcode above its operand. -/
theorem eq_append_iff {w : CmdWord} {op : BitVec 4} {data : Byte} :
    w = op ++ data ↔ w.extractLsb' 8 4 = op ∧ operand w = data := by
  constructor
  · rintro rfl
    exact ⟨BitVec.extractLsb'_append_eq_left, BitVec.extractLsb'_append_eq_right⟩
  · rintro ⟨rfl, rfl⟩
    have happ : w.extractLsb' 8 4 ++ w.extractLsb' 0 8 = w.extractLsb' 0 12 :=
      BitVec.extractLsb'_append_extractLsb'_eq_extractLsb' (by decide)
    exact (happ.trans BitVec.extractLsb'_eq_self).symm

/-- The mask of a command without an operand keeps the whole word. -/
theorem and_fullMask (w : CmdWord) : w &&& 0xFFF#12 = w := BitVec.and_allOnes

/-- The pattern of a command without an operand fixes the opcode and a zero operand. -/
theorem fullMask_iff {w : CmdWord} (op : BitVec 4) :
    w &&& 0xFFF#12 = op ++ 0x00#8 ↔ w.extractLsb' 8 4 = op ∧ operand w = 0x00#8 := by
  rw [and_fullMask, eq_append_iff]

/-- The pattern of a PUSH fixes the opcode only. -/
theorem pushMask_iff {w : CmdWord} (op : BitVec 4) : w &&& 0xF00#12 = op ++ 0x00#8 ↔ w.extractLsb' 8 4 = op := by
  have hw : w = w.extractLsb' 8 4 ++ operand w := eq_append_iff.2 ⟨rfl, rfl⟩
  have hmask : w &&& 0xF00#12 = w.extractLsb' 8 4 ++ 0x00#8 :=
    calc w &&& 0xF00#12 = (w.extractLsb' 8 4 ++ operand w) &&& (BitVec.allOnes 4 ++ 0x00#8) := by rw [← hw]; rfl
      _ = w.extractLsb' 8 4 ++ 0x00#8 := by rw [BitVec.and_append, BitVec.and_allOnes, BitVec.and_zero]
  rw [hmask, BitVec.append_left_inj]

/-- The word of `ENC.PUSH` is its opcode above its operand (R91, R92). -/
theorem encode_encPush (b : Byte) : encode (.encPush b) = 2#4 ++ b :=
  congrArg (fun op : BitVec 4 => op ++ b) (by decide : (0#1 ++ 0#1 ++ 2#2 : BitVec 4) = 2#4)

/-- The word of `DEC.PUSH` is its opcode above its operand (R91, R92). -/
theorem encode_decPush (c : Byte) : encode (.decPush c) = 6#4 ++ c :=
  congrArg (fun op : BitVec 4 => op ++ c) (by decide : (0#1 ++ 1#1 ++ 2#2 : BitVec 4) = 6#4)

theorem encode_encPush_eq_iff {w : CmdWord} {b : Byte} :
    encode (.encPush b) = w ↔ w &&& 0xF00#12 = 0x200#12 ∧ b = operand w := by
  rw [encode_encPush, eq_comm, eq_append_iff, ← pushMask_iff, eq_comm (a := operand w)]
  rfl

theorem encode_decPush_eq_iff {w : CmdWord} {c : Byte} :
    encode (.decPush c) = w ↔ w &&& 0xF00#12 = 0x600#12 ∧ c = operand w := by
  rw [encode_decPush, eq_comm, eq_append_iff, ← pushMask_iff, eq_comm (a := operand w)]
  rfl

/-- A word that decodes to a command matches the command's pattern, so it is the command's word. -/
theorem encode_of_decode {w : CmdWord} {i : Instr} (h : decode w = .instr i) : encode i = w := by
  have hfull {x : CmdWord} (hw : w &&& 0xFFF#12 = x) : x = w := hw.symm.trans (and_fullMask w)
  unfold decode at h
  split at h
  · next hw => cases h; exact hfull hw
  split at h
  · next hw => cases h; exact encode_encPush_eq_iff.2 ⟨hw, rfl⟩
  split at h
  · next hw => cases h; exact hfull hw
  split at h
  · next hw => cases h; exact hfull hw
  split at h
  · next hw => cases h; exact encode_decPush_eq_iff.2 ⟨hw, rfl⟩
  split at h
  · next hw => cases h; exact hfull hw
  · cases h

/-- Decoding reads a command exactly from the command's one word (R94, R99). -/
theorem decode_eq_instr_iff {w : CmdWord} {i : Instr} : decode w = .instr i ↔ encode i = w :=
  ⟨encode_of_decode, fun h => h ▸ decode_encode i⟩

theorem encode_injective : Function.Injective encode := by
  intro i j h
  simpa [decode_encode] using congrArg decode h

/-- Settles O2: decoding a word to a command finds the word's own pattern. -/
theorem everyDecodedWordIsItsCommandsWord : Obligations.EveryDecodedWordIsItsCommandsWord :=
  fun _ _ => encode_of_decode

/-! ## The six patterns -/

theorem instr_forall_iff {P : Instr → Prop} : (∀ i, P i) ↔
    P .encStart ∧ (∀ b, P (.encPush b)) ∧ P .encFlush ∧ P .decStart ∧ (∀ c, P (.decPush c)) ∧ P .decEnd := by
  refine ⟨fun h => ⟨h _, fun b => h _, h _, h _, fun c => h _, h _⟩, fun ⟨h1, h2, h3, h4, h5, h6⟩ i => ?_⟩
  cases i with
  | encStart => exact h1
  | encPush b => exact h2 b
  | encFlush => exact h3
  | decStart => exact h4
  | decPush c => exact h5 c
  | decEnd => exact h6

theorem exists_reserved_iff {w : CmdWord} : (∃ r, decode w = .reserved r) ↔ ∀ i, decode w ≠ .instr i := by
  cases decode w with
  | instr i => simp
  | reserved r => simp

/-- A command without an operand has the one word of its pattern (R94). -/
theorem decode_eq_iff_fullMask {w : CmdWord} {i : Instr} : decode w = .instr i ↔ w &&& 0xFFF#12 = encode i := by
  rw [and_fullMask, decode_eq_instr_iff, eq_comm]

theorem decode_eq_encPush_iff {w : CmdWord} {b : Byte} :
    decode w = .instr (.encPush b) ↔ w &&& 0xF00#12 = 0x200#12 ∧ b = operand w :=
  decode_eq_instr_iff.trans encode_encPush_eq_iff

theorem decode_eq_decPush_iff {w : CmdWord} {c : Byte} :
    decode w = .instr (.decPush c) ↔ w &&& 0xF00#12 = 0x600#12 ∧ c = operand w :=
  decode_eq_instr_iff.trans encode_decPush_eq_iff

/-- A reserved word is one that matches none of the six patterns (R94, R98). -/
theorem reserved_iff_no_pattern {w : CmdWord} : (∃ r, decode w = .reserved r) ↔
    w &&& 0xFFF#12 ≠ 0x100#12 ∧ w &&& 0xF00#12 ≠ 0x200#12 ∧ w &&& 0xFFF#12 ≠ 0x300#12 ∧
    w &&& 0xFFF#12 ≠ 0x500#12 ∧ w &&& 0xF00#12 ≠ 0x600#12 ∧ w &&& 0xFFF#12 ≠ 0x700#12 := by
  have hnone {P : Prop} : (∀ b : Byte, ¬(P ∧ b = operand w)) ↔ ¬P := by simp
  rw [exists_reserved_iff, instr_forall_iff]
  simp only [Ne, decode_eq_encPush_iff, decode_eq_decPush_iff, hnone]
  simp only [decode_eq_iff_fullMask]
  rfl

/-- Settles O3: the clauses are the six patterns, and no pattern at all. -/
theorem decodeFollowsMatchAndMask : Obligations.DecodeFollowsMatchAndMask :=
  fun _ => ⟨decode_eq_iff_fullMask, fun _ => decode_eq_encPush_iff, decode_eq_iff_fullMask, decode_eq_iff_fullMask,
    fun _ => decode_eq_decPush_iff, decode_eq_iff_fullMask, reserved_iff_no_pattern⟩

/-- Settles O5: the first six words are those of commands, and the other four are reserved in their class. -/
theorem writtenOutWordsDecode : Obligations.WrittenOutWordsDecode :=
  ⟨decode_encode .encStart, decode_encode (.encPush 0xFF), decode_encode .encFlush, decode_encode .decStart,
    decode_encode (.decPush 0x53), decode_encode .decEnd, by decide, by decide, by decide, by decide⟩

/-! ## The reserved words -/

/-- The opcodes that match no pattern are those with their high bit set, those with `fn = 0`, and those of the commands without
an operand when there is one (R98). -/
theorem reservedOpcode_iff (op : BitVec 4) (data : Byte) :
    (¬(op = 1#4 ∧ data = 0x00#8) ∧ op ≠ 2#4 ∧ ¬(op = 3#4 ∧ data = 0x00#8) ∧
      ¬(op = 5#4 ∧ data = 0x00#8) ∧ op ≠ 6#4 ∧ ¬(op = 7#4 ∧ data = 0x00#8)) ↔
    op.getLsbD 3 = true ∨ op.extractLsb' 0 2 = 0#2 ∨ ((op = 1#4 ∨ op = 3#4 ∨ op = 5#4 ∨ op = 7#4) ∧ data ≠ 0x00#8) := by
  by_cases hd : data = 0x00#8
  all_goals
    simp only [hd, ne_eq]
    revert op
    decide

/-- The reserved words by class (R98). -/
theorem reserved_iff_class {w : CmdWord} : (∃ r, decode w = .reserved r) ↔
    w.getLsbD 11 = true ∨ w.extractLsb' 8 2 = 0#2 ∨
    ((w.extractLsb' 8 4 = 1#4 ∨ w.extractLsb' 8 4 = 3#4 ∨ w.extractLsb' 8 4 = 5#4 ∨ w.extractLsb' 8 4 = 7#4) ∧
      operand w ≠ 0x00#8) := by
  have hbit11 : w.getLsbD 11 = (w.extractLsb' 8 4).getLsbD 3 := by simp
  have hfn : w.extractLsb' 8 2 = (w.extractLsb' 8 4).extractLsb' 0 2 := by
    ext k hk
    simp [show k < 4 by omega]
  rw [hbit11, hfn, ← reservedOpcode_iff, reserved_iff_no_pattern]
  exact and_congr (not_congr (fullMask_iff 1)) <| and_congr (not_congr (pushMask_iff 2)) <|
    and_congr (not_congr (fullMask_iff 3)) <| and_congr (not_congr (fullMask_iff 5)) <|
    and_congr (not_congr (pushMask_iff 6)) (not_congr (fullMask_iff 7))

/-- The 516 commands (R98). -/
def allInstrs : List Instr :=
  [.encStart, .encFlush, .decStart, .decEnd] ++ allCodes.map .encPush ++ allCodes.map .decPush

theorem mem_allInstrs (i : Instr) : i ∈ allInstrs := by
  cases i <;> simp [allInstrs, mem_allCodes]

theorem allInstrs_nodup : allInstrs.Nodup := by
  have hEnc : (allCodes.map Instr.encPush).Nodup := allCodes_nodup.map fun _ _ h => Instr.encPush.inj h
  have hDec : (allCodes.map Instr.decPush).Nodup := allCodes_nodup.map fun _ _ h => Instr.decPush.inj h
  simp [allInstrs, List.nodup_append, hEnc, hDec]

theorem length_allInstrs : allInstrs.length = 516 := by simp [allInstrs, allCodes]

/-- The word is reserved (R98). -/
def isReserved : Decoded → Bool
  | .reserved _ => true
  | .instr _ => false

theorem not_isReserved_iff {w : CmdWord} : isReserved (decode w) = false ↔ ∃ i, encode i = w := by
  simp only [← decode_eq_instr_iff]
  cases decode w with
  | instr i => simp [isReserved]
  | reserved r => simp [isReserved]

/-- The numbers below 4096 that are no reserved word are the words of the 516 commands. -/
theorem commandWords_perm :
    ((List.range 4096).filter fun n => !isReserved (decode (BitVec.ofNat 12 n))).Perm
      (allInstrs.map fun i => (encode i).toNat) := by
  have hinj : Function.Injective fun i => (encode i).toNat := fun i j h => encode_injective (BitVec.eq_of_toNat_eq h)
  refine (List.perm_ext_iff_of_nodup (List.nodup_range.filter _) (allInstrs_nodup.map hinj)).2 fun n => ?_
  simp only [List.mem_filter, List.mem_range, Bool.not_eq_true', not_isReserved_iff, List.mem_map, mem_allInstrs, true_and]
  constructor
  · rintro ⟨hn, i, hi⟩
    exact ⟨i, by rw [hi, BitVec.toNat_ofNat, Nat.mod_eq_of_lt hn]⟩
  · rintro ⟨i, rfl⟩
    exact ⟨(encode i).isLt, i, by simp⟩

/-- The reserved words are what the 516 commands leave of the 4096 (R98). -/
theorem countP_reserved : ((List.range 4096).countP fun n => isReserved (decode (BitVec.ofNat 12 n))) = 3580 := by
  have htotal := (List.range 4096).length_eq_countP_add_countP fun n => isReserved (decode (BitVec.ofNat 12 n))
  have hcommands := commandWords_perm.length_eq
  simp only [← List.countP_eq_length_filter, List.length_map, length_allInstrs] at hcommands
  simp only [List.length_range, Bool.not_eq_true, Bool.decide_eq_false, hcommands] at htotal
  omega

/-- Settles O4: the classes by the six patterns, the count by the 516 commands, and the step by its rule for reserved words. -/
theorem reservedWordsAreTheThreeClasses : Obligations.ReservedWordsAreTheThreeClasses := by
  refine ⟨fun _ => reserved_iff_class, ?_, fun s w rest hp hi ⟨r, hw⟩ => step_reserved hp hi hw⟩
  refine (List.countP_congr fun n _ => ?_).trans countP_reserved
  cases decode (BitVec.ofNat 12 n) <;> rfl

end Sys2Proof.Machine
end

