-- ==== Sys2Proof/Proofs/StepTests.lean ====
section
/-!
PROOF. The tests that the step makes before a command, in their order (spec/30_encoding.md R95), and a word of the opcode table
issued next, for O13 and O12.
-/

namespace Sys2Proof.Machine

/-- Bit 10 of a command's word names its unit (R91, R95 step 3). -/
theorem unit_of_decode {w : CmdWord} {i : Instr} (h : decode w = .instr i) :
    i.unit = if w.getLsbD 10 then .dec else .enc := by
  obtain rfl := encode_of_decode h
  obtain ⟨-, -, hunit⟩ := wordFields i
  simp only [hunit]
  cases i.unit with
  | enc => rfl
  | dec => rfl

/-- Where R95 lets a command run at a command boundary, it answers a next state, the one its own rule gives. -/
theorem State.Inv.exec_by_rule {s : State} (h : s.Inv) {i : Instr} (hi : s.illcmd = false)
    (hf : unitFault i.unit s = false) (hp : isStart i = true ∨ unitPhase i.unit s = .run) (hl : ¬pushIsFull i s) :
    ∃ t, exec i s = .next t ∧ ExecutedBy i s t := by
  have hp : isStart i = false → unitPhase i.unit s = .run := fun hs => hp.resolve_left (by simp [hs])
  obtain ⟨t, ht⟩ := h.rule_answers hi hf hp hl
  refine ⟨t, ht, ?_⟩
  rcases exec_next ht with ⟨-, hign⟩ | ⟨-, -, hs, hrun, -⟩ | ⟨-, -, -, hfull, -⟩ | ⟨-, -, -, -, hx⟩
  · simp [hi, hf] at hign
  · exact absurd (hp hs) hrun
  · exact absurd hfull hl
  · exact hx

/-- Settles O13: a word that is a command steps as the command does, whose outcomes are those of R95. -/
theorem stepMakesTheTestsInOrder : Obligations.StepMakesTheTestsInOrder := by
  intro s w rest h hport
  refine ⟨step_frozen hport, fun hi ⟨r, hw⟩ => step_reserved hport hi hw, fun i hi hw => ?_⟩
  rw [step_word hport hw]
  have hi' : State.illcmd { s with port := rest } = false := hi
  exact ⟨unit_of_decode hw, fun hf => exec_ignored (.inr hf), exec_seq hi', exec_ovf hi',
    (h.withPort rest).exec_by_rule hi'⟩

/-! ## Words of the opcode table -/

theorem decodeTableWord_eq_some {nbits w : Nat} {i : Instr} (h : decodeTableWord nbits w = some i) :
    ∃ c, wordOfNat w = some c ∧ decode c = .instr i := by
  unfold decodeTableWord at h
  split at h
  · cases h
  · next c hc =>
    split at h
    · next hd =>
      cases h
      exact ⟨c, hc, hd⟩
    · cases h

theorem issueWord_of_some {w : Nat} {c : CmdWord} {s : State} (h : wordOfNat w = some c) :
    issueWord w s = { s with port := .word c :: s.port } := by simp only [issueWord, h]

/-- Settles O12: the word stands first on the port, and the step that takes it leaves the port as it was. -/
theorem issuedTableWordRunsNext : Obligations.IssuedTableWordRunsNext := by
  intro s nbits w i h
  obtain ⟨c, hc, hd⟩ := decodeTableWord_eq_some h
  rw [State.withFetchWord, issueWord_of_some hc, step_word rfl hd]

end Sys2Proof.Machine
end

