-- ==== Sys2Proof/Proofs/EncoderCommands.lean ====
section
/-!
PROOF. The three commands of the encoder as their rules give them (spec/40_encoder.md R121 to R123, R128, R131), for O20 to O24.
-/

namespace Sys2Proof.Machine

/-! ## Words -/

/-- A command without an operand has no word with other data (R98). -/
theorem reserved_of_data {w : CmdWord} {op : BitVec 4} (hop : op = 1#4 ∨ op = 3#4 ∨ op = 5#4 ∨ op = 7#4)
    (hw : w.extractLsb' 8 4 = op) (hdata : w.extractLsb' 0 8 ≠ 0x00#8) : ∃ r, decode w = .reserved r :=
  reserved_iff_class.2 (.inr (.inr ⟨hw ▸ hop, hdata⟩))

/-- The word of `ENC.PUSH` is its opcode with the operand or-ed in (R91). -/
theorem encode_encPush_eq_or (b : Byte) : encode (.encPush b) = 0x200#12 ||| b.setWidth 12 := by
  rw [encode_encPush, BitVec.append_def, BitVec.shiftLeftZeroExtend_eq]
  rfl

/-! ## ENC.START -/

/-- Settles O20: the rule of START is `encOpen`, and it leaves no element in the window. -/
theorem encStartOpensACall : Obligations.EncStartOpensACall :=
  ⟨rfl, fun _ => reserved_of_data (.inl rfl),
    fun _ => ⟨fun hi hf => ⟨exec_encStart hi hf, fun _ => readPort_eout_none (Nat.zero_le _)⟩,
      exec_ignored (i := .encStart)⟩⟩

/-! ## ENC.PUSH -/

/-- The live bits after the shift-in of a byte (R122's `n`). -/
def EncUnit.pushBits (e : EncUnit) : Nat := e.bits.toNat + 8

/-- The value of the live bits after the shift-in of a byte (R122's `a`). -/
def EncUnit.pushValue (e : EncUnit) (b : Byte) : Nat := e.acc.toNat * 256 + b.toNat

/-- The symbols that a push writes (R123). -/
def EncUnit.pushSyms (e : EncUnit) : Nat := if e.pushBits < 10 then 1 else 2

/-- The live bits that a push leaves (R123). -/
def EncUnit.pushRest (e : EncUnit) : Nat := e.pushBits - 5 * e.pushSyms

/-- The unit after a push that leaves the buffer `mem` (R122). -/
def EncUnit.pushed (e : EncUnit) (b : Byte) (mem : Memory) : EncUnit :=
  { e with
    acc := BitVec.ofNat 12 (e.pushValue b % 2 ^ e.pushRest), bits := BitVec.ofNat 4 e.pushRest
    icnt := e.icnt + 1, olen := e.olen + e.pushSyms, eout := mem }

/-- The buffer after a push: the symbols that it writes, and every other element as before (R122). -/
structure EncUnit.PushWrites (e : EncUnit) (b : Byte) (mem : Memory) : Prop where
  new : ∀ j, j < e.pushSyms → Memory.read mem (e.olen + j) =
    some (alpha (BitVec.ofNat 5 (e.pushValue b / 2 ^ (e.pushBits - 5 * (j + 1)) % 32)))
  old : ∀ a, a < e.olen ∨ e.olen + e.pushSyms ≤ a → Memory.read mem a = Memory.read e.eout a

theorem pushSyms_of_le_one {e : EncUnit} (h : e.bits.toNat ≤ 1) : e.pushSyms = 1 :=
  if_pos (by unfold EncUnit.pushBits; omega)

theorem pushSyms_of_two_le {e : EncUnit} (h : 2 ≤ e.bits.toNat) : e.pushSyms = 2 :=
  if_neg (by unfold EncUnit.pushBits; omega)

/-- R123: what goes in comes out or stays, and fewer than five bits stay. -/
theorem pushRest_add {e : EncUnit} (h : e.bits.toNat ≤ 4) :
    e.pushRest + 5 * e.pushSyms = e.bits.toNat + 8 ∧ e.pushRest ≤ 4 := by
  unfold EncUnit.pushRest EncUnit.pushSyms EncUnit.pushBits
  split
  · omega
  · omega

/-- R122's pseudocode in closed form, on live bits: the loop makes one turn or two. -/
theorem encTakeIn_eq_pushed {cap : Option Nat} {e : EncUnit} (b : Byte) (hb : e.bits.toNat ≤ 4)
    (hacc : e.acc.toNat < 2 ^ e.bits.toNat) (hroom : ∀ j, j < e.pushSyms → hasIndex cap (e.olen + j) = true) :
    ∃ mem, encTakeIn cap b e = .ok (e.pushed b mem) ∧ e.PushWrites b mem := by
  have hlt : e.acc.toNat < 16 := Nat.lt_of_lt_of_le hacc (Nat.pow_le_pow_right (by decide) hb)
  have hval : (shiftInByte e.acc b).toNat = e.pushValue b := shiftInByte_toNat _ _ hlt
  by_cases hlo : e.bits.toNat ≤ 1
  · have hm := pushSyms_of_le_one hlo
    have hrest : e.pushRest = e.bits.toNat + 3 := by have := pushRest_add hb; omega
    rw [encTakeIn_one cap b e hlo (hroom 0 (by omega)), keepLow_eq_ofNat, topSym_eq_ofNat, hval, ← hrest]
    refine ⟨_, by rw [EncUnit.pushed, hm], fun j hj => ?_, fun a ha => ?_⟩
    · obtain rfl : j = 0 := by omega
      exact Memory.read_write_same _ _ _
    · exact Memory.read_write_other _ _ _ _ (by omega)
  · have hm := pushSyms_of_two_le (Nat.not_le.1 hlo)
    have hrest : e.pushRest = e.bits.toNat - 2 := by have := pushRest_add hb; omega
    rw [encTakeIn_two cap b e (by omega) hb (hroom 1 (by omega)), keepLow_eq_ofNat, topSym_eq_ofNat, topSym_eq_ofNat,
      hval, ← hrest]
    refine ⟨_, by rw [EncUnit.pushed, hm], fun j hj => ?_, fun a ha => ?_⟩
    · obtain rfl | rfl : j = 0 ∨ j = 1 := by omega
      · rw [Memory.read_write_other _ _ _ _ (by omega)]
        exact Memory.read_write_same _ _ _
      · exact Memory.read_write_same _ _ _
    · rw [Memory.read_write_other _ _ _ _ (by omega), Memory.read_write_other _ _ _ _ (by omega)]

/-- In an open call below its limit there is room for the symbols of a push (R70). -/
theorem EncInv.takeIn_pushed {lim : Limits} {e : EncUnit} (h : EncInv lim e) (hp : e.phase = .run)
    (hl : lim.maxBy ≠ some e.icnt) (b : Byte) :
    ∃ mem, encTakeIn (capE lim) b e = .ok (e.pushed b mem) ∧ e.PushWrites b mem := by
  have hrun := h.run hp
  obtain ⟨hsum, hrest⟩ := pushRest_add h.bits_le
  exact encTakeIn_eq_pushed b h.bits_le h.acc_lt fun j hj => hasIndex_capE (withinLimit_succ h.icnt_le hl) (by omega)

/-- Settles O21: the closed form of the rule where it runs, and the outcomes of the tests of R95 where it does not. -/
theorem encPushTakesAByteIn : Obligations.EncPushTakesAByteIn := by
  intro s b
  refine ⟨encode_encPush_eq_or b, fun h hi hf hp hl => ?_, fun hi hf => exec_seq (i := .encPush b) hi hf rfl,
    exec_ovf (i := .encPush b), exec_ignored (i := .encPush b)⟩
  obtain ⟨mem, hmem, hw⟩ := h.enc.takeIn_pushed hp hl b
  exact ⟨mem, exec_encPush hi hf hp hl hmem, hw.new, hw.old⟩

/-! ## Symbols and bits left -/

/-- What holds of the elements already pushed, and is kept by every push of one more, holds of them all in the end. -/
theorem execAll_map_of_push {α : Type} {cmd : α → Instr} {P : List α → State → Prop} {xs : List α} {s : State}
    (hstart : P [] s)
    (hpush : ∀ past x rest u, xs = past ++ x :: rest → P past u → ∃ t, exec (cmd x) u = .next t ∧ P (past ++ [x]) t) :
    ∃ t, execAll (xs.map cmd) s = .next t ∧ P xs t := by
  suffices h : ∀ rest past u, xs = past ++ rest → P past u → ∃ t, execAll (rest.map cmd) u = .next t ∧ P xs t from
    h xs [] s rfl hstart
  intro rest
  induction rest with
  | nil =>
    rintro past u rfl hu
    exact ⟨u, rfl, by rwa [List.append_nil]⟩
  | cons x rest ih =>
    intro past u hxs hu
    obtain ⟨v, hx, hv⟩ := hpush past x rest u hxs hu
    rw [List.map_cons, execAll_cons hx]
    exact ih (past ++ [x]) v (hxs.trans (List.append_cons past x rest)) hv

/-- An encode call is open, at a command boundary. -/
structure InEncodeCall (s : State) : Prop where
  inv : s.Inv
  illcmd : s.illcmd = false
  fault : s.enc.fault = false
  phase : s.enc.phase = .run

/-- R126 (i): every bit taken in is live or written. -/
theorem InEncodeCall.live {s : State} (h : InEncodeCall s) :
    s.enc.bits.toNat + 5 * s.enc.olen = 8 * s.enc.icnt ∧ s.enc.bits.toNat ≤ 4 :=
  ⟨h.inv.enc.run h.phase, h.inv.enc.bits_le⟩

/-- A push below the limit counts its byte and leaves the call open. -/
theorem InEncodeCall.push {s : State} (h : InEncodeCall s) (hl : s.limits.maxBy ≠ some s.enc.icnt) (b : Byte) :
    ∃ t, exec (.encPush b) s = .next t ∧ InEncodeCall t ∧ t.limits = s.limits ∧ t.enc.icnt = s.enc.icnt + 1 := by
  obtain ⟨e, he⟩ := (h.inv.enc.takeIn_ok h.phase hl b).2
  obtain ⟨hp, hn, hf, -⟩ := encTakeIn_keeps he
  have hx := exec_encPush h.illcmd h.fault h.phase hl he
  exact ⟨_, hx, ⟨exec_keeps_inv h.inv hx, h.illcmd, hf.trans h.fault, hp.trans h.phase⟩, rfl, hn⟩

/-- Within the limit a sequence of pushes counts its bytes and leaves the call open. -/
theorem InEncodeCall.pushes {s : State} (h : InEncodeCall s) {bytes : List Byte}
    (hlim : withinLimit s.limits.maxBy (s.enc.icnt + bytes.length) = true) :
    ∃ t, execAll (bytes.map Instr.encPush) s = .next t ∧ InEncodeCall t ∧ t.limits = s.limits ∧
      t.enc.icnt = s.enc.icnt + bytes.length := by
  refine execAll_map_of_push
    (P := fun past t => InEncodeCall t ∧ t.limits = s.limits ∧ t.enc.icnt = s.enc.icnt + past.length) ⟨h, rfl, rfl⟩ ?_
  rintro past b rest u rfl ⟨hu, hl, hn⟩
  have hroom : u.limits.maxBy ≠ some u.enc.icnt := by
    rw [hl, hn]
    exact ne_some_of_withinLimit hlim (by simp)
  obtain ⟨t, ht, hcall, hl', hn'⟩ := hu.push hroom b
  refine ⟨t, ht, hcall, hl'.trans hl, ?_⟩
  rw [hn', hn, List.length_append]
  rfl

/-- Settles O22: the counts of bytes, symbols and live bits agree before and after (R126 (i)), with at most 4 live bits. -/
theorem encPushSymbolCounts : Obligations.EncPushSymbolCounts := by
  constructor
  · intro s b hinv hi hf hp hl
    have hcall : InEncodeCall s := ⟨hinv, hi, hf, hp⟩
    obtain ⟨t, ht, hcall', -, hn⟩ := hcall.push hl b
    obtain ⟨hlive, -⟩ := hcall.live
    obtain ⟨hlive', hle'⟩ := hcall'.live
    refine ⟨t, ht, ?_⟩
    simp only [← BitVec.toNat_inj, BitVec.reduceToNat]
    omega
  · intro s b0 b1 b2 b3 b4 hinv hi hf hp hlim hb
    have hcall : InEncodeCall s := ⟨hinv, hi, hf, hp⟩
    obtain ⟨t, ht, hcall', -, hn⟩ := hcall.pushes (bytes := [b0, b1, b2, b3, b4]) hlim
    obtain ⟨hlive, -⟩ := hcall.live
    obtain ⟨hlive', hle'⟩ := hcall'.live
    refine ⟨t, ht, ?_⟩
    simp only [← BitVec.toNat_inj, BitVec.reduceToNat, List.length_cons, List.length_nil] at hb hn ⊢
    omega

/-! ## ENC.FLUSH -/

/-- Settles O23: the rule by whether bits are live, and the outcomes of the tests of R95 where it does not run. -/
theorem encFlushClosesTheCall : Obligations.EncFlushClosesTheCall := by
  refine ⟨rfl, fun _ => reserved_of_data (.inr (.inl rfl)), fun s => ⟨fun hi hf hp hb => ?_, fun h hi hf hp hb => ?_,
    fun hi hf => exec_seq (i := .encFlush) hi hf rfl, exec_ignored (i := .encFlush)⟩⟩
  · exact exec_encFlush hi hf hp (encClose_none _ _ (by rw [hb]; rfl))
  · have hpos : 0 < s.enc.bits.toNat := Nat.pos_of_ne_zero fun h0 => hb (bits_eq_ofNat h0)
    have hclose := encClose_some _ s.enc hpos ((h.enc.close_ok hp).1 hpos)
    refine ⟨_, exec_encFlush hi hf hp hclose, ?_, fun a ha => Memory.read_write_other _ _ _ _ (Ne.symm ha)⟩
    rw [Memory.read_write_same, padSym_eq_ofNat]

/-! ## Independence of the bytes' values -/

/-- The units differ at most in the values of the bits taken in. -/
def EncUnit.SameCounts (e₁ e₂ : EncUnit) : Prop := ∃ a m, e₂ = { e₁ with acc := a, eout := m }

/-- The turns of the loop of `ENC.PUSH`, and the room that they need, depend on the counts only. -/
theorem symLoop_sameCounts {cap : Option Nat} {fuel : Nat} {a a' : Acc} {n : Nat} {e₁ e₂ e₁' : EncUnit}
    (hs : e₁.SameCounts e₂) (h : symLoop cap fuel a n e₁ = .ok e₁') :
    ∃ e₂', symLoop cap fuel a' n e₂ = .ok e₂' ∧ e₁'.SameCounts e₂' := by
  induction fuel generalizing a a' n e₁ e₂ with
  | zero =>
    obtain ⟨-, m, rfl⟩ := hs
    cases h
    exact ⟨_, rfl, a', m, rfl⟩
  | succ fuel ih =>
    obtain ⟨acc, m, rfl⟩ := hs
    by_cases hn : n < 5
    · rw [symLoop_stop _ _ _ _ hn] at h ⊢
      cases h
      exact ⟨_, rfl, a', m, rfl⟩
    · simp only [symLoop, if_neg hn] at h
      split at h
      · cases h
      · next u hu =>
        obtain ⟨hroom, rfl⟩ := emitSym_next hu
        rw [symLoop_turn _ _ _ _ (Nat.not_lt.1 hn) (by exact hroom)]
        exact ih ⟨_, _, rfl⟩ h

theorem encTakeIn_sameCounts {cap : Option Nat} {b b' : Byte} {e e₁ : EncUnit} (h : encTakeIn cap b e = .ok e₁) :
    ∃ e₂, encTakeIn cap b' e = .ok e₂ ∧ e₁.SameCounts e₂ := by
  unfold encTakeIn at h ⊢
  split at h
  · cases h
  · next u hu =>
    obtain ⟨u', hu', a, m, rfl⟩ := symLoop_sameCounts (a' := shiftInByte e.acc b') ⟨e.acc, e.eout, rfl⟩ hu
    cases h
    rw [hu']
    exact ⟨_, rfl, a, m, rfl⟩

/-- Settles O24: the tests of R95 do not read the byte, and the rule's counts do not depend on it. -/
theorem encoderFaultsDependOnNoByte : Obligations.EncoderFaultsDependOnNoByte := by
  intro s t b b' h
  rcases exec_next h with ⟨rfl, hign⟩ | ⟨hi, hf, hs, hp, rfl⟩ | ⟨hi, hf, hp, hfull, rfl⟩ | ⟨hi, hf, hp, hl, e, he, rfl⟩
  · exact ⟨_, exec_ignored hign, rfl, rfl, rfl, rfl, rfl, rfl⟩
  · exact ⟨_, exec_seq (i := .encPush b') hi hf hs hp, rfl, rfl, rfl, rfl, rfl, rfl⟩
  · exact ⟨_, exec_ovf (i := .encPush b') hi hf hp hfull, rfl, rfl, rfl, rfl, rfl, rfl⟩
  · obtain ⟨e', he', a, m, rfl⟩ := encTakeIn_sameCounts (b' := b') he
    exact ⟨_, exec_encPush hi hf (hp rfl) hl he', rfl, rfl, rfl, rfl, rfl, rfl⟩

end Sys2Proof.Machine
end

