-- ==== Sys2Proof/Proofs/EncodeCall.lean ====
section
/-!
PROOF. The encoder holds the bits of the bytes taken in (spec/40_encoder.md R126), and a whole ENCODE call gives the encoded
string (R129, R130), for O44 and O45.
-/

namespace Sys2Proof.Machine

/-! ## The bytes taken in -/

theorem encTook_nil (e : EncUnit) : EncTook [] (encOpen e) := ⟨rfl, rfl, rfl, rfl, nofun, rfl⟩

/-- R126 (i): every bit taken in is live or written. -/
theorem EncTook.live {bytes : List Byte} {e : EncUnit} (h : EncTook bytes e) :
    e.bits.toNat + 5 * e.olen = 8 * bytes.length ∧ e.bits.toNat ≤ 4 := by
  have hlen := h.olen
  have hbits := h.bits
  omega

/-- The live bits are the last ones of the bit string. -/
theorem EncTook.acc_eq_mod {bytes : List Byte} {e : EncUnit} (h : EncTook bytes e) :
    e.acc.toNat = bitsValue (bits8 bytes) % 2 ^ e.bits.toNat := by
  obtain ⟨hlive, -⟩ := h.live
  rw [h.acc, bitsValue_drop, bits8_length, ← hlive, Nat.add_sub_cancel]

theorem EncTook.acc_lt {bytes : List Byte} {e : EncUnit} (h : EncTook bytes e) : e.acc.toNat < 2 ^ e.bits.toNat :=
  h.acc_eq_mod ▸ Nat.mod_lt _ (Nat.two_pow_pos _)

/-- After the shift-in of a byte too (R122). -/
theorem EncTook.pushValue_eq_mod {bytes : List Byte} {e : EncUnit} (h : EncTook bytes e) (b : Byte) :
    e.pushValue b = bitsValue (bits8 (bytes ++ [b])) % 2 ^ e.pushBits := by
  rw [EncUnit.pushValue, h.acc_eq_mod, bitsValue_bits8_append]
  exact mod_mul_add_mod b.isLt

/-- A symbol that a push writes is the next group of the bit string. -/
theorem EncTook.newSymbol {bytes : List Byte} {e : EncUnit} (h : EncTook bytes e) (b : Byte) {j : Nat}
    (hj : j < e.pushSyms) :
    e.pushValue b / 2 ^ (e.pushBits - 5 * (j + 1)) % 32 = bitsValue (bitGroup (bits8 (bytes ++ [b])) 5 (e.olen + j)) := by
  obtain ⟨hlive, hle⟩ := h.live
  have hsum : e.pushRest + 5 * e.pushSyms = e.pushBits := (pushRest_add hle).1
  have hlen : (bits8 (bytes ++ [b])).length = e.pushBits + 5 * e.olen := by
    rw [bits8_length, List.length_append, List.length_singleton, EncUnit.pushBits]
    omega
  rw [bitsValue_bitGroup _ (by omega), h.pushValue_eq_mod b,
    show (bits8 (bytes ++ [b])).length - 5 * (e.olen + j + 1) = e.pushBits - 5 * (j + 1) by omega]
  exact mod_div_mod (c := 5) (by omega)

/-- A push adds its byte to the bytes taken in (R126). -/
theorem EncTook.pushed {bytes : List Byte} {e : EncUnit} (h : EncTook bytes e) {b : Byte} {mem : Memory}
    (hw : e.PushWrites b mem) : EncTook (bytes ++ [b]) (e.pushed b mem) := by
  obtain ⟨hlive, hle⟩ := h.live
  obtain ⟨hsum, hrest⟩ := pushRest_add hle
  have hlen : (bytes ++ [b]).length = bytes.length + 1 := List.length_append
  have hbits : (e.pushed b mem).bits.toNat = e.pushRest := toNat_ofNat4 (by omega)
  refine ⟨h.phase, ?_, ?_, ?_, fun k hk => ?_, ?_⟩
  · rw [hlen, ← h.icnt]
    rfl
  · show e.olen + e.pushSyms = _
    omega
  · omega
  · have hk : k < e.olen + e.pushSyms := hk
    by_cases hold : k < e.olen
    · rw [bits8_append, bitGroup_append _ _ (by rw [bits8_length]; omega), ← h.symbols k hold]
      exact hw.old k (.inl hold)
    · obtain ⟨j, rfl⟩ := Nat.exists_eq_add_of_le (Nat.not_lt.1 hold)
      have hj : j < e.pushSyms := by omega
      rw [← h.newSymbol b hj]
      exact hw.new j hj
  · have hlt : e.pushValue b % 2 ^ e.pushRest < 2 ^ 12 :=
      Nat.lt_of_lt_of_le (Nat.mod_lt _ (Nat.two_pow_pos _)) (Nat.pow_le_pow_right (by decide) (by omega))
    have hacc : (e.pushed b mem).acc.toNat = e.pushValue b % 2 ^ e.pushRest := Nat.mod_eq_of_lt hlt
    have hdrop : 8 * (bytes ++ [b]).length - 5 * (e.pushed b mem).olen = e.pushRest := by
      show 8 * (bytes ++ [b]).length - 5 * (e.olen + e.pushSyms) = e.pushRest
      omega
    rw [hacc, h.pushValue_eq_mod b, mod_mod_pow (by unfold EncUnit.pushBits; omega), bitsValue_drop, bits8_length, hdrop]

/-- Under these limits an encode call is open in which these bytes were pushed. -/
structure EncodingBytes (lim : Limits) (bytes : List Byte) (s : State) : Prop where
  limits : s.limits = lim
  illcmd : s.illcmd = false
  fault : s.enc.fault = false
  took : EncTook bytes s.enc

theorem EncodingBytes.start {s : State} (hi : s.illcmd = false) (hf : s.enc.fault = false) :
    EncodingBytes s.limits [] { s with enc := encOpen s.enc } := ⟨rfl, hi, hf, encTook_nil s.enc⟩

theorem EncodingBytes.push {lim : Limits} {bytes : List Byte} {s : State} (h : EncodingBytes lim bytes s) {b : Byte}
    (hlim : withinLimit lim.maxBy (bytes.length + 1) = true) :
    ∃ t, exec (.encPush b) s = .next t ∧ EncodingBytes lim (bytes ++ [b]) t := by
  obtain ⟨rfl, hi, hf, htook⟩ := h
  obtain ⟨hlive, hle⟩ := htook.live
  obtain ⟨hsum, hrest⟩ := pushRest_add hle
  obtain ⟨mem, he, hw⟩ := encTakeIn_eq_pushed (cap := capE s.limits) b hle htook.acc_lt
    fun j hj => hasIndex_capE hlim (by omega)
  have hl : s.limits.maxBy ≠ some s.enc.icnt := htook.icnt ▸ ne_some_of_withinLimit hlim (Nat.lt_succ_self _)
  exact ⟨_, exec_encPush hi hf htook.phase hl he, rfl, hi, hf, htook.pushed hw⟩

/-- START and pushes within the limit leave a call in which the bytes were pushed. -/
theorem encodingBytes_of_start {s : State} {bytes : List Byte} (hi : s.illcmd = false) (hf : s.enc.fault = false)
    (hlim : withinLimit s.limits.maxBy bytes.length = true) :
    ∃ t, execAll (.encStart :: bytes.map Instr.encPush) s = .next t ∧ EncodingBytes s.limits bytes t := by
  rw [execAll_cons (exec_encStart hi hf)]
  refine execAll_map_of_push (.start hi hf) ?_
  rintro past b rest u rfl hu
  exact hu.push (withinLimit_mono hlim (by simp))

/-- Settles O44: START takes in nothing, and a push below the limit its byte. -/
theorem encoderHoldsTheBytesTakenIn : Obligations.EncoderHoldsTheBytesTakenIn := by
  refine ⟨fun s hi hf => ⟨_, exec_encStart hi hf, encTook_nil s.enc⟩, fun s bytes b h hi hf hlim => ?_⟩
  obtain ⟨t, ht, hcall⟩ := EncodingBytes.push ⟨rfl, hi, hf, h⟩ (b := b) hlim
  exact ⟨t, ht, hcall.took⟩

/-! ## The encoded string -/

/-- The bit string that the symbols are cut from (R130). -/
def paddedBits (bytes : List Byte) : List Bool := bits8 bytes ++ List.replicate (padLen bytes.length) false

/-- The symbol at place `k` of the encoded string (R130). -/
def encodedSym (bytes : List Byte) (k : Nat) : Sym := BitVec.ofNat 5 (bitsValue (bitGroup (paddedBits bytes) 5 k))

/-- The padding fills the last symbol. -/
theorem paddedBits_length (bytes : List Byte) : (paddedBits bytes).length = 5 * ((8 * bytes.length + 4) / 5) := by
  simp only [paddedBits, List.length_append, bits8_length, List.length_replicate, padLen]
  omega

/-- The encoded string is its symbols, looked up (R130). -/
theorem encodeOf_eq (bytes : List Byte) :
    encodeOf bytes = (List.range ((8 * bytes.length + 4) / 5)).map fun k => alpha (encodedSym bytes k) := by
  have hlen : (paddedBits bytes).length / 5 = (8 * bytes.length + 4) / 5 := by rw [paddedBits_length]; omega
  rw [← hlen]
  rfl

theorem encodeOf_length (bytes : List Byte) : (encodeOf bytes).length = (8 * bytes.length + 4) / 5 := by
  simp [encodeOf_eq]

/-- A symbol written before FLUSH is one of the encoded string. -/
theorem EncTook.read_encodedSym {bytes : List Byte} {e : EncUnit} (h : EncTook bytes e) {k : Nat} (hk : k < e.olen) :
    Memory.read e.eout k = some (alpha (encodedSym bytes k)) := by
  obtain ⟨hlive, -⟩ := h.live
  rw [h.symbols k hk, encodedSym, paddedBits, bitGroup_append _ _ (by rw [bits8_length]; omega)]

/-- The padded symbol is the last one of the encoded string. -/
theorem EncTook.padSym_eq {bytes : List Byte} {e : EncUnit} (h : EncTook bytes e) (hpos : 0 < e.bits.toNat) :
    padSym e.acc e.bits.toNat = encodedSym bytes e.olen := by
  obtain ⟨hlive, hle⟩ := h.live
  have hpad : padLen bytes.length = 5 - e.bits.toNat := by
    unfold padLen
    omega
  have hgroup : bitGroup (paddedBits bytes) 5 e.olen =
      (bits8 bytes).drop (5 * e.olen) ++ List.replicate (5 - e.bits.toNat) false := by
    rw [bitGroup, paddedBits, hpad, List.drop_append_of_le_length (by rw [bits8_length]; omega)]
    refine List.take_of_length_le ?_
    simp only [List.length_append, List.length_drop, bits8_length, List.length_replicate]
    omega
  rw [padSym_eq_ofNat, encodedSym, hgroup, bitsValue_append, bitsValue_replicate_false, List.length_replicate, h.acc,
    Nat.add_zero]

/-- FLUSH leaves the symbols of the encoded string (R129, R130). -/
theorem EncTook.close {lim : Limits} {bytes : List Byte} {e : EncUnit} (h : EncTook bytes e)
    (hlim : withinLimit lim.maxBy bytes.length = true) :
    ∃ e', encClose (capE lim) e = .ok e' ∧ e'.olen = (8 * bytes.length + 4) / 5 ∧
      ∀ k, k < e'.olen → Memory.read e'.eout k = some (alpha (encodedSym bytes k)) := by
  obtain ⟨hlive, hle⟩ := h.live
  by_cases hpos : 0 < e.bits.toNat
  · refine ⟨_, encClose_some _ e hpos (hasIndex_capE hlim (by omega)), ?_, fun k hk => ?_⟩
    · show e.olen + 1 = _
      omega
    · have hk : k < e.olen + 1 := hk
      simp only [Memory.read_write, h.padSym_eq hpos]
      split
      · next hlast => rw [hlast]
      · exact h.read_encodedSym (by omega)
  · refine ⟨_, encClose_none _ e (by omega), ?_, fun k hk => h.read_encodedSym hk⟩
    show e.olen = _
    omega

theorem EncodingBytes.flush {lim : Limits} {bytes : List Byte} {s : State} (h : EncodingBytes lim bytes s)
    (hlim : withinLimit lim.maxBy bytes.length = true) :
    ∃ t, exec .encFlush s = .next t ∧ encodeComplete t = true ∧ t.enc.olen = (8 * bytes.length + 4) / 5 ∧
      window .eout t = encodeOf bytes := by
  obtain rfl := h.limits
  obtain ⟨e, he, hlen, hread⟩ := h.took.close hlim
  obtain ⟨hp, -, -, -, hf, -⟩ := encClose_keeps he
  refine ⟨_, exec_encFlush h.illcmd h.fault h.took.phase he, ?_, hlen, ?_⟩
  · simp [encodeComplete, hp, hf, h.fault, h.illcmd]
  · rw [window_eout hread, hlen, encodeOf_eq]

/-- The commands of an encode call are all the encoder's. -/
theorem unit_of_mem_encodeCall {bytes : List Byte} {i : Instr} (h : i ∈ encodeCall bytes) : i.unit = .enc := by
  simp only [encodeCall, List.mem_cons, List.mem_append, List.mem_map, List.not_mem_nil, or_false] at h
  rcases h with rfl | ⟨b, -, rfl⟩ | rfl
  · rfl
  · rfl
  · rfl

/-- A unit sees no change from a sequence with no command of its own. -/
theorem execAll_other_sameView {u : UnitSel} {is : List Instr} {s t : State} (hu : ∀ i ∈ is, i.unit ≠ u)
    (h : execAll is s = .next t) : SameView u s t := by
  obtain ⟨s', hs', hv⟩ := execAll_filter_sameView (.refl u s) h
  rw [List.filter_eq_nil_iff.2 (by simpa using hu)] at hs'
  cases hs'
  exact hv.symm

/-- Settles O45: the bytes pushed after START stand as the encoded string after FLUSH. -/
theorem encodeCallGivesTheEncodedString : Obligations.EncodeCallGivesTheEncodedString := by
  intro s bytes hi hf hlim
  obtain ⟨u, hu, hcall⟩ := encodingBytes_of_start hi hf hlim
  obtain ⟨t, ht, hdone, hlen, hwindow⟩ := hcall.flush hlim
  have hrun : execAll (encodeCall bytes) s = .next t := by
    rw [encodeCall, ← List.cons_append, execAll_append hu, execAll_cons ht, execAll_nil]
  have hview : SameView .dec s t :=
    execAll_other_sameView (fun i hmem => by rw [unit_of_mem_encodeCall hmem]; nofun) hrun
  exact ⟨t, hrun, hdone, hlen, hwindow, hview.dec rfl⟩

end Sys2Proof.Machine
end

