-- ==== Sys2Proof/Proofs/DecodeValidText.lean ====
section
/-!
PROOF. The decoder holds the bits of the valid characters taken in (spec/41_decoder.md R162), and a whole DECODE call of a valid
text gives its verdict and its bytes (R169). What decoding an encoded string rests on (spec/40_encoder.md R134), for O53.
-/

namespace Sys2Proof.Machine

/-! ## The datapath -/

/-- The bits shifted in since START: whole bytes of them written, the rest live (R162 (i) to (iii)). -/
structure HoldsBits (bits : List Bool) (d : DecUnit) : Prop where
  live : d.bits.toNat + 8 * d.widx = bits.length
  bits_lt : d.bits.toNat < 8
  bytes : ∀ j, j < d.widx → Memory.read d.dout j = some (BitVec.ofNat 8 (bitsValue (bitGroup bits 8 j)))
  acc : d.acc.toNat = bitsValue (bits.drop (8 * d.widx))

theorem HoldsBits.acc_eq_mod {bits : List Bool} {d : DecUnit} (h : HoldsBits bits d) :
    d.acc.toNat = bitsValue bits % 2 ^ d.bits.toNat := by
  rw [h.acc, bitsValue_drop, ← h.live, Nat.add_sub_cancel]

/-- Shifting an index in appends its bits to the live ones. -/
theorem HoldsBits.shiftInSym_eq_mod {bits : List Bool} {d : DecUnit} (h : HoldsBits bits d) (i : Sym) :
    (shiftInSym d.acc i).toNat = bitsValue (bits ++ bits5 [i]) % 2 ^ (d.bits.toNat + 5) := by
  have hlt : d.acc.toNat < 128 := by
    rw [h.acc_eq_mod]
    exact Nat.lt_of_lt_of_le (Nat.mod_lt _ (Nat.two_pow_pos _))
      (Nat.pow_le_pow_right (by decide) (Nat.le_of_lt_succ h.bits_lt))
  rw [shiftInSym_toNat _ _ hlt, h.acc_eq_mod, bitsValue_append, bitsValue_bits5_single]
  exact mod_mul_add_mod i.isLt

/-- The bytes written are groups of the longer bit string too. -/
theorem HoldsBits.read_append {bits : List Bool} {d : DecUnit} (h : HoldsBits bits d) (more : List Bool) {j : Nat}
    (hj : j < d.widx) :
    Memory.read d.dout j = some (BitVec.ofNat 8 (bitsValue (bitGroup (bits ++ more) 8 j))) := by
  have hlive := h.live
  rw [h.bytes j hj, bitGroup_append _ _ (by omega)]

/-- The datapath of `DEC.PUSH` appends the five bits of the index (R158, R162): a byte is written when there are eight. -/
theorem HoldsBits.shift {cap : Option Nat} {bits : List Bool} {d : DecUnit} (h : HoldsBits bits d) (i : Sym)
    (hroom : 3 ≤ d.bits.toNat → hasIndex cap d.widx = true) :
    ∃ d', decShift cap i d = .ok d' ∧ HoldsBits (bits ++ bits5 [i]) d' := by
  have hlive := h.live
  have hlt := h.bits_lt
  have hval := h.shiftInSym_eq_mod i
  have hlen : (bits ++ bits5 [i]).length = d.bits.toNat + 8 * d.widx + 5 := by
    rw [List.length_append, bits5_length, List.length_singleton, hlive]
  by_cases h3 : 3 ≤ d.bits.toNat
  · have hbits : (BitVec.ofNat 4 (d.bits.toNat - 3)).toNat = d.bits.toNat - 3 := toNat_ofNat4 (by omega)
    refine ⟨_, decShift_one cap i d h3 (by omega) (hroom h3), ?_, ?_, fun j hj => ?_, ?_⟩
    · simp only [hbits, hlen]
      omega
    · simp only [hbits]
      omega
    · have hj : j < d.widx + 1 := hj
      simp only [Memory.read_write]
      split
      · next hlast =>
        have hgroup : bitsValue (bitGroup (bits ++ bits5 [i]) 8 j) =
            bitsValue (bits ++ bits5 [i]) / 2 ^ (d.bits.toNat + 5 - 8) % 2 ^ 8 := by
          rw [bitsValue_bitGroup _ (by omega), hlen, ← hlast,
            show d.bits.toNat + 8 * d.widx + 5 - 8 * (d.widx + 1) = d.bits.toNat + 5 - 8 by omega]
        rw [topByte_eq_ofNat, hval, hgroup]
        exact congrArg (fun x => some (BitVec.ofNat 8 x)) (mod_div_mod (c := 8) (by omega))
      · exact h.read_append _ (by omega)
    · simp only [keepLow_toNat, hval, bitsValue_drop, hlen]
      rw [mod_mod_pow (by omega), show d.bits.toNat + 8 * d.widx + 5 - 8 * (d.widx + 1) = d.bits.toNat - 3 by omega]
  · have hbits : (BitVec.ofNat 4 (d.bits.toNat + 5)).toNat = d.bits.toNat + 5 := toNat_ofNat4 (by omega)
    refine ⟨_, decShift_none cap i d (by omega), ?_, ?_, fun j hj => h.read_append _ hj, ?_⟩
    · simp only [hbits, hlen]
      omega
    · simp only [hbits]
      omega
    · simp only [hval, bitsValue_drop, hlen]
      rw [show d.bits.toNat + 8 * d.widx + 5 - 8 * d.widx = d.bits.toNat + 5 by omega]

/-! ## The characters taken in -/

/-- The character is one of the alphabet once normalised (R154). -/
def IsValidChar (c : Byte) : Prop := (lookup (normalise c)).valid = true

theorem decTook_nil (d : DecUnit) : DecTook [] (decOpen d) :=
  ⟨rfl, rfl, rfl, rfl, rfl, rfl, rfl, nofun, rfl, by simp⟩

theorem DecTook.holdsBits {text : List Byte} {d : DecUnit} (h : DecTook text d) :
    HoldsBits (bits5 (indicesOf text)) d := by
  have hw := h.widx
  have hb := h.bits
  exact ⟨by rw [bits5_length, indicesOf_length]; omega, by omega, h.bytes, h.acc⟩

theorem bits5_indicesOf_append (text : List Byte) (c : Byte) :
    bits5 (indicesOf (text ++ [c])) = bits5 (indicesOf text) ++ bits5 [(lookup (normalise c)).idx] := by
  rw [indicesOf_append, bits5_append]
  rfl

/-- `D.PFXOK` is written on the first character and stands after it (R37). -/
theorem pfxokAfter_append {text : List Byte} {c : Byte} {p : Bool}
    (hp : p = true ↔ (text.map normalise).head? = some sentinel) :
    pfxokAfter text.length (normalise c) p = true ↔ ((text ++ [c]).map normalise).head? = some sentinel := by
  cases text with
  | nil => simp [pfxokAfter]
  | cons x text => simpa [pfxokAfter] using hp

/-- A valid character within the limit is added to the characters taken in (R162). -/
theorem DecTook.takeIn {lim : Limits} {text : List Byte} {d : DecUnit} (h : DecTook text d) {c : Byte}
    (hlim : withinLimit lim.maxCh (text.length + 1) = true) (hv : IsValidChar c) :
    ∃ d', decTakeIn (capD lim) c d = .ok d' ∧ DecTook (text ++ [c]) d' := by
  have hw := h.widx
  have hb := h.bits
  have hold : HoldsBits (bits5 (indicesOf text)) { d with pfxok := pfxokAfter d.cnt (normalise c) d.pfxok } :=
    ⟨h.holdsBits.live, h.holdsBits.bits_lt, h.bytes, h.acc⟩
  obtain ⟨d', hd, hnew⟩ := hold.shift (cap := capD lim) (lookup (normalise c)).idx
    fun h3 => hasIndex_capD hlim (by simp only at h3 ⊢; omega)
  have hkeep := byteLoop_keeps hd
  rw [← bits5_indicesOf_append] at hnew
  have hlive := hnew.live
  have hlt := hnew.bits_lt
  rw [bits5_length, indicesOf_length] at hlive
  refine ⟨_, decTakeIn_valid hv h.badchar hd, ?_⟩
  exact {
    phase := by rw [hkeep]; exact h.phase
    badchar := by rw [hkeep]; exact h.badchar
    errchar := by rw [hkeep]; exact h.errchar
    status := by rw [hkeep]; exact h.status
    cnt := by rw [hkeep, List.length_append, ← h.cnt]; rfl
    widx := by simp only; omega
    bits := by simp only; omega
    bytes := hnew.bytes
    acc := hnew.acc
    pfxok := by rw [hkeep, h.cnt]; exact pfxokAfter_append h.pfxok }

/-- Under these limits a decode call is open in which these characters were pushed, all of them valid. -/
structure DecodingText (lim : Limits) (text : List Byte) (s : State) : Prop where
  limits : s.limits = lim
  illcmd : s.illcmd = false
  fault : s.dec.fault = false
  took : DecTook text s.dec

theorem DecodingText.start {s : State} (hi : s.illcmd = false) (hf : s.dec.fault = false) :
    DecodingText s.limits [] { s with dec := decOpen s.dec } := ⟨rfl, hi, hf, decTook_nil s.dec⟩

theorem DecodingText.push {lim : Limits} {text : List Byte} {s : State} (h : DecodingText lim text s) {c : Byte}
    (hlim : withinLimit lim.maxCh (text.length + 1) = true) (hv : IsValidChar c) :
    ∃ t, exec (.decPush c) s = .next t ∧ DecodingText lim (text ++ [c]) t := by
  obtain ⟨rfl, hi, hf, htook⟩ := h
  obtain ⟨d, hd, htook'⟩ := htook.takeIn hlim hv
  obtain ⟨-, -, -, hf', -⟩ := decTakeIn_keeps hd
  have hl : s.limits.maxCh ≠ some s.dec.cnt := htook.cnt ▸ ne_some_of_withinLimit hlim (Nat.lt_succ_self _)
  exact ⟨_, exec_decPush hi hf htook.phase hl hd, rfl, hi, hf'.trans hf, htook'⟩

/-- START and pushes of a valid text within the limit leave a call in which the text was pushed. -/
theorem decodingText_of_start {s : State} {text : List Byte} (hi : s.illcmd = false) (hf : s.dec.fault = false)
    (hlim : withinLimit s.limits.maxCh text.length = true) (hv : ∀ c ∈ text, IsValidChar c) :
    ∃ t, execAll (.decStart :: text.map Instr.decPush) s = .next t ∧ DecodingText s.limits text t := by
  rw [execAll_cons (exec_decStart hi hf)]
  refine execAll_map_of_push (.start hi hf) ?_
  rintro past c rest u rfl hu
  exact hu.push (withinLimit_mono hlim (by simp)) (hv c (by simp))

/-! ## The verdict on a valid text -/

theorem firstBad_of_valid {text : List Byte} (hv : ∀ c ∈ text, IsValidChar c) : firstBad text = none := by
  rw [firstBad, List.find?_eq_none]
  intro n hn
  obtain ⟨c, hc, rfl⟩ := List.mem_map.1 hn
  simp [show (lookup (normalise c)).valid = true from hv c hc]

/-- A valid text is judged by its length, then by its first character (R169). -/
theorem verdictOf_of_valid {text : List Byte} (hv : ∀ c ∈ text, IsValidChar c) :
    verdictOf text =
      if text.length ≤ 5 then .invLen else if (text.map normalise).head? = some sentinel then .ok else .invPfx := by
  rw [verdictOf, firstBad_of_valid hv]
  rfl

/-- A valid text that is rejected is too short or starts with another character (R210). -/
theorem verdictOf_ne_ok_of_valid {text : List Byte} (hv : ∀ c ∈ text, IsValidChar c) (hne : verdictOf text ≠ .ok) :
    verdictOf text = .invLen ∨ verdictOf text = .invPfx := by
  rw [verdictOf_of_valid hv] at hne ⊢
  split
  · exact .inl rfl
  · next hlen =>
    rw [if_neg hlen] at hne
    split
    · next hhead => exact absurd (if_pos hhead) hne
    · exact .inr rfl

/-- `DEC.END` gives the verdict on the characters taken in (R165, R169). -/
theorem DecTook.status_close {text : List Byte} {d : DecUnit} (h : DecTook text d) (hv : ∀ c ∈ text, IsValidChar c) :
    (decClose d).status = verdictOf text := by
  rw [decClose_status, h.badchar, h.cnt, verdictOf_of_valid hv, verdict, if_neg nofun]
  by_cases hlen : text.length ≤ 5
  · rw [if_pos hlen, if_pos (show text.length < minOkLen from Nat.lt_succ_of_le hlen)]
  · rw [if_neg hlen, if_neg (show ¬text.length < minOkLen from fun hlt => hlen (Nat.le_of_lt_succ hlt))]
    by_cases hhead : (text.map normalise).head? = some sentinel
    · rw [if_pos hhead, h.pfxok.2 hhead, if_neg nofun]
    · have hp : d.pfxok = false := by simpa using mt h.pfxok.1 hhead
      rw [if_neg hhead, if_pos hp]

/-- `DEC.END` opens the window on the bytes of the text exactly when the verdict is OK (R67, R168, R169). -/
theorem DecodingText.finish {lim : Limits} {text : List Byte} {s : State} (h : DecodingText lim text s)
    (hv : ∀ c ∈ text, IsValidChar c) :
    ∃ t, exec .decEnd s = .next t ∧ t.dec.status = verdictOf text ∧
      (verdictOf text = .ok → window .dout t = bytesOf text) ∧ (verdictOf text ≠ .ok → window .dout t = []) := by
  have hstatus := h.took.status_close hv
  refine ⟨_, exec_decEnd h.illcmd h.fault h.took.phase, hstatus, fun hok => ?_, fun hbad => ?_⟩
  · have hopen : doutWindowOpen (decClose s.dec) = true := doutWindowOpen_iff.2 ⟨rfl, hstatus.trans hok, h.fault⟩
    have hlen : (decClose s.dec).olen = 5 * text.length / 8 := by
      rw [decClose_olen, ← decClose_status, hstatus, hok, h.took.cnt, Nat.mul_comm]
      rfl
    have hread : ∀ j, j < (decClose s.dec).olen → Memory.read (decClose s.dec).dout j =
        some (BitVec.ofNat 8 (bitsValue (bitGroup (bits5 (indicesOf text)) 8 j))) :=
      fun j hj => h.took.bytes j (by rw [h.took.widx]; omega)
    rw [window_dout hopen hread, hlen]
    rfl
  · exact window_dout_closed (doutWindowOpen_eq_false.2 (.inr (.inl (hstatus ▸ hbad))))

/-- A whole DECODE call of a valid text within the limit (R169). -/
theorem decodeCall_of_valid {s : State} {text : List Byte} (hi : s.illcmd = false) (hf : s.dec.fault = false)
    (hlim : withinLimit s.limits.maxCh text.length = true) (hv : ∀ c ∈ text, IsValidChar c) :
    ∃ t, execAll (decodeCall text) s = .next t ∧ t.dec.status = verdictOf text ∧
      (verdictOf text = .ok → window .dout t = bytesOf text) ∧ (verdictOf text ≠ .ok → window .dout t = []) := by
  obtain ⟨u, hu, hcall⟩ := decodingText_of_start hi hf hlim hv
  obtain ⟨t, ht, hresult⟩ := hcall.finish hv
  refine ⟨t, ?_, hresult⟩
  rw [decodeCall, ← List.cons_append, execAll_append hu, execAll_cons ht, execAll_nil]

end Sys2Proof.Machine
end

