-- ==== Sys2Proof/Proofs/EncodeThenDecode.lean ====
section
/-!
PROOF. Decoding an encoded string (spec/40_encoder.md R134), for O53: its characters are valid and stand for the padded bits of
the bytes, so the verdict turns on the length and on the first five bits.
-/

namespace Sys2Proof.Machine

/-! ## Groups of a bit string -/

/-- The first groups of a bit string, put together, are its first bits (R63). -/
theorem flatMap_bitGroup (bits : List Bool) (width m : Nat) :
    ((List.range m).flatMap fun k => bitGroup bits width k) = bits.take (width * m) := by
  induction m with
  | zero => simp
  | succ m ih => rw [List.range_succ, List.flatMap_append, ih, List.flatMap_singleton, Nat.mul_succ, List.take_add]; rfl

/-- Five bits are the bits of the index that they number. -/
theorem bits5_bitsValue {l : List Bool} (h : l.length = 5) : bits5 [BitVec.ofNat 5 (bitsValue l)] = l := by
  match l, h with
  | [a, b, c, d, e], _ =>
    revert a b c d e
    decide

theorem bits5_map {α : Type} (l : List α) (f : α → Sym) : bits5 (l.map f) = l.flatMap fun x => bits5 [f x] := by
  simp [bits5, List.flatMap_map]

theorem bitGroup_bits8_cons (b : Byte) (bytes : List Byte) (j : Nat) :
    bitGroup (bits8 (b :: bytes)) 8 (j + 1) = bitGroup (bits8 bytes) 8 j := by
  have hdrop : (bits8 ([b] ++ bytes)).drop ((bits8 [b]).length + 8 * j) = (bits8 bytes).drop (8 * j) := by
    rw [bits8_append, List.drop_length_add_append]
  rw [bitGroup, bitGroup, ← hdrop, Nat.mul_succ, Nat.add_comm]
  rfl

/-- The groups of eight are the bytes. -/
theorem bitGroup_bits8 {bytes : List Byte} {j : Nat} (hj : j < bytes.length) :
    bitGroup (bits8 bytes) 8 j = bits8 [bytes[j]] := by
  induction bytes generalizing j with
  | nil => cases hj
  | cons b bytes ih =>
    cases j with
    | zero => rfl
    | succ j => rw [bitGroup_bits8_cons, ih (Nat.lt_of_succ_lt_succ hj), List.getElem_cons_succ]

/-! ## The characters of an encoded string -/

theorem lookup_normalise_alpha (i : Sym) : lookup (normalise (alpha i)) = { valid := true, idx := i } := by
  have hfix : ∀ i : Sym, normalise (alpha i) = alpha i := by decide
  rw [hfix, lookup, rev_alpha]

theorem encodeOf_valid (bytes : List Byte) : ∀ c ∈ encodeOf bytes, IsValidChar c := by
  intro c hc
  rw [encodeOf_eq] at hc
  obtain ⟨k, -, rfl⟩ := List.mem_map.1 hc
  rw [IsValidChar, lookup_normalise_alpha]

/-- The indices of the encoded string spell the padded bits (R130). -/
theorem bits5_indicesOf_encodeOf (bytes : List Byte) : bits5 (indicesOf (encodeOf bytes)) = paddedBits bytes := by
  have hlen := paddedBits_length bytes
  calc bits5 (indicesOf (encodeOf bytes))
      = (List.range ((8 * bytes.length + 4) / 5)).flatMap fun k => bits5 [encodedSym bytes k] := by
        rw [indicesOf, encodeOf_eq, List.map_map, bits5_map]
        simp only [Function.comp_apply, lookup_normalise_alpha]
    _ = (List.range ((8 * bytes.length + 4) / 5)).flatMap fun k => bitGroup (paddedBits bytes) 5 k := by
        refine List.flatMap_congr fun k hk => bits5_bitsValue ?_
        rw [List.mem_range] at hk
        rw [bitGroup, List.length_take, List.length_drop]
        omega
    _ = paddedBits bytes := by rw [flatMap_bitGroup, ← hlen, List.take_length]

/-- The bytes of the encoded string are the bytes (R171). -/
theorem bytesOf_encodeOf (bytes : List Byte) : bytesOf (encodeOf bytes) = bytes := by
  have hlen : 5 * (encodeOf bytes).length / 8 = bytes.length := by
    rw [encodeOf_length]
    omega
  rw [bytesOf, hlen, bits5_indicesOf_encodeOf]
  apply List.ext_getElem (by simp)
  intro j _ hj
  rw [List.getElem_map, List.getElem_range, paddedBits, bitGroup_append _ _ (by rw [bits8_length]; omega),
    bitGroup_bits8 hj, bitsValue_bits8_single, BitVec.ofNat_toNat, BitVec.setWidth_eq]

/-! ## The verdict on an encoded string -/

/-- The first symbol is the top five bits of the first byte. -/
theorem encodedSym_zero (b : Byte) (bytes : List Byte) :
    encodedSym (b :: bytes) 0 = BitVec.ofNat 5 (b.toNat / 8) := by
  have hlen : 5 * 0 + 5 ≤ (bits8 [b]).length := by simp
  have hgroup : bitGroup (paddedBits (b :: bytes)) 5 0 = bitGroup (bits8 [b]) 5 0 := by
    rw [paddedBits, ← List.singleton_append, bits8_append, List.append_assoc, bitGroup_append _ _ hlen]
  have hb := b.isLt
  rw [encodedSym, hgroup, bitsValue_bitGroup _ hlen, bitsValue_bits8_single]
  show BitVec.ofNat 5 (b.toNat / 8 % 32) = _
  rw [Nat.mod_eq_of_lt (by omega)]

/-- The encoded string starts with the sentinel exactly when the first byte is in the range of the sentinel's five bits. -/
theorem head_encodeOf (bytes : List Byte) :
    ((encodeOf bytes).map normalise).head? = some sentinel ↔
      ∃ b, bytes.head? = some b ∧ 0xC8 ≤ b.toNat ∧ b.toNat ≤ 0xCF := by
  cases bytes with
  | nil => simp [encodeOf_eq]
  | cons b bytes =>
    have hb := b.isLt
    have hsent : ∀ i : Sym, normalise (alpha i) = sentinel ↔ i = 25 := by decide
    have hfirst : ((encodeOf (b :: bytes)).map normalise).head? = some (normalise (alpha (encodedSym (b :: bytes) 0))) := by
      rw [List.head?_map, encodeOf_eq, List.head?_map, List.head?_range, if_neg (by rw [List.length_cons]; omega)]
      rfl
    rw [hfirst, Option.some_inj, hsent, encodedSym_zero, ← BitVec.toNat_inj, BitVec.toNat_ofNat]
    simp only [List.head?_cons, Option.some_inj, exists_eq_left', BitVec.reduceToNat]
    omega

/-- An encoded string has more than five characters from four bytes on, so this is when it is accepted (R134). -/
theorem verdictOf_encodeOf_eq_ok (bytes : List Byte) :
    verdictOf (encodeOf bytes) = .ok ↔
      4 ≤ bytes.length ∧ ∃ b, bytes.head? = some b ∧ 0xC8 ≤ b.toNat ∧ b.toNat ≤ 0xCF := by
  have hlen : ¬(encodeOf bytes).length ≤ 5 ↔ 4 ≤ bytes.length := by
    rw [encodeOf_length]
    omega
  rw [← hlen, ← head_encodeOf, verdictOf_of_valid (encodeOf_valid bytes)]
  split <;> simp [*]

/-- Settles O53: the call of a valid text gives its verdict and its bytes, and an encoded string's are these. -/
theorem encodeThenDecodeSucceedsOnlyWithTheSentinel : Obligations.EncodeThenDecodeSucceedsOnlyWithTheSentinel := by
  intro s bytes hi hf hlim
  have hv := encodeOf_valid bytes
  obtain ⟨t, ht, hstatus, hok, hbad⟩ := decodeCall_of_valid hi hf hlim hv
  rw [bytesOf_encodeOf] at hok
  refine ⟨t, ht, ?_⟩
  rw [hstatus]
  exact ⟨verdictOf_encodeOf_eq_ok bytes, hok, fun hne => ⟨verdictOf_ne_ok_of_valid hv hne, hbad hne⟩⟩

end Sys2Proof.Machine
end

