-- ==== Sys2Proof/Proofs/DecoderCommands.lean ====
section
/-!
PROOF. The three commands of the decoder as their rules give them (spec/41_decoder.md R155, R158 to R160, R165, R168), for O25 to
O30.
-/

namespace Sys2Proof.Machine

/-! ## DEC.START -/

/-- Settles O25: the rule of START is `decOpen`, and it closes the window. -/
theorem decStartOpensACall : Obligations.DecStartOpensACall :=
  ⟨rfl, fun _ => reserved_of_data (.inr (.inr (.inl rfl))),
    fun _ => ⟨fun hi hf => ⟨_, exec_decStart hi hf, rfl, fun _ => readPort_dout_closed rfl⟩,
      exec_ignored (i := .decStart)⟩⟩

/-! ## DEC.PUSH -/

/-- The word of `DEC.PUSH` is its opcode with the operand or-ed in (R91). -/
theorem encode_decPush_eq_or (c : Byte) : encode (.decPush c) = 0x600#12 ||| c.setWidth 12 := by
  rw [encode_decPush, BitVec.append_def, BitVec.shiftLeftZeroExtend_eq]
  rfl

/-- The live bits after the shift-in of an index (R158's `k`). -/
def DecUnit.pushBits (d : DecUnit) : Nat := d.bits.toNat + 5

/-- The value of the live bits after the shift-in of an index (R158's `a`). -/
def DecUnit.pushValue (d : DecUnit) (i : Sym) : Nat := d.acc.toNat * 32 + i.toNat

/-- The bytes that a push of a valid character writes (R159). -/
def DecUnit.pushBytes (d : DecUnit) : Nat := if d.pushBits < 8 then 0 else 1

/-- The live bits that a push of a valid character leaves (R159). -/
def DecUnit.pushRest (d : DecUnit) : Nat := d.pushBits - 8 * d.pushBytes

/-- The unit after the datapath of a push has shifted in the index `i`, with the buffer `mem` (R158). -/
def DecUnit.shifted (d : DecUnit) (i : Sym) (mem : Memory) : DecUnit :=
  { d with
    acc := BitVec.ofNat 12 (d.pushValue i % 2 ^ d.pushRest), bits := BitVec.ofNat 4 d.pushRest
    widx := d.widx + d.pushBytes, dout := mem }

/-- The buffer after a push: the byte that it writes, if any, and every other element as before (R158). -/
structure DecUnit.PushWrites (d : DecUnit) (i : Sym) (mem : Memory) : Prop where
  new : d.pushBytes = 1 →
    Memory.read mem d.widx = some (BitVec.ofNat 8 (d.pushValue i / 2 ^ (d.pushBits - 8) % 256))
  old : ∀ a, a < d.widx ∨ d.widx + d.pushBytes ≤ a → Memory.read mem a = Memory.read d.dout a

theorem pushBytes_of_le_two {d : DecUnit} (h : d.bits.toNat ≤ 2) : d.pushBytes = 0 :=
  if_pos (by unfold DecUnit.pushBits; omega)

theorem pushBytes_of_three_le {d : DecUnit} (h : 3 ≤ d.bits.toNat) : d.pushBytes = 1 :=
  if_neg (by unfold DecUnit.pushBits; omega)

/-- R158's datapath in closed form, on live bits: the loop makes one turn or none. -/
theorem decShift_eq_shifted {cap : Option Nat} {d : DecUnit} (i : Sym) (hb : d.bits.toNat ≤ 7)
    (hacc : d.acc.toNat < 2 ^ d.bits.toNat) (hroom : 3 ≤ d.bits.toNat → hasIndex cap d.widx = true) :
    ∃ mem, decShift cap i d = .ok (d.shifted i mem) ∧ d.PushWrites i mem := by
  have hlt : d.acc.toNat < 128 := Nat.lt_of_lt_of_le hacc (Nat.pow_le_pow_right (by decide) hb)
  have hval : (shiftInSym d.acc i).toNat = d.pushValue i := shiftInSym_toNat _ _ hlt
  by_cases h3 : 3 ≤ d.bits.toNat
  · have hm := pushBytes_of_three_le h3
    have hrest : d.pushRest = d.bits.toNat - 3 := by rw [DecUnit.pushRest, hm, DecUnit.pushBits]; omega
    rw [decShift_one cap i d h3 hb (hroom h3), keepLow_eq_ofNat, topByte_eq_ofNat, hval, ← hrest]
    refine ⟨_, by rw [DecUnit.shifted, hm], fun _ => ?_, fun a ha => ?_⟩
    · exact Memory.read_write_same _ _ _
    · exact Memory.read_write_other _ _ _ _ (by omega)
  · have hm := pushBytes_of_le_two (Nat.lt_succ_iff.1 (Nat.not_le.1 h3))
    have hrest : d.pushRest = d.bits.toNat + 5 := by rw [DecUnit.pushRest, hm]; rfl
    have hfit : d.pushValue i < 2 ^ d.pushRest := hrest ▸ appendBits_lt hacc i.isLt
    have hshift : shiftInSym d.acc i = BitVec.ofNat 12 (d.pushValue i % 2 ^ d.pushRest) := by
      rw [Nat.mod_eq_of_lt hfit, ← hval, BitVec.ofNat_toNat, BitVec.setWidth_eq]
    rw [decShift_none cap i d (by omega), hshift, ← hrest]
    exact ⟨d.dout, by rw [DecUnit.shifted, hm]; rfl, by simp [hm], fun _ _ => rfl⟩

/-- In an open call below its limit a valid character, while all were valid, runs the datapath and is counted (R158). -/
theorem DecInv.takeIn_shifted {lim : Limits} {d : DecUnit} (h : DecInv lim d) (hp : d.phase = .run)
    (hl : lim.maxCh ≠ some d.cnt) (hb : d.badchar = false) {c : Byte} (hv : (lookup (normalise c)).valid = true) :
    ∃ mem, decTakeIn (capD lim) c d =
        .ok { d.shifted (lookup (normalise c)).idx mem with
          pfxok := pfxokAfter d.cnt (normalise c) d.pfxok, cnt := d.cnt + 1 } ∧
      d.PushWrites (lookup (normalise c)).idx mem := by
  obtain ⟨mem, hmem, hw⟩ := decShift_eq_shifted (cap := capD lim)
    (d := { d with pfxok := pfxokAfter d.cnt (normalise c) d.pfxok }) (lookup (normalise c)).idx h.bits_le h.acc_lt
    (h.room hp hb hl)
  exact ⟨mem, decTakeIn_valid hv hb hmem, hw.new, hw.old⟩

/-- Settles O26: the closed forms of the three branches where the rule runs, and the outcomes of the tests of R95 where it does
not. -/
theorem decPushTakesACharacterIn : Obligations.DecPushTakesACharacterIn := by
  intro s c
  refine ⟨encode_decPush_eq_or c, fun hi hf hp hl => ⟨fun hv => ?_, fun hv hb => ?_, fun h hv hb => ?_⟩,
    fun hi hf => exec_seq (i := .decPush c) hi hf rfl, exec_ovf (i := .decPush c), exec_ignored (i := .decPush c)⟩
  · exact exec_decPush hi hf hp hl (decTakeIn_invalid _ c s.dec hv)
  · exact exec_decPush hi hf hp hl (decTakeIn_frozen _ c s.dec hv hb)
  · obtain ⟨mem, hmem, hw⟩ := h.dec.takeIn_shifted hp hl hb hv
    exact ⟨mem, exec_decPush hi hf hp hl hmem, hw.new, hw.old⟩

/-! ## Bytes and bits left -/

/-- A decode call is open, at a command boundary, with no bad character so far. -/
structure InDecodeCall (s : State) : Prop where
  inv : s.Inv
  illcmd : s.illcmd = false
  fault : s.dec.fault = false
  phase : s.dec.phase = .run
  badchar : s.dec.badchar = false

/-- R162 (i): every bit taken in is live or written. -/
theorem InDecodeCall.live {s : State} (h : InDecodeCall s) :
    s.dec.bits.toNat + 8 * s.dec.widx = 5 * s.dec.cnt ∧ s.dec.bits.toNat ≤ 7 :=
  ⟨h.inv.dec.run h.phase h.badchar, h.inv.dec.bits_le⟩

/-- A push of a valid character below the limit counts it and leaves the call open. -/
theorem InDecodeCall.push {s : State} (h : InDecodeCall s) (hl : s.limits.maxCh ≠ some s.dec.cnt) {c : Byte}
    (hv : (lookup (normalise c)).valid = true) :
    ∃ t, exec (.decPush c) s = .next t ∧ InDecodeCall t ∧ t.limits = s.limits ∧ t.dec.cnt = s.dec.cnt + 1 := by
  obtain ⟨mem, hmem, -⟩ := h.inv.dec.takeIn_shifted h.phase hl h.badchar hv
  have hx := exec_decPush h.illcmd h.fault h.phase hl hmem
  exact ⟨_, hx, ⟨exec_keeps_inv h.inv hx, h.illcmd, h.fault, h.phase, h.badchar⟩, rfl, rfl⟩

/-- Within the limit a sequence of pushes of valid characters counts them and leaves the call open. -/
theorem InDecodeCall.pushes {s : State} (h : InDecodeCall s) {text : List Byte}
    (hlim : withinLimit s.limits.maxCh (s.dec.cnt + text.length) = true)
    (hv : ∀ c ∈ text, (lookup (normalise c)).valid = true) :
    ∃ t, execAll (text.map Instr.decPush) s = .next t ∧ InDecodeCall t ∧ t.limits = s.limits ∧
      t.dec.cnt = s.dec.cnt + text.length := by
  refine execAll_map_of_push
    (P := fun past t => InDecodeCall t ∧ t.limits = s.limits ∧ t.dec.cnt = s.dec.cnt + past.length) ⟨h, rfl, rfl⟩ ?_
  rintro past c rest u rfl ⟨hu, hl, hn⟩
  have hroom : u.limits.maxCh ≠ some u.dec.cnt := by
    rw [hl, hn]
    exact ne_some_of_withinLimit hlim (by simp)
  obtain ⟨t, ht, hcall, hl', hn'⟩ := hu.push hroom (hv c (by simp))
  refine ⟨t, ht, hcall, hl'.trans hl, ?_⟩
  rw [hn', hn, List.length_append]
  rfl

/-- Settles O27: the counts of characters, bytes and live bits agree before and after (R162 (i)), with at most 7 live bits. -/
theorem decPushByteCounts : Obligations.DecPushByteCounts := by
  constructor
  · intro s c hinv hi hf hp hl hb hv
    have hcall : InDecodeCall s := ⟨hinv, hi, hf, hp, hb⟩
    obtain ⟨t, ht, hcall', -, hn⟩ := hcall.push hl hv
    obtain ⟨hlive, -⟩ := hcall.live
    obtain ⟨hlive', hle'⟩ := hcall'.live
    refine ⟨t, ht, ?_⟩
    simp only [← BitVec.toNat_inj, BitVec.reduceToNat]
    omega
  · intro s text hinv hi hf hp hlim hb hbits hlen hv
    have hcall : InDecodeCall s := ⟨hinv, hi, hf, hp, hb⟩
    obtain ⟨t, ht, hcall', -, hn⟩ := hcall.pushes (hlen ▸ hlim) hv
    obtain ⟨hlive, -⟩ := hcall.live
    obtain ⟨hlive', hle'⟩ := hcall'.live
    refine ⟨t, ht, ?_⟩
    simp only [← BitVec.toNat_inj, BitVec.reduceToNat] at hbits ⊢
    omega

/-! ## After a bad character -/

/-- Once a character was bad, a later one only counts, whatever it is (R160). -/
theorem decTakeIn_of_badchar (cap : Option Nat) (c : Byte) {d : DecUnit} (hb : d.badchar = true) (hcnt : d.cnt ≠ 0) :
    decTakeIn cap c d = .ok { d with cnt := d.cnt + 1 } := by
  have hpfx := pfxokAfter_of_ne (n := normalise c) (old := d.pfxok) hcnt
  cases hv : (lookup (normalise c)).valid with
  | true => rw [decTakeIn_frozen cap c d hv hb, hpfx]
  | false => rw [decTakeIn_invalid cap c d hv, hpfx, errcharAfter, if_pos hb, ← hb]

theorem verdict_of_badchar (cnt : Nat) (p : Bool) : verdict true cnt p = .invChar := rfl

/-- Within the limit a text pushed after a bad character is counted and no more. -/
theorem execAll_map_decPush_of_badchar {s : State} {text : List Byte} (hi : s.illcmd = false) (hf : s.dec.fault = false)
    (hp : s.dec.phase = .run) (hb : s.dec.badchar = true) (hcnt : s.dec.cnt ≠ 0)
    (hlim : withinLimit s.limits.maxCh (s.dec.cnt + text.length) = true) :
    execAll (text.map Instr.decPush) s = .next { s with dec := { s.dec with cnt := s.dec.cnt + text.length } } := by
  obtain ⟨u, hu, rfl⟩ : ∃ u, execAll (text.map Instr.decPush) s = .next u ∧
      u = { s with dec := { s.dec with cnt := s.dec.cnt + text.length } } := by
    refine execAll_map_of_push (P := fun past u => u = { s with dec := { s.dec with cnt := s.dec.cnt + past.length } })
      rfl ?_
    rintro past c rest u rfl rfl
    have hl : s.limits.maxCh ≠ some (s.dec.cnt + past.length) := ne_some_of_withinLimit hlim (by simp)
    refine ⟨_, exec_decPush hi hf hp hl (decTakeIn_of_badchar _ c hb (by simp [hcnt])), ?_⟩
    rw [List.length_append]
    rfl
  exact hu

/-- Settles O28: a flag that is set was set by a counted character, so a push only counts, and END then gives INVCHAR. -/
theorem afterABadCharacterOnlyTheCountMoves : Obligations.AfterABadCharacterOnlyTheCountMoves := by
  intro s h hi hf hp hb
  have hcnt : s.dec.cnt ≠ 0 := fun h0 => by simp [(h.dec.no_char h0).1] at hb
  refine ⟨fun c hl => exec_decPush hi hf hp hl (decTakeIn_of_badchar _ c hb hcnt), fun text hlim => ?_⟩
  have hpushes := execAll_map_decPush_of_badchar hi hf hp hb hcnt hlim
  have hstatus : verdict s.dec.badchar (s.dec.cnt + text.length) s.dec.pfxok = .invChar := by
    rw [hb, verdict_of_badchar]
  refine ⟨_, (execAll_append hpushes).trans (execAll_cons (exec_decEnd hi hf hp)), hstatus, rfl, rfl, fun k => ?_⟩
  exact readPort_dout_closed (doutWindowOpen_eq_false.2 (.inr (.inl (by rw [decClose_status, hstatus]; nofun))))

/-! ## DEC.END -/

/-- The verdict by the count of R165's pseudocode. -/
theorem verdict_eq (b : Bool) (cnt : Nat) (p : Bool) :
    verdict b cnt p = if b then .invChar else if cnt ≤ 5 then .invLen else if p then .ok else .invPfx := by
  have hlen : cnt < minOkLen ↔ cnt ≤ 5 := Nat.lt_succ_iff
  cases p <;> simp [verdict, hlen]

theorem verdict_eq_ok_iff {b : Bool} {cnt : Nat} {p : Bool} :
    verdict b cnt p = .ok ↔ b = false ∧ 5 < cnt ∧ p = true := by
  rw [verdict_eq]
  cases b with
  | true => simp
  | false =>
    by_cases hlen : cnt ≤ 5
    · simp [hlen]
    · cases p <;> simp [hlen, Nat.not_le.1 hlen]

/-- Only a success publishes a length (R46). -/
theorem publishedLen_eq (v : Verdict) (cnt : Nat) : publishedLen v cnt = if v = .ok then cnt * 5 / 8 else 0 := by
  cases v <;> rfl

/-- In an open call with no bad character every whole byte has been written (R165, R168). -/
theorem DecInv.widx_eq {lim : Limits} {d : DecUnit} (h : DecInv lim d) (hp : d.phase = .run) (hb : d.badchar = false) :
    d.widx = 5 * d.cnt / 8 := by
  have hrun := h.run hp hb
  have hle := h.bits_le
  omega

/-- Settles O29: the rule of END is `decClose`, whose verdict and length are those of the pseudocode. -/
theorem decEndGivesTheVerdict : Obligations.DecEndGivesTheVerdict := by
  refine ⟨rfl, fun _ => reserved_of_data (.inr (.inr (.inr rfl))), fun s => ⟨fun hi hf hp => ?_, fun h hp hb => ?_,
    fun hi hf => exec_seq (i := .decEnd) hi hf rfl, exec_ignored (i := .decEnd)⟩⟩
  · simp only [exec_decEnd hi hf hp, decClose, publishedLen_eq, verdict_eq_ok_iff]
    rw [verdict_eq]
  · rw [h.dec.widx_eq hp hb, Nat.mul_comm]

/-- Settles O30: an OK verdict means no bad character, so what was written is what is published. -/
theorem publishedLengthIsTheBytesWritten : Obligations.PublishedLengthIsTheBytesWritten := by
  intro s t h hi hf hx hok hp
  rw [exec_decEnd hi hf hp] at hx
  cases hx
  have hverdict : verdict s.dec.badchar s.dec.cnt s.dec.pfxok = .ok := hok
  obtain ⟨hb, -, -⟩ := verdict_eq_ok_iff.1 hverdict
  have hwidx := h.dec.widx_eq hp hb
  have holen : (decClose s.dec).olen = s.dec.widx := by
    rw [decClose_olen, hverdict, hwidx, Nat.mul_comm]
    rfl
  refine ⟨holen, hwidx, fun k hk => ?_⟩
  obtain ⟨x, hread⟩ := Option.isSome_iff_exists.1 (h.dec.dout_listed k hk)
  exact ⟨x, hread, readPort_dout.2 ⟨doutWindowOpen_iff.2 ⟨rfl, hok, hf⟩, holen.symm ▸ hk, hread⟩⟩

end Sys2Proof.Machine
end

