-- ==== Sys2Proof/Proofs/Normalisation.lean ====
section
/-!
PROOF. Normalisation of character codes (spec/41_decoder.md R152, R153), and that texts with one normal form decode alike (R170),
for O8, O9 and O51.
-/

namespace Sys2Proof.Machine

/-! ## Normalisation on numbers -/

/-- The first step of `norm` on numbers (R152). -/
def foldCaseNat (n : Nat) : Nat := if 0x61 ≤ n ∧ n ≤ 0x7A then n - 0x20 else n

/-- `norm` on numbers, as R152's pseudocode gives it. -/
def normaliseNat (n : Nat) : Nat :=
  if foldCaseNat n = 0x4F then 0x30 else if foldCaseNat n = 0x49 ∨ foldCaseNat n = 0x4C then 0x31 else foldCaseNat n

theorem foldCase_toNat (c : Byte) : (foldCase c).toNat = foldCaseNat c.toNat := by
  simp only [foldCase, foldCaseNat, BitVec.le_def, BitVec.reduceToNat]
  split
  · next h =>
    have hle : 0x20#8 ≤ c := Nat.le_trans (by decide) h.1
    rw [BitVec.toNat_sub_of_le hle]
    rfl
  · rfl

theorem normalise_toNat (c : Byte) : (normalise c).toNat = normaliseNat c.toNat := by
  simp only [normalise, normaliseNat, ← BitVec.toNat_inj, foldCase_toNat, BitVec.reduceToNat]
  split
  · rfl
  · split
    · rfl
    · exact foldCase_toNat c

/-- The codes that `norm` changes (R152). -/
theorem normaliseNat_ne_iff (n : Nat) :
    normaliseNat n ≠ n ↔ n = 0x49 ∨ n = 0x4C ∨ n = 0x4F ∨ (0x61 ≤ n ∧ n ≤ 0x7A) := by
  unfold normaliseNat foldCaseNat
  split_ifs <;> omega

theorem normalise_ne_iff (c : Byte) :
    normalise c ≠ c ↔ c = 0x49#8 ∨ c = 0x4C#8 ∨ c = 0x4F#8 ∨ (0x61 ≤ c.toNat ∧ c.toNat ≤ 0x7A) := by
  simp only [ne_eq, ← BitVec.toNat_inj, normalise_toNat, BitVec.reduceToNat]
  exact normaliseNat_ne_iff c.toNat

/-- The codes whose normal form is the sentinel (R153). -/
theorem normalise_eq_sentinel_iff (c : Byte) : normalise c = 0x53#8 ↔ c = 0x53#8 ∨ c = 0x73#8 := by
  simp only [← BitVec.toNat_inj, normalise_toNat, BitVec.reduceToNat, normaliseNat, foldCaseNat]
  split_ifs <;> omega

theorem normalise_alpha (i : Sym) : normalise (alpha i) = alpha i := by
  revert i
  decide

/-! ## Counts of codes -/

/-- A set of codes has as many as a list of them without repetition. -/
theorem countP_codes {p : Byte → Bool} {codes : List Byte} (hnodup : codes.Nodup) (hmem : ∀ c, p c = true ↔ c ∈ codes) :
    ((List.range 256).countP fun n => p (BitVec.ofNat 8 n)) = codes.length := by
  have hperm : (allCodes.filter p).Perm codes :=
    (List.perm_ext_iff_of_nodup (allCodes_nodup.filter _) hnodup).2 fun c => by simp [mem_allCodes, hmem]
  calc (List.range 256).countP (fun n => p (BitVec.ofNat 8 n))
      = allCodes.countP p := by rw [allCodes, List.countP_map]; rfl
    _ = (allCodes.filter p).length := List.countP_eq_length_filter
    _ = codes.length := hperm.length_eq

/-- `a` to `z`. -/
def lowerCase : List Byte := (List.range 26).map fun k => BitVec.ofNat 8 (0x61 + k)

theorem mem_lowerCase_iff (c : Byte) : c ∈ lowerCase ↔ 0x61 ≤ c.toNat ∧ c.toNat ≤ 0x7A := by
  simp only [lowerCase, List.mem_map, List.mem_range, ← BitVec.toNat_inj, BitVec.toNat_ofNat]
  constructor
  · rintro ⟨k, hk, hc⟩
    omega
  · intro h
    exact ⟨c.toNat - 0x61, by omega, by omega⟩

/-- `I`, `L` and `O`, which stand for digits (R152). -/
def confusables : List Byte := [0x49, 0x4C, 0x4F]

theorem mem_confusables_iff (c : Byte) : c ∈ confusables ↔ c.toNat = 0x49 ∨ c.toNat = 0x4C ∨ c.toNat = 0x4F := by
  simp only [confusables, List.mem_cons, List.not_mem_nil, or_false, ← BitVec.toNat_inj, BitVec.reduceToNat]

/-- `norm` changes the letters that stand for digits and the lower-case ones (R152). -/
theorem countP_normalise_ne : ((List.range 256).countP fun n => normalise (BitVec.ofNat 8 n) != BitVec.ofNat 8 n) = 29 := by
  refine countP_codes (p := fun c => normalise c != c) (codes := confusables ++ lowerCase) (by decide) fun c => ?_
  rw [bne_iff_ne, normalise_ne_iff, List.mem_append, mem_confusables_iff, mem_lowerCase_iff]
  simp only [← BitVec.toNat_inj, BitVec.reduceToNat, or_assoc]

/-- A code that `norm` brings into the alphabet is an entry, stands for a digit, or is a lower-case letter other than `u`
(R153). -/
theorem lookup_normalise_valid_iff (c : Byte) : (lookup (normalise c)).valid = true ↔
    c ∈ alphaTable ++ confusables ++ lowerCase.filter (· != 0x75) := by
  rw [lookup, rev_valid_iff, List.mem_append, List.mem_append, List.mem_filter, mem_alphaTable_iff, mem_alphaTable_iff,
    mem_confusables_iff, mem_lowerCase_iff, normalise_toNat, bne_iff_ne, ne_eq, ← BitVec.toNat_inj, normaliseNat,
    foldCaseNat]
  simp only [BitVec.reduceToNat]
  split_ifs <;> omega

theorem countP_lookup_normalise_valid :
    ((List.range 256).countP fun n => (lookup (normalise (BitVec.ofNat 8 n))).valid) = 60 :=
  countP_codes (p := fun c => (lookup (normalise c)).valid) (by decide) lookup_normalise_valid_iff

/-- Settles O9, on numbers and on the table's entries. -/
theorem normIsIdempotentAndFixesTheAlphabet : Obligations.NormIsIdempotentAndFixesTheAlphabet :=
  ⟨normalise_normalise, normalise_alpha, normalise_eq_sentinel_iff, countP_lookup_normalise_valid⟩

/-! ## Texts with one normal form -/

/-- `DEC.PUSH` uses its operand through `norm` only, and `norm` is idempotent (R152, R153). -/
theorem exec_decPush_normalise (c : Byte) (s : State) : exec (.decPush c) s = exec (.decPush (normalise c)) s := by
  have hrule : decTakeIn (capD s.limits) (normalise c) = decTakeIn (capD s.limits) c := by
    funext d
    rw [decTakeIn, normalise_normalise, ← decTakeIn]
  show execDecPush c s = execDecPush (normalise c) s
  rw [execDecPush, execDecPush, hrule]

/-- Settles O8: `norm` computed on numbers, the codes it changes counted, and `DEC.PUSH` by its one use of the operand. -/
theorem normFoldsCaseAndConfusables : Obligations.NormFoldsCaseAndConfusables :=
  ⟨normalise_toNat, normalise_ne_iff, countP_normalise_ne, fun s c => exec_decPush_normalise c s⟩

/-- Two sequences that begin with commands of one effect have one outcome if the rests have from every state. -/
theorem execAll_cons_congr {i j : Instr} {is js : List Instr} {s : State} (hhead : exec i s = exec j s)
    (hrest : ∀ t, execAll is t = execAll js t) : execAll (i :: is) s = execAll (j :: js) s := by
  rw [execAll, execAll, hhead]
  cases exec j s with
  | next t => exact hrest t
  | fault f => rfl
  | refused r => rfl

/-- Pushing a text is pushing its normal form (R170). -/
theorem execAll_map_decPush_normalise (text : List Byte) (rest : List Instr) (s : State) :
    execAll (text.map Instr.decPush ++ rest) s = execAll ((text.map normalise).map Instr.decPush ++ rest) s := by
  induction text generalizing s with
  | nil => rfl
  | cons c text ih => exact execAll_cons_congr (exec_decPush_normalise c s) ih

theorem execAll_decodeCall_normalise (text : List Byte) (s : State) :
    execAll (decodeCall text) s = execAll (decodeCall (text.map normalise)) s :=
  execAll_cons_congr rfl (execAll_map_decPush_normalise text [.decEnd])

/-- Settles O51: both calls are the call of the normal form. -/
theorem confusableTextsDecodeAlike : Obligations.ConfusableTextsDecodeAlike := by
  intro s text text' h
  rw [execAll_decodeCall_normalise text, h, ← execAll_decodeCall_normalise text']

end Sys2Proof.Machine
end

