-- ==== Sys2Proof/Proofs/DecodeCall.lean ====
section
/-!
PROOF. A whole DECODE call of any text (spec/41_decoder.md R162, R169), the bytes of an encoded string in the buffer (R171), and
the first byte of an accepted string (R172), for O47, O48, O52 and O54.
-/

namespace Sys2Proof.Machine

/-- Settles O47: START takes in nothing, and a push of a valid character below the limit takes in that character. -/
theorem decoderHoldsTheCharactersTakenIn : Obligations.DecoderHoldsTheCharactersTakenIn := by
  refine ⟨fun s hi hf => ⟨_, exec_decStart hi hf, decTook_nil s.dec⟩, fun s text c h hi hf hlim hv => ?_⟩
  obtain ⟨t, ht, hcall⟩ := DecodingText.push ⟨rfl, hi, hf, h⟩ hlim hv
  exact ⟨t, ht, hcall.took⟩

/-! ## The first bad character -/

theorem firstBad_append (text more : List Byte) : firstBad (text ++ more) = (firstBad text).or (firstBad more) := by
  rw [firstBad, List.map_append, List.find?_append]
  rfl

theorem firstBad_singleton {c : Byte} (h : ¬IsValidChar c) : firstBad [c] = some (normalise c) := by
  have hv : (lookup (normalise c)).valid = false := Bool.eq_false_iff.2 h
  simp [firstBad, hv]

theorem firstBad_eq_none_iff {text : List Byte} : firstBad text = none ↔ ∀ c ∈ text, IsValidChar c := by
  refine ⟨fun h c hc => ?_, firstBad_of_valid⟩
  have hnot := List.find?_eq_none.1 h (normalise c) (List.mem_map_of_mem hc)
  simpa [IsValidChar] using hnot

theorem verdictOf_eq_invChar_iff {text : List Byte} : verdictOf text = .invChar ↔ (firstBad text).isSome := by
  unfold verdictOf
  cases firstBad text with
  | some n => simp
  | none =>
    simp only [Option.isSome_none, Bool.false_eq_true, if_false, iff_false]
    split_ifs <;> decide

/-! ## The call before its END -/

/-- Under these limits a decode call is open in which these characters were pushed, a bad one among them (R160). -/
structure SpoiltText (lim : Limits) (text : List Byte) (s : State) : Prop where
  limits : s.limits = lim
  illcmd : s.illcmd = false
  fault : s.dec.fault = false
  phase : s.dec.phase = .run
  cnt : s.dec.cnt = text.length
  badchar : s.dec.badchar = true
  errchar : firstBad text = some s.dec.errchar

/-- The first bad character sets the flag and is recorded (R158). -/
theorem DecodingText.push_bad {lim : Limits} {text : List Byte} {s : State} (h : DecodingText lim text s)
    (hvalid : ∀ x ∈ text, IsValidChar x) {c : Byte} (hlim : withinLimit lim.maxCh (text.length + 1) = true)
    (hbad : ¬IsValidChar c) : ∃ t, exec (.decPush c) s = .next t ∧ SpoiltText lim (text ++ [c]) t := by
  obtain ⟨rfl, hi, hf, htook⟩ := h
  have hv : (lookup (normalise c)).valid = false := Bool.eq_false_iff.2 hbad
  have hl : s.limits.maxCh ≠ some s.dec.cnt := htook.cnt ▸ ne_some_of_withinLimit hlim (Nat.lt_succ_self _)
  refine ⟨_, exec_decPush hi hf htook.phase hl (decTakeIn_invalid _ c s.dec hv), rfl, hi, hf, htook.phase, ?_, rfl, ?_⟩
  · rw [List.length_append, ← htook.cnt]
    rfl
  · rw [firstBad_append, firstBad_of_valid hvalid, firstBad_singleton hbad, htook.badchar]
    rfl

/-- After it a character is counted and no more (R160). -/
theorem SpoiltText.push {lim : Limits} {text : List Byte} {s : State} (h : SpoiltText lim text s) {c : Byte}
    (hlim : withinLimit lim.maxCh (text.length + 1) = true) :
    ∃ t, exec (.decPush c) s = .next t ∧ SpoiltText lim (text ++ [c]) t := by
  obtain ⟨rfl, hi, hf, hp, hcnt, hb, herr⟩ := h
  have hl : s.limits.maxCh ≠ some s.dec.cnt := hcnt ▸ ne_some_of_withinLimit hlim (Nat.lt_succ_self _)
  have hpos : s.dec.cnt ≠ 0 := by
    rintro h0
    obtain rfl : text = [] := List.eq_nil_of_length_eq_zero (hcnt.symm.trans h0)
    cases herr
  refine ⟨_, exec_decPush hi hf hp hl (decTakeIn_of_badchar _ c hb hpos), rfl, hi, hf, hp, ?_, hb, ?_⟩
  · rw [List.length_append, ← hcnt]
    rfl
  · rw [firstBad_append, herr]
    rfl

/-- What START and pushes of a text leave: all its characters taken in, or a bad one recorded. -/
def PushedText (lim : Limits) (text : List Byte) (s : State) : Prop :=
  (DecodingText lim text s ∧ ∀ c ∈ text, IsValidChar c) ∨ SpoiltText lim text s

theorem PushedText.push {lim : Limits} {text : List Byte} {s : State} (h : PushedText lim text s) {c : Byte}
    (hlim : withinLimit lim.maxCh (text.length + 1) = true) :
    ∃ t, exec (.decPush c) s = .next t ∧ PushedText lim (text ++ [c]) t := by
  rcases h with ⟨h, hvalid⟩ | h
  · by_cases hc : IsValidChar c
    · obtain ⟨t, ht, hnext⟩ := h.push hlim hc
      exact ⟨t, ht, .inl ⟨hnext, by simpa [or_imp, forall_and] using ⟨hvalid, hc⟩⟩⟩
    · obtain ⟨t, ht, hnext⟩ := h.push_bad hvalid hlim hc
      exact ⟨t, ht, .inr hnext⟩
  · obtain ⟨t, ht, hnext⟩ := h.push hlim
    exact ⟨t, ht, .inr hnext⟩

theorem pushedText_of_start {s : State} {text : List Byte} (hi : s.illcmd = false) (hf : s.dec.fault = false)
    (hlim : withinLimit s.limits.maxCh text.length = true) :
    ∃ t, execAll (.decStart :: text.map Instr.decPush) s = .next t ∧ PushedText s.limits text t := by
  rw [execAll_cons (exec_decStart hi hf)]
  refine execAll_map_of_push (.inl ⟨.start hi hf, nofun⟩) ?_
  rintro past c rest u rfl hu
  exact hu.push (withinLimit_mono hlim (by simp))

/-! ## The call after its END -/

/-- The byte at place `j` of a text's result: the group `j` of its index bits (R169). -/
def textByte (text : List Byte) (j : Nat) : Byte := BitVec.ofNat 8 (bitsValue (bitGroup (bits5 (indicesOf text)) 8 j))

/-- The state in which the decode call of a text is complete (R169). -/
structure DecodedText (text : List Byte) (s : State) : Prop where
  complete : decodeComplete s = true
  status : s.dec.status = verdictOf text
  errchar : verdictOf text = .invChar → firstBad text = some s.dec.errchar
  olen : s.dec.olen = publishedLen (verdictOf text) text.length
  bytes : verdictOf text = .ok → ∀ j, j < 5 * text.length / 8 → Memory.read s.dec.dout j = some (textByte text j)

theorem decodeComplete_decClose {s : State} (hi : s.illcmd = false) (hf : s.dec.fault = false) :
    decodeComplete { s with dec := decClose s.dec } = true := by
  simp [decodeComplete, hi, hf]

/-- END of a call with valid characters only (R165). -/
theorem DecodingText.decEnd {lim : Limits} {text : List Byte} {s : State} (h : DecodingText lim text s)
    (hvalid : ∀ c ∈ text, IsValidChar c) : ∃ t, exec .decEnd s = .next t ∧ DecodedText text t := by
  have hstatus := h.took.status_close hvalid
  refine ⟨_, exec_decEnd h.illcmd h.fault h.took.phase, decodeComplete_decClose h.illcmd h.fault, hstatus, fun hbad => ?_,
    ?_, fun _ j hj => h.took.bytes j (h.took.widx.symm ▸ hj)⟩
  · rw [verdictOf_eq_invChar_iff, firstBad_of_valid hvalid] at hbad
    cases hbad
  · rw [decClose_olen, ← decClose_status, hstatus, h.took.cnt]

/-- END of a call with a bad character (R165, R201). -/
theorem SpoiltText.decEnd {lim : Limits} {text : List Byte} {s : State} (h : SpoiltText lim text s) :
    ∃ t, exec .decEnd s = .next t ∧ DecodedText text t := by
  have hverdict : verdictOf text = .invChar := verdictOf_eq_invChar_iff.2 (by rw [h.errchar]; rfl)
  have hclose : verdict s.dec.badchar s.dec.cnt s.dec.pfxok = .invChar := by rw [h.badchar, verdict_of_badchar]
  refine ⟨_, exec_decEnd h.illcmd h.fault h.phase, decodeComplete_decClose h.illcmd h.fault, hclose.trans hverdict.symm,
    fun _ => h.errchar, ?_, fun hok => ?_⟩
  · rw [decClose_olen, hclose, hverdict]
    rfl
  · rw [hverdict] at hok
    cases hok

/-- A DECODE call of any text within the limit completes (R169). -/
theorem decodedText_of_decodeCall {s : State} {text : List Byte} (hi : s.illcmd = false) (hf : s.dec.fault = false)
    (hlim : withinLimit s.limits.maxCh text.length = true) :
    ∃ t, execAll (decodeCall text) s = .next t ∧ DecodedText text t := by
  obtain ⟨u, hu, hpushed⟩ := pushedText_of_start hi hf hlim
  obtain ⟨t, ht, hdecoded⟩ : ∃ t, exec .decEnd u = .next t ∧ DecodedText text t :=
    hpushed.elim (fun ⟨h, hvalid⟩ => h.decEnd hvalid) fun h => h.decEnd
  refine ⟨t, ?_, hdecoded⟩
  rw [decodeCall, ← List.cons_append, execAll_append hu, execAll_cons ht, execAll_nil]

theorem DecodedText.phase_and_fault {text : List Byte} {s : State} (h : DecodedText text s) :
    s.dec.phase = .done ∧ s.dec.fault = false := by
  have hcomplete := h.complete
  simp only [decodeComplete, Bool.and_eq_true, beq_iff_eq, Bool.not_eq_true'] at hcomplete
  obtain ⟨⟨hp, hf⟩, -⟩ := hcomplete
  exact ⟨hp, hf⟩

/-- On OK the length counts the whole bytes of the index bits, and the window is open on them. -/
theorem DecodedText.ok {text : List Byte} {s : State} (h : DecodedText text s) (hok : verdictOf text = .ok) :
    s.dec.olen = 5 * text.length / 8 ∧ doutWindowOpen s.dec = true := by
  obtain ⟨hp, hf⟩ := h.phase_and_fault
  refine ⟨?_, doutWindowOpen_iff.2 ⟨hp, h.status.trans hok, hf⟩⟩
  rw [h.olen, hok, Nat.mul_comm]
  rfl

theorem DecodedText.window_ok {text : List Byte} {s : State} (h : DecodedText text s) (hok : verdictOf text = .ok) :
    window .dout s = bytesOf text := by
  obtain ⟨hlen, hopen⟩ := h.ok hok
  rw [window_dout hopen fun j hj => h.bytes hok j (hlen ▸ hj), hlen]
  rfl

/-- On an error there is no length, and the window is closed. -/
theorem DecodedText.error {text : List Byte} {s : State} (h : DecodedText text s) (hne : verdictOf text ≠ .ok) :
    s.dec.olen = 0 ∧ window .dout s = [] := by
  refine ⟨by rw [h.olen, publishedLen_eq, if_neg hne], window_dout_closed ?_⟩
  exact doutWindowOpen_eq_false.2 (.inr (.inl (h.status ▸ hne)))

/-- The commands of a decode call are all the decoder's. -/
theorem unit_of_mem_decodeCall {text : List Byte} {i : Instr} (h : i ∈ decodeCall text) : i.unit = .dec := by
  simp only [decodeCall, List.mem_cons, List.mem_append, List.mem_map, List.not_mem_nil, or_false] at h
  rcases h with rfl | ⟨c, -, rfl⟩ | rfl
  · rfl
  · rfl
  · rfl

/-- Settles O48: the call ends in the state that `DecodedText` describes, and no command of it is the encoder's. -/
theorem decodeCallGivesVerdictAndBytes : Obligations.DecodeCallGivesVerdictAndBytes := by
  intro s text hi hf hlim
  obtain ⟨t, ht, h⟩ := decodedText_of_decodeCall hi hf hlim
  have hview : SameView .enc s t :=
    execAll_other_sameView (fun i hmem => by rw [unit_of_mem_decodeCall hmem]; nofun) ht
  exact ⟨t, ht, h.complete, h.status, h.errchar, fun hok => ⟨(h.ok hok).1, h.window_ok hok⟩, h.error, hview.enc rfl⟩

/-! ## The bytes of an encoded string -/

/-- The bytes of the encoded string, one by one. -/
theorem textByte_encodeOf {bytes : List Byte} {j : Nat} (hj : j < bytes.length) :
    textByte (encodeOf bytes) j = bytes[j] := by
  have hj' : j < (bytesOf (encodeOf bytes)).length := by rwa [bytesOf_encodeOf]
  have hget : (bytesOf (encodeOf bytes))[j] = textByte (encodeOf bytes) j := by simp [bytesOf, textByte]
  simp only [← hget, bytesOf_encodeOf]

/-- Settles O52: the characters are valid, and the bits that they stand for are those of the bytes and the padding zeros. -/
theorem decodingTheEncodedStringReproducesTheBytes : Obligations.DecodingTheEncodedStringReproducesTheBytes := by
  intro s bytes hi hf hlim
  obtain ⟨t, ht, hcall⟩ := decodingText_of_start hi hf hlim (encodeOf_valid bytes)
  have hlen := encodeOf_length bytes
  have hwidx : t.dec.widx = bytes.length := by
    rw [hcall.took.widx, hlen]
    omega
  refine ⟨t, ht, hcall.took.badchar, hwidx, fun j hj => ?_, ?_, ?_⟩
  · rw [← textByte_encodeOf hj]
    exact hcall.took.bytes j (hwidx.symm ▸ hj)
  · have hacc := hcall.took.acc
    rw [bits5_indicesOf_encodeOf, hwidx, paddedBits, ← bits8_length bytes, List.drop_left,
      bitsValue_replicate_false] at hacc
    exact BitVec.eq_of_toNat_eq hacc
  · have hpadded : 8 * bytes.length + padLen bytes.length = 5 * ((8 * bytes.length + 4) / 5) := by
      simpa [paddedBits] using paddedBits_length bytes
    have hpad : padLen bytes.length < 5 := Nat.mod_lt _ (by decide)
    rw [hcall.took.bits, hlen, ← hpadded, Nat.mul_add_mod, Nat.mod_eq_of_lt (by omega)]

/-! ## The first byte of an accepted string -/

/-- The first byte is the first index and the top three bits of the second (R172). -/
theorem textByte_zero (c₀ c₁ : Byte) (rest : List Byte) : textByte (c₀ :: c₁ :: rest) 0 =
    BitVec.ofNat 8 (8 * (lookup (normalise c₀)).idx.toNat + (lookup (normalise c₁)).idx.toNat / 4) := by
  have hlen : 8 * 0 + 8 ≤ (bits5 (indicesOf [c₀, c₁])).length := by simp
  have hgroup : bitGroup (bits5 (indicesOf (c₀ :: c₁ :: rest))) 8 0 = bitGroup (bits5 (indicesOf [c₀, c₁])) 8 0 := by
    rw [show c₀ :: c₁ :: rest = [c₀, c₁] ++ rest from rfl, indicesOf_append, bits5_append, bitGroup_append _ _ hlen]
  have hvalue : bitsValue (bits5 (indicesOf [c₀, c₁])) =
      (lookup (normalise c₀)).idx.toNat * 32 + (lookup (normalise c₁)).idx.toNat := by
    rw [show indicesOf [c₀, c₁] = [(lookup (normalise c₀)).idx] ++ [(lookup (normalise c₁)).idx] from rfl,
      bitsValue_bits5_append, bitsValue_bits5_single]
  have h₀ := (lookup (normalise c₀)).idx.isLt
  have h₁ := (lookup (normalise c₁)).idx.isLt
  rw [textByte, hgroup, bitsValue_bitGroup _ hlen, hvalue]
  congr 1
  simp only [bits5_length, indicesOf_length, List.length_cons, List.length_nil]
  omega

theorem verdictOf_eq_ok {text : List Byte} (h : verdictOf text = .ok) :
    5 < text.length ∧ (text.map normalise).head? = some sentinel := by
  unfold verdictOf at h
  split at h
  · cases h
  split at h
  · cases h
  split at h
  · next hlen hhead => exact ⟨Nat.not_le.1 hlen, hhead⟩
  · cases h

/-- Settles O54: an accepted text has a second character, and its first is the sentinel, whose index is 25. -/
theorem firstByteOfAnAcceptedString : Obligations.FirstByteOfAnAcceptedString := by
  intro s t text hi hf hlim hrun hok
  obtain ⟨t', ht', h⟩ := decodedText_of_decodeCall hi hf hlim
  rw [hrun] at ht'
  cases ht'
  have hverdict : verdictOf text = .ok := h.status.symm.trans hok
  obtain ⟨hlen, hhead⟩ := verdictOf_eq_ok hverdict
  obtain ⟨holen, hopen⟩ := h.ok hverdict
  have hread := h.bytes hverdict 0 (by omega)
  match text with
  | c₀ :: c₁ :: rest =>
    have hidx : (lookup (normalise c₀)).idx = 25 := by
      rw [Option.some_inj.1 hhead, sentinel_lookup]
    rw [textByte_zero, hidx] at hread
    exact ⟨c₁, rfl, readPort_dout.2 ⟨hopen, by omega, hread⟩⟩

end Sys2Proof.Machine
end

