-- ==== Sys2Proof/Proofs/UnmaskedDecoder.lean ====
section
/-!
PROOF. A whole DECODE call gives what D0's decoder gives in its three stages, with an integer accumulator that is never masked
(spec/41_decoder.md R150, R173), for O49. The accumulator is the number of all the index bits and the output their whole bytes,
which is how R169 gives the bytes of the call.
-/

namespace Sys2Proof.Machine

/-! ## D0's accumulator -/

/-- The whole bytes of a bit string (R63, R169). -/
def wholeBytes (bits : List Bool) : List Byte :=
  (List.range (bits.length / 8)).map fun j => BitVec.ofNat 8 (bitsValue (bitGroup bits 8 j))

theorem bytesOf_eq_wholeBytes (text : List Byte) : bytesOf text = wholeBytes (bits5 (indicesOf text)) := by
  rw [wholeBytes, bits5_length, indicesOf_length]
  rfl

/-- The first whole bytes of a longer bit string are those of its first part. -/
theorem map_bitGroup_append (l m : List Bool) :
    ((List.range (l.length / 8)).map fun j => BitVec.ofNat 8 (bitsValue (bitGroup (l ++ m) 8 j))) = wholeBytes l := by
  refine List.map_congr_left fun j hj => ?_
  have hj : j < l.length / 8 := List.mem_range.1 hj
  rw [bitGroup_append _ _ (by omega)]

theorem wholeBytes_append_of_eq {l m : List Bool} (h : (l ++ m).length / 8 = l.length / 8) :
    wholeBytes (l ++ m) = wholeBytes l := by
  rw [wholeBytes, h, map_bitGroup_append]

theorem wholeBytes_append_of_succ {l m : List Bool} (h : (l ++ m).length / 8 = l.length / 8 + 1) :
    wholeBytes (l ++ m) = wholeBytes l ++ [BitVec.ofNat 8 (bitsValue (bitGroup (l ++ m) 8 (l.length / 8)))] := by
  rw [wholeBytes, h, List.range_succ, List.map_append, map_bitGroup_append]
  rfl

/-- What D0's decoder holds after some indices: all their bits, the count of those not yet written, the whole bytes. -/
def d0After (syms : List Sym) : D0Dec :=
  { acc := bitsValue (bits5 syms), count := 5 * syms.length % 8, out := wholeBytes (bits5 syms) }

/-- Shifting an index in appends its bits to the number of all bits. -/
theorem shiftLeft_or_eq_bitsValue (syms : List Sym) (i : Sym) :
    bitsValue (bits5 syms) <<< 5 ||| i.toNat = bitsValue (bits5 (syms ++ [i])) := by
  rw [bitsValue_bits5_append, ← Nat.shiftLeft_add_eq_or_of_lt i.isLt, Nat.shiftLeft_eq]

/-- One index of D0's decoder (R150): a byte is extracted when eight bits are there, and it is the next whole byte. -/
theorem d0DecSym_d0After (syms : List Sym) (i : Sym) : d0DecSym (d0After syms) i = d0After (syms ++ [i]) := by
  have hlen : (bits5 syms ++ bits5 [i]).length = 5 * syms.length + 5 := by
    rw [List.length_append, bits5_length, bits5_length]
    rfl
  have hcount : 5 * (syms ++ [i]).length = 5 * syms.length + 5 := by rw [List.length_append]; rfl
  simp only [d0DecSym, d0After, shiftLeft_or_eq_bitsValue, hcount, bits5_append]
  split
  · next h8 =>
    have hbyte : (bits5 syms ++ bits5 [i]).length / 8 = (bits5 syms).length / 8 + 1 := by
      rw [hlen, bits5_length]
      omega
    have hdigit : bitsValue (bitGroup (bits5 syms ++ bits5 [i]) 8 ((bits5 syms).length / 8)) =
        bitsValue (bits5 syms ++ bits5 [i]) >>> (5 * syms.length % 8 + 5 - 8) % 256 := by
      rw [bitsValue_bitGroup _ (by omega), Nat.shiftRight_eq_div_pow, hlen, bits5_length]
      congr 3
      omega
    rw [wholeBytes_append_of_succ hbyte, hdigit, D0Dec.mk.injEq]
    exact ⟨rfl, by omega, rfl⟩
  · next h8 =>
    have hsame : (bits5 syms ++ bits5 [i]).length / 8 = (bits5 syms).length / 8 := by
      rw [hlen, bits5_length]
      omega
    rw [wholeBytes_append_of_eq hsame, D0Dec.mk.injEq]
    exact ⟨rfl, by omega, rfl⟩

theorem foldl_d0DecSym (syms : List Sym) : syms.foldl d0DecSym ⟨0, 0, []⟩ = d0After syms := by
  induction syms using List.reverseRecOn with
  | nil => rfl
  | append_singleton syms i ih => rw [List.foldl_append, ih, List.foldl_cons, List.foldl_nil, d0DecSym_d0After]

/-! ## D0's three stages -/

/-- A bad character ends D0's validation. -/
theorem d0Decode_of_bad {text : List Byte} {n : Byte} (h : firstBad text = some n) : d0Decode text = .invChar n := by
  unfold firstBad at h
  simp only [d0Decode, h]

/-- Without one, the length and the first character are judged, and the accumulator gives the bytes of the text. -/
theorem d0Decode_of_valid {text : List Byte} (h : firstBad text = none) :
    d0Decode text = if text.length ≤ 5 then .invLen
      else if (text.map normalise).head? = some sentinel then .ok (bytesOf text) else .invPfx := by
  have hsyms : (text.map normalise).map (fun n => (lookup n).idx) = indicesOf text := by
    rw [List.map_map]
    rfl
  unfold firstBad at h
  simp only [d0Decode, h, hsyms, foldl_d0DecSym, List.length_map, ne_eq, ite_not, bytesOf_eq_wholeBytes]
  rfl

/-- The result of a complete call is that of D0 (R173). -/
theorem DecodedText.result {text : List Byte} {s : State} (h : DecodedText text s) :
    decodeResult s = some (d0Decode text) := by
  rw [decodeResult, if_pos h.complete, h.status]
  cases hbad : firstBad text with
  | some n =>
    have hverdict : verdictOf text = .invChar := verdictOf_eq_invChar_iff.2 (by rw [hbad]; rfl)
    have herr : some s.dec.errchar = some n := (h.errchar hverdict).symm.trans hbad
    rw [hverdict, d0Decode_of_bad hbad, ← Option.some_inj.1 herr]
  | none =>
    have hverdict := verdictOf_of_valid (firstBad_eq_none_iff.1 hbad)
    rw [d0Decode_of_valid hbad]
    by_cases hlen : text.length ≤ 5
    · rw [if_pos hlen] at hverdict ⊢
      rw [hverdict]
    · rw [if_neg hlen] at hverdict ⊢
      by_cases hhead : (text.map normalise).head? = some sentinel
      · rw [if_pos hhead] at hverdict ⊢
        rw [hverdict, ← h.window_ok hverdict]
      · rw [if_neg hhead] at hverdict ⊢
        rw [hverdict]

/-- Settles O49: the call completes for every text, and the state in which it does holds D0's result. -/
theorem onePassDecodesAsD0sThreeStages : Obligations.OnePassDecodesAsD0sThreeStages := by
  intro s text hi hf hlim
  obtain ⟨t, ht, h⟩ := decodedText_of_decodeCall hi hf hlim
  exact ⟨t, ht, h.result⟩

end Sys2Proof.Machine
end

