-- ==== Sys2Proof/Proofs/UsageFaults.lean ====
section
/-!
PROOF. The usage faults (spec/60_exceptions.md R204 to R207, R215): what raises one, what it freezes, and that only reset clears
it, for O31 to O34 and O36. Who is ignored, raises or runs is what the tests of R95 can answer; a unit's own rule writes neither
fault register; a command of the other unit does not see the fault.
-/

namespace Sys2Proof.Machine

/-! ## A reserved word -/

/-- While `ILLCMD` is set a run of words only takes them (R204). -/
theorem run_words_frozen {s : State} (hi : s.illcmd = true) (words : List CmdWord) (rest : List HostAct) :
    Host.Core.run Sys2Proof.core words.length { s with port := words.map HostAct.word ++ rest } =
      .next { s with port := rest } := by
  induction words with
  | nil => rfl
  | cons w words ih =>
    have hstep : step { s with port := .word w :: (words.map HostAct.word ++ rest) } =
        .next { s with port := words.map HostAct.word ++ rest } := step_frozen rfl hi
    exact (run_succ_of_step hstep).trans ih

/-- Settles O31: the step raises IllegalCommand, and a run of frozen steps takes the words one by one. -/
theorem illegalCommandFreezesTheBlock : Obligations.IllegalCommandFreezesTheBlock :=
  ⟨fun _ _ _ hport hi ⟨_, hw⟩ => step_reserved hport hi hw, fun _ words rest hi => run_words_frozen hi words rest⟩

/-! ## The fault registers of a unit -/

theorem raiseUnitFault_of_enc {u : UnitSel} (hu : u = .enc) (c : FCause) (s : State) :
    raiseUnitFault u c s = { s with enc := { s.enc with fault := true, fcause := c } } := by rw [hu]; rfl

theorem raiseUnitFault_of_dec {u : UnitSel} (hu : u = .dec) (c : FCause) (s : State) :
    raiseUnitFault u c s = { s with dec := { s.dec with fault := true, fcause := c } } := by rw [hu]; rfl

/-- A command's own rule does not write its unit's cause (R49). -/
theorem ExecutedBy.cause {i : Instr} {s t : State} (h : ExecutedBy i s t) : unitCause i.unit t = unitCause i.unit s := by
  cases i with
  | encStart =>
    obtain rfl := h
    rfl
  | encPush b =>
    obtain ⟨e, he, rfl⟩ := h
    obtain ⟨-, -, -, hc⟩ := encTakeIn_keeps he
    exact hc
  | encFlush =>
    obtain ⟨e, he, rfl⟩ := h
    obtain ⟨-, -, -, -, -, hc⟩ := encClose_keeps he
    exact hc
  | decStart =>
    obtain rfl := h
    rfl
  | decPush c =>
    obtain ⟨d, hd, rfl⟩ := h
    obtain ⟨-, -, -, -, hc, -⟩ := decTakeIn_keeps hd
    exact hc
  | decEnd =>
    obtain rfl := h
    rfl

/-- What a unit sees includes its two fault registers. -/
theorem SameView.fault_and_cause {u : UnitSel} {s t : State} (h : SameView u s t) :
    unitFault u t = unitFault u s ∧ unitCause u t = unitCause u s := by
  cases u with
  | enc => simp [h.enc rfl]
  | dec => simp [h.dec rfl]

/-- A command that sets its unit's fault raises SEQ or OVF (R205). -/
theorem exec_raises {i : Instr} {s t : State} (h : exec i s = .next t) (hf : unitFault i.unit s = false)
    (hf' : unitFault i.unit t = true) : ∃ c, (c = .seq ∨ c = .ovf) ∧ t = raiseUnitFault i.unit c s := by
  rcases exec_next h with ⟨rfl, -⟩ | ⟨-, -, -, -, ht⟩ | ⟨-, -, -, -, ht⟩ | ⟨-, -, -, -, hx⟩
  · simp [hf] at hf'
  · exact ⟨.seq, .inl rfl, ht⟩
  · exact ⟨.ovf, .inr rfl, ht⟩
  · simp [hx.phase_and_fault.1, hf] at hf'

theorem unit_eq_dec {u : UnitSel} (h : u ≠ .enc) : u = .dec := by
  cases u with
  | enc => exact absurd rfl h
  | dec => rfl

theorem unit_eq_enc {u : UnitSel} (h : u ≠ .dec) : u = .enc := by
  cases u with
  | enc => rfl
  | dec => exact absurd rfl h

/-- A command does not see a fault of the other unit, and leaves it (R205). -/
theorem exec_raiseUnitFault_other {i : Instr} {u : UnitSel} (c : FCause) {s t : State} (hu : i.unit ≠ u)
    (h : exec i s = .next t) : exec i (raiseUnitFault u c s) = .next (raiseUnitFault u c t) := by
  cases u with
  | enc =>
    obtain ⟨hframe, hsame⟩ := exec_dec_only (unit_eq_dec hu) h (s' := raiseUnitFault .enc c s) rfl rfl rfl
    rw [hsame, hframe]
    rfl
  | dec =>
    obtain ⟨hframe, hsame⟩ := exec_enc_only (unit_eq_enc hu) h (s' := raiseUnitFault .dec c s) rfl rfl rfl
    rw [hsame, hframe]
    rfl

/-- Settles O32: a faulted unit ignores its commands, a command faults its unit by raising only, and one unit's commands do not
see the other. -/
theorem unitFaultFreezesItsUnitAlone : Obligations.UnitFaultFreezesItsUnitAlone := by
  refine fun i s => ⟨fun hf => exec_ignored (.inr hf), fun t h hf hf' => ?_,
    fun u c t hu h => exec_raiseUnitFault_other c hu h⟩
  obtain ⟨c, hc, rfl⟩ := exec_raises h hf hf'
  refine ⟨fun hu => ?_, fun hu => ?_, ?_⟩
  · rw [raiseUnitFault_of_enc hu]
  · rw [raiseUnitFault_of_dec hu]
  · rwa [raiseUnitFault_cause]

/-! ## The two causes -/

/-- Settles O33: outside RUN the tests of R95 end at the fourth, which raises SEQ. -/
theorem commandOutsideACallRaisesSeq : Obligations.CommandOutsideACallRaisesSeq := by
  intro s i hs hi hf hp
  have hrun : unitPhase i.unit s ≠ .run := by
    rcases hp with hp | hp
    · rw [hp]; nofun
    · rw [hp]; nofun
  rw [exec_seq hi hf hs hrun]
  exact ⟨fun hu => by rw [raiseUnitFault_of_enc hu], fun hu => by rw [raiseUnitFault_of_dec hu]⟩

/-- Only a PUSH at the limit of its own unit makes a cause OVF (R207). -/
theorem exec_cause_ovf {i : Instr} {u : UnitSel} {s t : State} (h : exec i s = .next t) (hc : unitCause u t = .ovf) :
    unitCause u s = .ovf ∨ (i.unit = u ∧ pushIsFull i s) := by
  by_cases hu : i.unit = u
  · subst hu
    rcases exec_next h with ⟨rfl, -⟩ | ⟨-, -, -, -, rfl⟩ | ⟨-, -, -, hfull, -⟩ | ⟨-, -, -, -, hx⟩
    · exact .inl hc
    · rw [raiseUnitFault_cause] at hc
      cases hc
    · exact .inr ⟨rfl, hfull⟩
    · exact .inl (hx.cause.symm.trans hc)
  · exact .inl ((exec_other_sameView hu h).fault_and_cause.2.symm.trans hc)

/-- A unit whose PUSH is at its limit has one (R8, R207). -/
theorem limit_ne_none_of_pushIsFull {i : Instr} {s : State} (h : pushIsFull i s) :
    (i.unit = .enc → s.limits.maxBy ≠ none) ∧ (i.unit = .dec → s.limits.maxCh ≠ none) := by
  cases i with
  | encPush b =>
    have hmax : s.limits.maxBy = some s.enc.icnt := h
    exact ⟨fun _ => by rw [hmax]; nofun, nofun⟩
  | decPush c =>
    have hmax : s.limits.maxCh = some s.dec.cnt := h
    exact ⟨nofun, fun _ => by rw [hmax]; nofun⟩
  | encStart => exact h.elim
  | encFlush => exact h.elim
  | decStart => exact h.elim
  | decEnd => exact h.elim

/-- Settles O34: at the limit the tests of R95 end at the fifth, which raises OVF, and there only. -/
theorem pushBeyondTheLimitRaisesOvf : Obligations.PushBeyondTheLimitRaisesOvf := by
  refine ⟨fun s b hi hf hp hfull => exec_ovf (i := .encPush b) hi hf hp hfull,
    fun s c hi hf hp hfull => exec_ovf (i := .decPush c) hi hf hp hfull,
    fun s t i h => ⟨fun hlim hc => ?_, fun hlim hc => ?_⟩⟩
  · exact (exec_cause_ovf (u := .enc) h hc).resolve_right fun ⟨hu, hfull⟩ => (limit_ne_none_of_pushIsFull hfull).1 hu hlim
  · exact (exec_cause_ovf (u := .dec) h hc).resolve_right fun ⟨hu, hfull⟩ => (limit_ne_none_of_pushIsFull hfull).2 hu hlim

/-! ## How long a fault stands -/

/-- A unit's fault and its cause stand through every command, of either unit (R215). -/
theorem exec_keeps_fault {i : Instr} {u : UnitSel} {s t : State} (hf : unitFault u s = true) (h : exec i s = .next t) :
    unitFault u t = true ∧ unitCause u t = unitCause u s := by
  by_cases hu : i.unit = u
  · subst hu
    rw [exec_ignored (.inr hf)] at h
    cases h
    exact ⟨hf, rfl⟩
  · obtain ⟨hfault, hcause⟩ := (exec_other_sameView hu h).fault_and_cause
    exact ⟨hfault.trans hf, hcause⟩

/-- The two fault registers are in the units, so a step that writes neither unit keeps them. -/
theorem fault_and_cause_of_units {u : UnitSel} {s t : State} (he : t.enc = s.enc) (hd : t.dec = s.dec) :
    unitFault u t = unitFault u s ∧ unitCause u t = unitCause u s := by
  cases u with
  | enc => simp [he]
  | dec => simp [hd]

/-- A unit's fault and its cause stand through every step that is no reset (R215). -/
theorem step_keeps_fault {u : UnitSel} {s t : State} (hf : unitFault u s = true)
    (hreset : ∀ rest, s.port ≠ .reset :: rest) (h : step s = .next t) :
    unitFault u t = true ∧ unitCause u t = unitCause u s := by
  rcases step_cases h with ⟨-, rfl⟩ | ⟨rest, hport, -⟩ | ⟨-, rest, -, -, rfl⟩ | ⟨-, rest, -, -, -, -, rfl⟩ |
    ⟨-, rest, i, -, -, -, hx⟩
  · exact ⟨hf, rfl⟩
  · exact absurd hport (hreset rest)
  · exact hf ▸ fault_and_cause_of_units (s := s) rfl rfl
  · exact hf ▸ fault_and_cause_of_units (s := s) rfl rfl
  · obtain ⟨hfault, hcause⟩ := fault_and_cause_of_units (u := u) (s := s) (t := { s with port := rest }) rfl rfl
    exact hcause ▸ exec_keeps_fault (hfault.trans hf) hx

/-- With `ILLCMD` set a step that is no reset takes the host's act and does no more (R204, R215). -/
theorem step_illcmd {s t : State} (hi : s.illcmd = true) (hreset : ∀ rest, s.port ≠ .reset :: rest)
    (h : step s = .next t) : t = { s with port := t.port } := by
  rcases step_cases h with ⟨-, rfl⟩ | ⟨rest, hport, -⟩ | ⟨-, rest, -, -, rfl⟩ | ⟨-, rest, -, -, hi', -⟩ |
    ⟨-, rest, -, -, hi', -⟩
  · rfl
  · exact absurd hport (hreset rest)
  · rfl
  · simp [hi] at hi'
  · simp [hi] at hi'

/-- Reset clears both units' fault and cause (R55, R240). -/
theorem hardReset_fault_and_cause (s : State) (u : UnitSel) :
    unitFault u (hardReset s) = false ∧ unitCause u (hardReset s) = .none := by
  cases u with
  | enc => exact ⟨rfl, rfl⟩
  | dec => exact ⟨rfl, rfl⟩

/-- Settles O36, by what a step can be: a fault stands unless the step is a reset, which clears everything. -/
theorem onlyResetClearsAUsageFault : Obligations.OnlyResetClearsAUsageFault := by
  refine fun s t h => ⟨fun hi hreset => ?_, fun u hf hreset => step_keeps_fault hf hreset h, fun rest hport => ?_⟩
  · have ht := step_illcmd hi hreset h
    exact ⟨ht, by rw [ht]; exact hi⟩
  · rw [step_reset hport] at h
    cases h
    exact ⟨rfl, hardReset_fault_and_cause _⟩

end Sys2Proof.Machine
end

