-- ==== Sys2Proof/Proofs/ErrorVerdicts.lean ====
section
/-!
PROOF. The decoder's three error verdicts have exactly their causes, in the order of D0's validations (spec/60_exceptions.md
R201 to R203, R210), for O50. A decode call completes with the verdict on its text (R169), so each clause is a fact about that.
-/

namespace Sys2Proof.Machine

theorem not_isValidChar_iff {c : Byte} : ¬IsValidChar c ↔ (lookup (normalise c)).valid = false :=
  Bool.eq_false_iff.symm

/-- InvalidCharacter comes first: any bad character gives it (R201, R210). -/
theorem verdictOf_eq_invChar_iff_exists {text : List Byte} :
    verdictOf text = .invChar ↔ ∃ c ∈ text, (lookup (normalise c)).valid = false := by
  rw [verdictOf_eq_invChar_iff, ← Option.ne_none_iff_isSome, ne_eq, firstBad_eq_none_iff]
  simp only [not_forall, exists_prop, not_isValidChar_iff]

/-- The other verdicts are given to valid texts only (R210). -/
theorem valid_of_verdictOf_ne_invChar {text : List Byte} (h : verdictOf text ≠ .invChar) : ∀ c ∈ text, IsValidChar c := by
  intro c hc
  by_contra hbad
  exact h (verdictOf_eq_invChar_iff_exists.2 ⟨c, hc, not_isValidChar_iff.1 hbad⟩)

/-- InvalidLength comes second (R202, R210). -/
theorem verdictOf_eq_invLen_iff {text : List Byte} :
    verdictOf text = .invLen ↔ (∀ c ∈ text, IsValidChar c) ∧ text.length ≤ 5 := by
  constructor
  · intro h
    have hv := valid_of_verdictOf_ne_invChar (text := text) (by rw [h]; nofun)
    rw [verdictOf_of_valid hv] at h
    refine ⟨hv, not_lt.1 fun hlen => ?_⟩
    rw [if_neg (by omega)] at h
    split_ifs at h
  · rintro ⟨hv, hlen⟩
    rw [verdictOf_of_valid hv, if_pos hlen]

/-- InvalidPrefix comes last (R203, R210). -/
theorem verdictOf_eq_invPfx_iff {text : List Byte} :
    verdictOf text = .invPfx ↔
      (∀ c ∈ text, IsValidChar c) ∧ 6 ≤ text.length ∧ (text.map normalise).head? ≠ some sentinel := by
  constructor
  · intro h
    have hv := valid_of_verdictOf_ne_invChar (text := text) (by rw [h]; nofun)
    rw [verdictOf_of_valid hv] at h
    split_ifs at h with hlen hhead
    exact ⟨hv, by omega, hhead⟩
  · rintro ⟨hv, hlen, hhead⟩
    rw [verdictOf_of_valid hv, if_neg (by omega), if_neg hhead]

/-- The recorded code is the normal form of a bad character that has valid ones only before it (R38, R201). -/
theorem firstBad_eq_some {text : List Byte} {n : Byte} (h : firstBad text = some n) :
    ∃ pre c post, text = pre ++ c :: post ∧ (∀ x ∈ pre, IsValidChar x) ∧ (lookup (normalise c)).valid = false ∧
      n = normalise c := by
  induction text with
  | nil => cases h
  | cons c text ih =>
    rw [← List.singleton_append, firstBad_append] at h
    by_cases hc : IsValidChar c
    · rw [firstBad_of_valid (by simpa using hc), Option.none_or] at h
      obtain ⟨pre, b, post, rfl, hpre, hb, hn⟩ := ih h
      exact ⟨c :: pre, b, post, rfl, List.forall_mem_cons.2 ⟨hc, hpre⟩, hb, hn⟩
    · rw [firstBad_singleton hc, Option.some_or, Option.some_inj] at h
      exact ⟨[], c, text, rfl, nofun, not_isValidChar_iff.1 hc, h.symm⟩

/-- The codes that no normalisation brings into the alphabet, as R201 lists them. -/
theorem lookup_normalise_invalid_iff (c : Byte) : (lookup (normalise c)).valid = false ↔
    c.toNat ≤ 0x2F ∨ (0x3A ≤ c.toNat ∧ c.toNat ≤ 0x40) ∨ (0x5B ≤ c.toNat ∧ c.toNat ≤ 0x60) ∨ 0x7B ≤ c.toNat ∨
    c.toNat = 0x55 ∨ c.toNat = 0x75 := by
  rw [← Bool.not_eq_true, lookup_normalise_valid_iff, List.mem_append, List.mem_append, List.mem_filter,
    mem_alphaTable_iff, mem_confusables_iff, mem_lowerCase_iff, bne_iff_ne, ne_eq, ← BitVec.toNat_inj]
  simp only [BitVec.reduceToNat]
  omega

/-- Settles O50: the call ends in the state that `DecodedText` describes, whose verdict is the verdict on the text. -/
theorem errorVerdictsHaveTheirCauses : Obligations.ErrorVerdictsHaveTheirCauses := by
  refine ⟨fun s t text hi hf hlim hrun => ?_, lookup_normalise_invalid_iff⟩
  obtain ⟨u, hu, h⟩ := decodedText_of_decodeCall hi hf hlim
  obtain rfl : u = t := by
    rw [hu] at hrun
    cases hrun
    rfl
  rw [h.status]
  exact ⟨verdictOf_eq_invChar_iff_exists, fun hbad => firstBad_eq_some (h.errchar hbad), verdictOf_eq_invLen_iff,
    verdictOf_eq_invPfx_iff, fun hne => (h.error hne).1⟩

end Sys2Proof.Machine
end
